-- ==== Sys2Proof/Word.lean ====
section
/-! DEFINITION. The word types of the 012V unpacker and the closed sets of names its state and
operations are written with. -/

namespace Sys2Proof

/-- A `u32`: a register, a command value, a pool handle, an input word. -/
abbrev Word := BitVec 32

/-- A `u8`: one byte of the packet space. -/
abbrev Byte := BitVec 8

/-- A `u16`: a plane sample or a scratch entry (R31). -/
abbrev Sample := BitVec 16

/-- The planes of a frame (R49); FRAME_READ numbers them Y = 0, U = 1, V = 2 (R110). -/
inductive Plane where
  | y
  | u
  | v
  deriving DecidableEq, Repr

/-- The sixteen engine state codes of STATUS.FSM (R105); `reserved` is code 0xF (R106). -/
inductive Fsm where
  | idle
  | validating
  | allocating
  | rowBegin
  | hextetSelect
  | word1
  | word2
  | word3
  | word4
  | merge
  | rowEnd
  | completing
  | done
  | failed
  | closed
  | reserved
  deriving DecidableEq, Repr

/-- The error causes of STATUS.CAUSE (R250). Codes 0x4 to 0xF are never written and have no name. -/
inductive Cause where
  | none
  | invalidGeometry
  | truncatedPacket
  | allocFailed
  deriving DecidableEq, Repr

/-- Where the samples of the current hextet go (R45). -/
inductive Dest where
  | real
  | scratch
  deriving DecidableEq, Repr, Inhabited

/-- The two host commands (R101). -/
inductive Command where
  | decode
  | shutdown
  deriving DecidableEq, Repr

/-- The eight registers of the window (R32). -/
inductive Reg where
  | cmd
  | status
  | width
  | height
  | tag
  | pktLen
  | consumed
  | frameHandle
  deriving DecidableEq, Repr

/-- The two agents that take steps (R30); the pool only answers. -/
inductive Agent where
  | host
  | engine
  deriving DecidableEq, Repr

end Sys2Proof
end

