-- ==== Sys2Proof/Config.lean ====
section
/-! DEFINITION. What the spec leaves to the pool, to the platform or to a fresh draw. Each constant
is opaque: nothing can be proved of its value. -/

namespace Sys2Proof

/-- The pool's answer to an acquire (R168): OK with a handle, or FAIL. -/
inductive PoolAnswer where
  | fail
  | ok (handle : Word)
  deriving DecidableEq, Repr, Inhabited

namespace Config

/-- The byte that draw `n` gives for an unwritten byte of PKT (R283). -/
opaque freeByte (n : Nat) : Byte

/-- The answer that draw `n` of the oracle `P_POOL` gives to an acquire (R10, R168), used where
`State.answers` lists none. -/
opaque poolAnswer (n : Nat) : PoolAnswer

/-- The initial value of sample (plane, row, column) of the frame whose content is draw `n` (R168). -/
opaque initSample (n : Nat) (p : Plane) (row col : Int) : Sample

/-- The integer that draw `n` leaves in hidden register `k` at a RESET (R52, U18). -/
opaque freeInt (n k : Nat) : Int

/-- The destination that draw `n` leaves at a RESET (R52, U18). -/
opaque freeDest (n : Nat) : Dest

/-- The value that draw `n` leaves in scratch entry `k` at a RESET (R52, U19). -/
opaque freeSample (n k : Nat) : Sample

/-- `P_PLANE_BYTE_ORDER` (R10, R77): whether the low byte of a sample is stored first. -/
opaque planeLittleEndian : Bool

/-- Where the pool places a plane of the frame whose content is draw `n` (R77). -/
opaque planeBase (n : Nat) (p : Plane) : Nat

/-- How many padding bytes the pool leaves after each row of a plane (R77). -/
opaque rowPadding (n : Nat) (p : Plane) : Nat

/-- The content of padding byte `k` of a row: the pool's, never written by the block (R77, U20). -/
opaque paddingByte (n : Nat) (p : Plane) (row k : Nat) : Byte

end Config

end Sys2Proof
end

