-- ==== Sys2Proof/Syntax.lean ====
section
/-! DEFINITION. The operations of the 012V unpacker: one constructor per row of
spec/opcode_table.json. -/

namespace Sys2Proof

/-- One atomic operation: a command, a host bus operation, or an engine step (R100, R105, R110). -/
inductive Instr where
  /-- Command 0x00000001 (R140). -/
  | decode
  /-- Command 0x00000002 (R146). -/
  | shutdown
  /-- A 32-bit write to the register window (R132). -/
  | regWrite (off data : Word)
  /-- A 32-bit read of the register window (R133). -/
  | regRead (off : Word)
  /-- A byte write to the packet space (R135). -/
  | pktWrite (off : Int) (data : Byte)
  /-- A sample read of the held frame (R136). -/
  | frameRead (handle : Word) (plane : Plane) (row col : Int)
  /-- The reset operation (R280). -/
  | reset
  /-- The step of state VALIDATING (R160). -/
  | validate
  /-- The step of state ALLOCATING (R162). -/
  | acquire
  /-- The step of state ROW_BEGIN (R220). -/
  | rowBegin
  /-- The step of state HEXTET_SELECT (R200). -/
  | hextetSelect
  /-- The step of state WORD1 (R185). -/
  | unpackW1
  /-- The step of state WORD2 (R186). -/
  | unpackW2
  /-- The step of state WORD3 (R187). -/
  | unpackW3
  /-- The step of state WORD4 (R188). -/
  | unpackW4
  /-- The step of state MERGE (R205). -/
  | mergeBack
  /-- The step of state ROW_END (R225). -/
  | rowEnd
  /-- The step of state COMPLETING (R227). -/
  | complete
  /-- The reserved state code 0xF (R106). -/
  | reservedFsm
  deriving DecidableEq, Repr

end Sys2Proof
end

