-- ==== Sys2Proof/WellFormed.lean ====
section
/-! DEFINITION. When an operation is written in its canonical form. -/

namespace Sys2Proof

/-- A REG_WRITE of a command code to CMD is spelled as the command it issues (R33, R101): the decoder
answers `decode` or `shutdown` for those two, so `regWrite` stands for every other write. Every other
operand value of every operation is well formed: the spec gives each of them a meaning. -/
def Instr.wf (i : Instr) : Bool :=
  match i with
  | .regWrite off data => !(off == 0x00000000#32 && (data == 0x00000001#32 || data == 0x00000002#32))
  | .decode => true
  | .shutdown => true
  | .regRead _ => true
  | .pktWrite _ _ => true
  | .frameRead _ _ _ _ => true
  | .reset => true
  | .validate => true
  | .acquire => true
  | .rowBegin => true
  | .hextetSelect => true
  | .unpackW1 => true
  | .unpackW2 => true
  | .unpackW3 => true
  | .unpackW4 => true
  | .mergeBack => true
  | .rowEnd => true
  | .complete => true
  | .reservedFsm => true

end Sys2Proof
end

