-- ==== Sys2Proof/Decode.lean ====
section
/-! DEFINITION. The encodings of the spec (file 30): register offsets, command codes, engine state
codes, cause codes and plane numbers; the decoder of host bus operations and of engine state codes,
and the encoder written from the same tables. -/

namespace Sys2Proof

/-- A host bus operation as the host presents it (R110), its plane still a number. -/
inductive BusOp where
  | regWrite (off data : Word)
  | regRead (off : Word)
  | pktWrite (off : Int) (data : Byte)
  | frameRead (handle : Word) (plane : Nat) (row col : Int)
  | reset
  deriving DecidableEq, Repr

/-- An encoded operation: a host bus operation, or the state code in STATUS.FSM that selects the
engine's step (R100). -/
inductive Code where
  | bus (op : BusOp)
  | fsm (code : BitVec 4)
  deriving DecidableEq, Repr

/-- Why an encoded thing names no operation. -/
inductive DecodeError where
  /-- The state rests: codes 0x0, 0xC, 0xD and 0xE run no step (R105). -/
  | noStep (code : BitVec 4)
  /-- A FRAME_READ whose plane number is none of 0, 1, 2 (R110). -/
  | badPlane (plane : Nat)
  deriving DecidableEq, Repr

/-- The byte offset of a register (R32). -/
def Reg.offset (r : Reg) : Word :=
  match r with
  | .cmd => 0x00#32
  | .status => 0x04#32
  | .width => 0x08#32
  | .height => 0x0C#32
  | .tag => 0x10#32
  | .pktLen => 0x14#32
  | .consumed => 0x18#32
  | .frameHandle => 0x1C#32

/-- The register at a byte offset (R32); `none` is an unmapped offset (R42). -/
def Reg.ofOffset (off : Word) : Option Reg :=
  if off = 0x00#32 then some .cmd
  else if off = 0x04#32 then some .status
  else if off = 0x08#32 then some .width
  else if off = 0x0C#32 then some .height
  else if off = 0x10#32 then some .tag
  else if off = 0x14#32 then some .pktLen
  else if off = 0x18#32 then some .consumed
  else if off = 0x1C#32 then some .frameHandle
  else none

/-- The command code written to CMD (R101). -/
def Command.code (c : Command) : Word :=
  match c with
  | .decode => 0x00000001#32
  | .shutdown => 0x00000002#32

/-- The command a CMD value selects, by exact match on all 32 bits (R101); `none` is a reserved
value (R102). -/
def decodeCommand (v : Word) : Option Command :=
  if v = 0x00000001#32 then some .decode
  else if v = 0x00000002#32 then some .shutdown
  else none

/-- The code of an engine state (R105). -/
def Fsm.code (f : Fsm) : BitVec 4 :=
  match f with
  | .idle => 0x0#4
  | .validating => 0x1#4
  | .allocating => 0x2#4
  | .rowBegin => 0x3#4
  | .hextetSelect => 0x4#4
  | .word1 => 0x5#4
  | .word2 => 0x6#4
  | .word3 => 0x7#4
  | .word4 => 0x8#4
  | .merge => 0x9#4
  | .rowEnd => 0xA#4
  | .completing => 0xB#4
  | .done => 0xC#4
  | .failed => 0xD#4
  | .closed => 0xE#4
  | .reserved => 0xF#4

/-- The engine state of a code (R105). -/
def Fsm.ofCode (c : BitVec 4) : Fsm :=
  if c = 0x0#4 then .idle
  else if c = 0x1#4 then .validating
  else if c = 0x2#4 then .allocating
  else if c = 0x3#4 then .rowBegin
  else if c = 0x4#4 then .hextetSelect
  else if c = 0x5#4 then .word1
  else if c = 0x6#4 then .word2
  else if c = 0x7#4 then .word3
  else if c = 0x8#4 then .word4
  else if c = 0x9#4 then .merge
  else if c = 0xA#4 then .rowEnd
  else if c = 0xB#4 then .completing
  else if c = 0xC#4 then .done
  else if c = 0xD#4 then .failed
  else if c = 0xE#4 then .closed
  else .reserved

/-- The code of an error cause (R250). -/
def Cause.code (c : Cause) : BitVec 4 :=
  match c with
  | .none => 0x0#4
  | .invalidGeometry => 0x1#4
  | .truncatedPacket => 0x2#4
  | .allocFailed => 0x3#4

/-- The number of a plane in FRAME_READ (R110). -/
def Plane.number (p : Plane) : Nat :=
  match p with
  | .y => 0
  | .u => 1
  | .v => 2

/-- The plane of a number (R110). -/
def Plane.ofNumber (n : Nat) : Option Plane :=
  match n with
  | 0 => some .y
  | 1 => some .u
  | 2 => some .v
  | _ => none

/-- The operation a host bus operation stands for (R101, R110). -/
def decodeBus (op : BusOp) : Except DecodeError Instr :=
  match op with
  | .regWrite off data =>
    if off = 0x00#32 then
      match decodeCommand data with
      | some .decode => .ok .decode
      | some .shutdown => .ok .shutdown
      | none => .ok (.regWrite off data)
    else .ok (.regWrite off data)
  | .regRead off => .ok (.regRead off)
  | .pktWrite off data => .ok (.pktWrite off data)
  | .frameRead h n r c =>
    match Plane.ofNumber n with
    | some p => .ok (.frameRead h p r c)
    | none => .error (.badPlane n)
  | .reset => .ok .reset

/-- The engine step an engine state code selects (R105, R106). -/
def decodeFsm (c : BitVec 4) : Except DecodeError Instr :=
  match Fsm.ofCode c with
  | .validating => .ok .validate
  | .allocating => .ok .acquire
  | .rowBegin => .ok .rowBegin
  | .hextetSelect => .ok .hextetSelect
  | .word1 => .ok .unpackW1
  | .word2 => .ok .unpackW2
  | .word3 => .ok .unpackW3
  | .word4 => .ok .unpackW4
  | .merge => .ok .mergeBack
  | .rowEnd => .ok .rowEnd
  | .completing => .ok .complete
  | .reserved => .ok .reservedFsm
  | .idle => .error (.noStep c)
  | .done => .error (.noStep c)
  | .failed => .error (.noStep c)
  | .closed => .error (.noStep c)

/-- The operation an encoded thing stands for, or the name of the reason it stands for none. -/
def decode (c : Code) : Except DecodeError Instr :=
  match c with
  | .bus op => decodeBus op
  | .fsm code => decodeFsm code

/-- The encoding of an operation: commands are REG_WRITEs of their code to CMD (R101), engine steps
the state code they run in (R105). -/
def encode (i : Instr) : Code :=
  match i with
  | .decode => .bus (.regWrite 0x00#32 0x00000001#32)
  | .shutdown => .bus (.regWrite 0x00#32 0x00000002#32)
  | .regWrite off data => .bus (.regWrite off data)
  | .regRead off => .bus (.regRead off)
  | .pktWrite off data => .bus (.pktWrite off data)
  | .frameRead h p r c => .bus (.frameRead h p.number r c)
  | .reset => .bus .reset
  | .validate => .fsm 0x1#4
  | .acquire => .fsm 0x2#4
  | .rowBegin => .fsm 0x3#4
  | .hextetSelect => .fsm 0x4#4
  | .unpackW1 => .fsm 0x5#4
  | .unpackW2 => .fsm 0x6#4
  | .unpackW3 => .fsm 0x7#4
  | .unpackW4 => .fsm 0x8#4
  | .mergeBack => .fsm 0x9#4
  | .rowEnd => .fsm 0xA#4
  | .complete => .fsm 0xB#4
  | .reservedFsm => .fsm 0xF#4

/-- Whether a word of spec/opcode_table.json names an engine step by the state code in its bits 3:0
(mask 0xF): a word of at most one byte does, and so does a 32-bit word of one of the four UNPACK rows,
which the table also gives the 32 bits of their input word. -/
def isStepWord (nbits w : Nat) : Bool := decide (nbits ≤ 8) || (decide (nbits ≤ 32) && decide (5 ≤ w ∧ w ≤ 8))

/-- The operation a word of spec/opcode_table.json selects: an engine step by its state code, or a
command by the 32-bit value written to CMD (mask 0xFFFFFFFF). -/
def decodeTableWord (nbits w : Nat) : Option Instr :=
  if isStepWord nbits w then (decode (.fsm (BitVec.ofNat 4 w))).toOption
  else if nbits ≤ 32 then
    match decodeCommand (BitVec.ofNat 32 w) with
    | some _ => (decode (.bus (.regWrite 0x00#32 (BitVec.ofNat 32 w)))).toOption
    | none => none
  else none

end Sys2Proof
end

