-- ==== Sys2Proof/Machine/State.lean ====
section
/-! DEFINITION. The state of the 012V unpacker with the agents around it, as plain data; the reasons
a step can stop; the state after reset. -/

namespace Sys2Proof.Machine

/-- Sparse storage: (address, value) pairs with strictly rising addresses. -/
abbrev Memory (n : Nat) := List (Nat × BitVec n)

/-- A frame the pool handed out: its handle, the geometry fixed at its acquire (R49, R292), which pool
draw its initial content is (R168), and the samples written since, keyed by sample index. -/
structure Frame where
  handle : Word
  w : Int
  h : Int
  fill : Nat
  y : Memory 16
  u : Memory 16
  v : Memory 16
  deriving DecidableEq, Repr

/-- One event of the pool-visible history (R169). -/
inductive PoolEvent where
  | acquire (w h : Int) (answer : PoolAnswer)
  | release (handle : Word)
  deriving DecidableEq, Repr

/-- One entry of the host's program: a bus operation (R110), or the pseudo-instruction `wait`, which
reads STATUS until bit 4 of the value read is 0 (R112). -/
inductive HostItem where
  | op (o : BusOp)
  | wait
  deriving DecidableEq, Repr

/-- The data a host read returned: a u32 from REG_READ (R133) or a u16 from FRAME_READ (R136). -/
inductive Response where
  | word (data : Word)
  | sample (data : Sample)
  deriving DecidableEq, Repr

/-- The machine: the block's registers, flags, slot and hidden working values (file 10), the packet
space, the pool-visible history, and the environment the steps read (the host's program, the
schedule, the pool's coming answers). -/
structure State where
  /-- STATUS.FSM, the engine state (R34, R38). -/
  fsm : Fsm
  /-- STATUS.GOT_FRAME (R34). -/
  gotFrame : Bool
  /-- STATUS.KEY_FRAME (R34). -/
  keyFrame : Bool
  /-- STATUS.CAUSE (R34, R250). -/
  cause : Cause
  /-- WIDTH, read as a signed number (R35). -/
  width : Word
  /-- HEIGHT, read as a signed number (R36). -/
  height : Word
  /-- TAG (R37). -/
  tag : Word
  /-- PKT_LEN (R39). -/
  pktLen : Word
  /-- WIDTH has been written since reset (R48). -/
  wrW : Bool
  /-- HEIGHT has been written since reset (R48). -/
  wrH : Bool
  /-- TAG has been written since reset (R48). -/
  wrT : Bool
  /-- PKT_LEN has been written since reset (R48). -/
  wrL : Bool
  /-- CONSUMED (R40). -/
  consumed : Word
  /-- The frame slot (R47). -/
  slot : Option Frame
  /-- S, the row stride (R44, R161). -/
  stride : Int
  /-- src, the offset in PKT of the next word (R44). -/
  src : Int
  /-- line_end, the row's declared end (R44). -/
  lineEnd : Int
  /-- r, the current row (R38). -/
  row : Int
  /-- x, the first column of the current hextet (R38). -/
  col : Int
  /-- dest, the destination of the current hextet (R45). -/
  dest : Dest
  /-- yp, the next Y index (R45). -/
  yp : Int
  /-- up, the next U index (R45). -/
  up : Int
  /-- vp, the next V index (R45). -/
  vp : Int
  /-- YS, the luma scratch buffer (R46). -/
  ys : Vector Sample 6
  /-- US, the chroma-U scratch buffer (R46). -/
  us : Vector Sample 3
  /-- VS, the chroma-V scratch buffer (R46). -/
  vs : Vector Sample 3
  /-- PKT, the packet space: the bytes written since reset (R50, R70). -/
  pkt : List Host.Cell
  /-- `P_PKT_CAP`, the capacity of PKT in bytes (R10): a parameter, which no step writes. -/
  pktCap : Nat
  /-- The pool-visible history, oldest event first (R169). -/
  history : List PoolEvent
  /-- The handles acquired and then dropped by a RESET without a release (R280). -/
  dropped : List Word
  /-- The pool's coming answers, next first (`P_POOL`, R10). -/
  answers : List PoolAnswer
  /-- How many free draws have been made (the model's own field). -/
  draws : Nat
  /-- The host's operations still to come, next first (R130, R111). -/
  program : List HostItem
  /-- What the host's reads returned, oldest first (R133, R136). -/
  responses : List Response
  /-- Which agent moves in the coming steps, next first (R131). -/
  sched : List Agent
  deriving DecidableEq, Repr

/-- Why the machine stops. The host faults are those of R262 and the engine faults those of R263,
where the spec gives the operation no meaning; the last four mark engine states no run reaches. -/
inductive Fault where
  /-- BUSY_ACCESS (R131, R290): any host operation but a STATUS, CONSUMED or FRAME_HANDLE read or RESET
  while BUSY = 1. Safe: the run stops. -/
  | busyAccess
  /-- RESERVED_CMD (R102): a write of an unassigned value to CMD. Safe. -/
  | reservedCmd
  /-- CLOSED (R137): DECODE after SHUTDOWN. Safe. -/
  | closed
  /-- UNWRITTEN_CONFIG (R48): DECODE with WIDTH, HEIGHT or PKT_LEN unwritten, or a REG_READ of an
  unwritten configuration register. Safe. -/
  | unwrittenConfig
  /-- PKT_OVERFLOW (R140): DECODE with PKT_LEN beyond the capacity of PKT. Safe. -/
  | pktOverflow
  /-- READ_ONLY (R134): REG_WRITE to STATUS, CONSUMED or FRAME_HANDLE. Safe. -/
  | readOnly
  /-- UNMAPPED (R42, R135): a REG access at an unmapped offset, or a PKT_WRITE outside PKT. Safe. -/
  | unmapped
  /-- FRAME_ACCESS (R76): FRAME_READ of a handle not in the slot or outside the frame. Safe. -/
  | frameAccess
  /-- UNREACHABLE_REDIRECT (R200): HEXTET_SELECT redirects a full hextet. Safe: no run reaches it. -/
  | unreachableRedirect
  /-- UNREACHABLE_MERGE (R205): MERGE_BACK outside a partial scratch hextet. Safe: no run reaches it. -/
  | unreachableMerge
  /-- BAD_STATE (R106): the engine or a command finds state code 0xF. Safe: no run reaches it. -/
  | badState
  /-- DEDUCED (R75, log 14): a plane write with no frame in the slot. Safe: no run reaches it. -/
  | noFrame
  /-- DEDUCED (R75, log 14): a plane write outside the frame's geometry. Safe: no run reaches it. -/
  | planeRange
  /-- DEDUCED (R182, log 14): a scratch write outside the buffer. Safe: no run reaches it. -/
  | scratchRange
  /-- DEDUCED (R71, log 14): a word read outside PKT. Safe: no run reaches it. -/
  | pktRange
  deriving DecidableEq, Repr

/-- Why an operation is refused. -/
inductive Refusal where
  /-- Raised by `exec` for an operation without a meaning yet; no operation of this model is. Safe. -/
  | notModelled (mnemonic : String)
  deriving DecidableEq, Repr

/-- What a step answers. -/
abbrev Result := Host.Outcome State Fault Refusal

/-- The machine after power-on, which is a RESET (R52, R281). DESIGN CHOICE (log 2, 3, 4, 7, 9, 10,
11, 12, 22): the values the spec leaves unwritten or unspecified, the capacity, and the empty
environment. -/
def State.reset : State where
  fsm := .idle
  gotFrame := false
  keyFrame := false
  cause := .none
  width := 0#32
  height := 0#32
  tag := 0#32
  pktLen := 0#32
  wrW := false
  wrH := false
  wrT := false
  wrL := false
  consumed := 0#32
  slot := none
  stride := 0
  src := 0
  lineEnd := 0
  row := 0
  col := 0
  dest := .real
  yp := 0
  up := 0
  vp := 0
  ys := Vector.replicate 6 0x0000#16
  us := Vector.replicate 3 0x0000#16
  vs := Vector.replicate 3 0x0000#16
  pkt := []
  pktCap := 64
  history := []
  dropped := []
  answers := []
  draws := 0
  program := []
  responses := []
  sched := []

end Sys2Proof.Machine
end

