-- ==== Sys2Proof/Machine/Flags.lean ====
section
/-! DEFINITION. The flags and read-only registers that are derived from other state: BUSY,
SLOT_VALID, FRAME_HANDLE and the STATUS word. -/

namespace Sys2Proof.Machine

/-- The state codes with BUSY = 1: 0x1 to 0xB (R34, R105, C8). -/
def busyState (f : Fsm) : Bool :=
  match f with
  | .idle | .done | .failed | .closed | .reserved => false
  | .validating | .allocating | .rowBegin | .hextetSelect | .word1 | .word2 | .word3 | .word4
  | .merge | .rowEnd | .completing => true

/-- STATUS.BUSY (R34). -/
def busy (s : State) : Bool := busyState s.fsm

/-- STATUS.SLOT_VALID (R34, R47). -/
def slotValid (s : State) : Bool := s.slot.isSome

/-- FRAME_HANDLE (R41, R47). -/
def frameHandle (s : State) : Word :=
  match s.slot with
  | some f => f.handle
  | none => 0x00000000#32

/-- A flag as bit `n` of a u32. -/
def flagBit (b : Bool) (n : Nat) : Word := (BitVec.ofBool b).setWidth 32 <<< n

/-- The STATUS word (R34, R133). -/
def statusWord (s : State) : Word :=
  s.fsm.code.setWidth 32 ||| flagBit (busy s) 4 ||| flagBit s.gotFrame 5 ||| flagBit s.keyFrame 6
    ||| flagBit (slotValid s) 7 ||| s.cause.code.setWidth 32 <<< 8

end Sys2Proof.Machine
end

