-- ==== Sys2Proof/Machine/Operands.lean ====
section
/-! DEFINITION. The operand forms: the geometry as exact integers, the row stride, the input word and
its three fields, the word the packing expression builds, the neutral value, and the place of a
sample in a plane. -/

namespace Sys2Proof.Machine

/-- WIDTH as a signed integer (R35, R107). -/
def widthOf (s : State) : Int := s.width.toInt

/-- HEIGHT as a signed integer (R36, R107). -/
def heightOf (s : State) : Int := s.height.toInt

/-- PKT_LEN as an integer (R39, R107). -/
def lengthOf (s : State) : Int := s.pktLen.toNat

/-- The row stride `width * 8 div 3` on exact integers (R9, R161). -/
def rowStride (w : Int) : Int := w * 8 / 3

/-- `ceil_half` (R12). -/
def ceilHalf (n : Int) : Int := (n + 1) / 2

/-- The neutral value (R8). -/
def neutral : Sample := 0x8000#16

/-- A little-endian word (R72). -/
def le32 (b0 b1 b2 b3 : Byte) : Word :=
  b0.setWidth 32 ||| b1.setWidth 32 <<< 8 ||| b2.setWidth 32 <<< 16 ||| b3.setWidth 32 <<< 24

/-- Field a of an input word, left-justified (R183). -/
def fieldA (t : Word) : Sample := ((t <<< 6) &&& 0xFFC0#32).setWidth 16

/-- Field b of an input word, left-justified (R183). -/
def fieldB (t : Word) : Sample := ((t >>> 4) &&& 0xFFC0#32).setWidth 16

/-- Field c of an input word, left-justified (R183). -/
def fieldC (t : Word) : Sample := ((t >>> 14) &&& 0xFFC0#32).setWidth 16

/-- The expression `.pack a, b, c` (R112): the word with these fields. -/
def pack (a b c : BitVec 10) : Word :=
  c.setWidth 32 <<< 20 ||| b.setWidth 32 <<< 10 ||| a.setWidth 32

/-- Byte `k` of a word in little-endian order (R112). -/
def wordByte (t : Word) (k : Nat) : Byte := (t >>> (8 * k)).setWidth 8

/-- The columns of a plane of width-`w` geometry (R49). -/
def planeColumns (p : Plane) (w : Int) : Int :=
  match p with
  | .y => w
  | .u => ceilHalf w
  | .v => ceilHalf w

/-- The columns of a plane of a frame (R49). -/
def Frame.columns (f : Frame) (p : Plane) : Int := planeColumns p f.w

/-- Whether (plane, row, column) lies in the geometry of a frame (R49, R76). -/
def Frame.inRange (f : Frame) (p : Plane) (r c : Int) : Bool :=
  decide (0 ≤ r ∧ r < f.h ∧ 0 ≤ c ∧ c < f.columns p)

/-- Where a sample stands in the storage of its plane: row after row (DESIGN CHOICE, log 8). -/
def Frame.index (f : Frame) (p : Plane) (r c : Int) : Nat := (r * f.columns p + c).toNat

end Sys2Proof.Machine
end

