-- ==== Sys2Proof/Machine/Ops.lean ====
section
/-! DEFINITION. The named operations the meanings share: sparse storage, the packet space, plane and
scratch writes, the pool calls, taking an error and clearing it, and the host's read data. -/

namespace Sys2Proof.Machine

/-- Run `k` on the next state; a stop stays the stop (R14). -/
def andThen (o : Result) (k : State → Result) : Result :=
  match o with
  | .next s => k s
  | .fault f => .fault f
  | .refused r => .refused r

/-! Sparse storage. -/

/-- Addresses rise strictly: the one canonical form of a storage. -/
abbrev Memory.wf {n : Nat} (m : Memory n) : Prop := (m.map Prod.fst).Pairwise (· < ·)

/-- The value at an address; an address that is not listed has no value. -/
def Memory.read {n : Nat} (m : Memory n) (a : Nat) : Option (BitVec n) :=
  match m with
  | [] => none
  | (b, v) :: rest => if a = b then some v else Memory.read rest a

/-- The storage with one value replaced or added, in canonical form. -/
def Memory.write {n : Nat} (m : Memory n) (a : Nat) (v : BitVec n) : Memory n :=
  match m with
  | [] => [(a, v)]
  | (b, w) :: rest =>
    if a < b then (a, v) :: (b, w) :: rest
    else if a = b then (a, v) :: rest
    else (b, w) :: Memory.write rest a v

/-! The packet space. -/

/-- An engine read of one byte of PKT: the byte the host wrote, or a fresh draw (R283). -/
def readByte (s : State) (o : Nat) : Byte × State :=
  match Memory.read s.pkt o with
  | some b => (b, s)
  | none => (Config.freeByte s.draws, { s with draws := s.draws + 1 })

/-- Four engine reads from offset `o`, assembled as a little-endian word (R72). -/
def readLe32 (s : State) (o : Nat) : Word × State :=
  let (b0, s0) := readByte s o
  let (b1, s1) := readByte s0 (o + 1)
  let (b2, s2) := readByte s1 (o + 2)
  let (b3, s3) := readByte s2 (o + 3)
  (le32 b0 b1 b2 b3, s3)

/-- Whether the four bytes from `o` are bytes of PKT (R70, R80). -/
def wordInPkt (s : State) (o : Int) : Bool := decide (0 ≤ o ∧ o + 4 ≤ s.pktCap)

/-! The planes of the held frame. -/

/-- The storage of a plane. -/
def Frame.storage (f : Frame) (p : Plane) : Memory 16 :=
  match p with
  | .y => f.y
  | .u => f.u
  | .v => f.v

/-- The frame with the storage of a plane replaced. -/
def Frame.withStorage (f : Frame) (p : Plane) (m : Memory 16) : Frame :=
  match p with
  | .y => { f with y := m }
  | .u => { f with u := m }
  | .v => { f with v := m }

/-- A sample of a frame: the last value written, or the pool's initial draw (R83, R168). -/
def Frame.sample (f : Frame) (p : Plane) (r c : Int) : Sample :=
  match Memory.read (f.storage p) (f.index p r c) with
  | some v => v
  | none => Config.initSample f.fill p r c

/-- The frame with one sample written. -/
def Frame.write (f : Frame) (p : Plane) (r c : Int) (v : Sample) : Frame :=
  f.withStorage p (Memory.write (f.storage p) (f.index p r c) v)

/-- PlaneWrite (R13, R75): write a sample of the frame in the slot. -/
def planeWrite (p : Plane) (r c : Int) (v : Sample) (s : State) : Result :=
  match s.slot with
  | none => .fault .noFrame
  | some f =>
    if f.inRange p r c then .next { s with slot := some (f.write p r c v) }
    else .fault .planeRange

/-- Samples written to consecutive columns from `c` on (R205). -/
def copySamples (p : Plane) (r c : Int) (l : List Sample) (s : State) : Result :=
  match l with
  | [] => .next s
  | v :: rest => andThen (planeWrite p r c v s) (copySamples p r (c + 1) rest)

/-- A row of a plane takes this many bytes in the pool's storage (R77). -/
def Frame.rowBytes (f : Frame) (p : Plane) : Nat :=
  2 * (f.columns p).toNat + Config.rowPadding f.fill p

/-- Where byte `k` of a row of a plane lies (R77). -/
def Frame.byteAddress (f : Frame) (p : Plane) (row k : Nat) : Nat :=
  Config.planeBase f.fill p + row * f.rowBytes p + k

/-- Byte `k` of a row of a plane: half of a sample in the order `P_PLANE_BYTE_ORDER`, or padding
(R77). -/
def Frame.rowByte (f : Frame) (p : Plane) (row k : Nat) : Byte :=
  if k < 2 * (f.columns p).toNat then
    let v := f.sample p row ((k / 2 : Nat) : Int)
    if (k % 2 == 0) == Config.planeLittleEndian then v.extractLsb' 0 8 else v.extractLsb' 8 8
  else Config.paddingByte f.fill p row k

/-! The scratch buffers and the output pointers. -/

/-- ScratchWrite (R13): write an entry of a scratch buffer. -/
def scratchWrite (p : Plane) (i : Int) (v : Sample) (s : State) : Result :=
  match p with
  | .y => if 0 ≤ i ∧ i < 6 then .next { s with ys := s.ys.setIfInBounds i.toNat v } else .fault .scratchRange
  | .u => if 0 ≤ i ∧ i < 3 then .next { s with us := s.us.setIfInBounds i.toNat v } else .fault .scratchRange
  | .v => if 0 ≤ i ∧ i < 3 then .next { s with vs := s.vs.setIfInBounds i.toNat v } else .fault .scratchRange

/-- The entries of a scratch buffer in order (R46). -/
def scratchList (p : Plane) (s : State) : List Sample :=
  match p with
  | .y => s.ys.toList
  | .u => s.us.toList
  | .v => s.vs.toList

/-- The next write index into a destination (R45). -/
def pointer (p : Plane) (s : State) : Int :=
  match p with
  | .y => s.yp
  | .u => s.up
  | .v => s.vp

/-- The pointer moved past a written sample (R182). -/
def advance (p : Plane) (s : State) : State :=
  match p with
  | .y => { s with yp := s.yp + 1 }
  | .u => { s with up := s.up + 1 }
  | .v => { s with vp := s.vp + 1 }

/-- WriteY, WriteU and WriteV (R182). -/
def writeSample (p : Plane) (v : Sample) (s : State) : Result :=
  let written :=
    match s.dest with
    | .real => planeWrite p s.row (pointer p s) v s
    | .scratch => scratchWrite p (pointer p s) v s
  andThen written (fun t => .next (advance p t))

/-- What the four word steps share (R185 to R188, R202): stop at the word guard, read the word, emit
its fields a, b, c to the three planes of the slot's rotation, then continue. -/
def wordStep (pa pb pc : Plane) (after : State → State) (s : State) : Result :=
  if s.lineEnd - s.src < 4 then .next { s with fsm := .merge }
  else if wordInPkt s s.src then
    let (t, s1) := readLe32 s s.src.toNat
    andThen (writeSample pa (fieldA t) { s1 with src := s1.src + 4 }) fun s2 =>
    andThen (writeSample pb (fieldB t) s2) fun s3 =>
    andThen (writeSample pc (fieldC t) s3) fun s4 => .next (after s4)
  else .fault .pktRange

/-! The pool. -/

/-- The handle in the slot, if any (R47). -/
def heldHandles (s : State) : List Word :=
  match s.slot with
  | some f => [f.handle]
  | none => []

/-- The handles this instance acquired that are still live (R168, R169). -/
def liveHandles (s : State) : List Word := s.dropped ++ heldHandles s

/-- A draw as the contract allows it: an OK with a zero handle or the handle of a live frame is no
answer of the pool and stands for FAIL (R168; DESIGN CHOICE, log 7). -/
def lawfulAnswer (a : PoolAnswer) (s : State) : PoolAnswer :=
  match a with
  | .fail => .fail
  | .ok h => if h = 0#32 ∨ h ∈ liveHandles s then .fail else .ok h

/-- The pool's answer to an acquire, and the state with that answer used up (`P_POOL`, R10, R168). -/
def drawAnswer (s : State) : PoolAnswer × State :=
  match s.answers with
  | a :: rest => (lawfulAnswer a s, { s with answers := rest })
  | [] => (lawfulAnswer (Config.poolAnswer s.draws) s, { s with draws := s.draws + 1 })

/-- Release the frame in the slot; an empty slot releases nothing (R146, R162, R168). -/
def releaseSlot (s : State) : State :=
  match s.slot with
  | some f => { s with slot := none, history := s.history ++ [.release f.handle] }
  | none => s

/-- A frame just handed out: no sample written yet (R49, R168). -/
def newFrame (h : Word) (w hgt : Int) (fill : Nat) : Frame where
  handle := h
  w := w
  h := hgt
  fill := fill
  y := []
  u := []
  v := []

/-! Reset. -/

/-- The hidden working values as a RESET leaves them: unspecified, so each is a free draw (R52, R280,
U18, U19). -/
def scrambleHidden (s : State) : State :=
  let n := s.draws
  { s with
    stride := Config.freeInt n 0
    src := Config.freeInt n 1
    lineEnd := Config.freeInt n 2
    row := Config.freeInt n 3
    col := Config.freeInt n 4
    dest := Config.freeDest n
    yp := Config.freeInt n 5
    up := Config.freeInt n 6
    vp := Config.freeInt n 7
    ys := #v[Config.freeSample n 0, Config.freeSample n 1, Config.freeSample n 2,
      Config.freeSample n 3, Config.freeSample n 4, Config.freeSample n 5]
    us := #v[Config.freeSample n 6, Config.freeSample n 7, Config.freeSample n 8]
    vs := #v[Config.freeSample n 9, Config.freeSample n 10, Config.freeSample n 11]
    draws := n + 1 }

/-! Errors: entry and return. -/

/-- `raise Fail(cause)` (R255): the one way an error is taken. -/
def raiseFail (c : Cause) (s : State) : State := { s with cause := c, fsm := .failed }

/-- What the acceptance of any command clears (R144); it is also the return from an error (R257). -/
def acceptCommand (s : State) : State :=
  { s with gotFrame := false, keyFrame := false, cause := .none, consumed := 0x00000000#32 }

/-- The effect of an accepted DECODE (R140). The spec stops a DECODE with WIDTH, HEIGHT or PKT_LEN
unwritten as UNWRITTEN_CONFIG (R48, R140, R262). -/
def startDecode (s : State) : Result :=
  if s.wrW && s.wrH && s.wrL then
    if s.pktCap < s.pktLen.toNat then .fault .pktOverflow
    else .next { s with fsm := .validating }
  else .fault .unwrittenConfig

/-- The effect of an accepted SHUTDOWN (R146). -/
def closeBlock (s : State) : State := { releaseSlot s with fsm := .closed }

/-- DECODE written to CMD (R137, R140). -/
def issueDecode (s : State) : Result :=
  if busy s then .fault .busyAccess
  else
    match s.fsm with
    | .closed => .fault .closed
    | .reserved => .fault .badState
    | _ => startDecode (acceptCommand s)

/-- SHUTDOWN written to CMD (R137, R146). -/
def issueShutdown (s : State) : Result :=
  if busy s then .fault .busyAccess
  else
    match s.fsm with
    | .closed => .next s
    | .reserved => .fault .badState
    | _ => .next (closeBlock (acceptCommand s))

/-- A value written to CMD (R137). -/
def issueCommand (v : Word) (s : State) : Result :=
  if busy s then .fault .busyAccess
  else
    match decodeCommand v with
    | none => .fault .reservedCmd
    | some .decode => issueDecode s
    | some .shutdown => issueShutdown s

/-! The host's read data. -/

/-- Hand read data to the host; a read changes nothing else (R78, R133). -/
def respond (d : Response) (s : State) : State := { s with responses := s.responses ++ [d] }

/-- Whether a register may be read while BUSY = 1 (R131). -/
def readableBusy (r : Option Reg) : Bool :=
  match r with
  | some .status | some .consumed | some .frameHandle => true
  | some .cmd | some .width | some .height | some .tag | some .pktLen | none => false

/-- The word a configuration register returns: its value once it is written (R48, R133). The spec
stops a read of an unwritten one as UNWRITTEN_CONFIG (R48, R133, R262). -/
def readConfig (written : Bool) (v : Word) (s : State) : Result :=
  if written then .next (respond (.word v) s) else .fault .unwrittenConfig

/-- A read of one register of the window (R133); `none` is an unmapped offset (R42). -/
def readReg (r : Option Reg) (s : State) : Result :=
  match r with
  | some .cmd => .next (respond (.word 0x00000000#32) s)
  | some .status => .next (respond (.word (statusWord s)) s)
  | some .width => readConfig s.wrW s.width s
  | some .height => readConfig s.wrH s.height s
  | some .tag => readConfig s.wrT s.tag s
  | some .pktLen => readConfig s.wrL s.pktLen s
  | some .consumed => .next (respond (.word s.consumed) s)
  | some .frameHandle => .next (respond (.word (frameHandle s)) s)
  | none => .fault .unmapped

/-- A write to one register of the window while BUSY = 0 (R132); `none` is an unmapped offset (R42). -/
def writeReg (r : Option Reg) (v : Word) (s : State) : Result :=
  match r with
  | some .cmd => issueCommand v s
  | some .width => .next { s with width := v, wrW := true }
  | some .height => .next { s with height := v, wrH := true }
  | some .tag => .next { s with tag := v, wrT := true }
  | some .pktLen => .next { s with pktLen := v, wrL := true }
  | some .status => .fault .readOnly
  | some .consumed => .fault .readOnly
  | some .frameHandle => .fault .readOnly
  | none => .fault .unmapped

end Sys2Proof.Machine
end

