-- ==== Sys2Proof/Machine/Commands.lean ====
section
/-! DEFINITION. The meanings of the two commands (CMD rows of the opcode table). -/

namespace Sys2Proof.Machine

/-- DECODE (R137, R140, R144). -/
def execDecode (s : State) : Result := issueDecode s

/-- SHUTDOWN (R137, R144, R146). -/
def execShutdown (s : State) : Result := issueShutdown s

end Sys2Proof.Machine
end

