-- ==== Sys2Proof/Machine/Driver.lean ====
section
/-! DEFINITION. The meanings of ROW_BEGIN, ROW_END, COMPLETE and the reserved state code (files 44
and 30). -/

namespace Sys2Proof.Machine

/-- ROW_BEGIN (R220). -/
def execRowBegin (s : State) : Result :=
  .next { s with
    ys := Vector.replicate 6 neutral
    us := Vector.replicate 3 neutral
    vs := Vector.replicate 3 neutral
    src := s.row * s.stride
    lineEnd := (s.row + 1) * s.stride
    col := 0
    fsm := if 0 < widthOf s then .hextetSelect else .merge }

/-- ROW_END (R225). -/
def execRowEnd (s : State) : Result :=
  .next { s with
    row := s.row + 1
    fsm := if s.row + 1 < heightOf s then .rowBegin else .completing }

/-- COMPLETE (R227). -/
def execComplete (s : State) : Result :=
  .next { s with keyFrame := true, gotFrame := true, consumed := s.pktLen, fsm := .done }

/-- The reserved state code 0xF (R106): the behaviour is not specified. -/
def execReservedFsm (_s : State) : Result := .fault .badState

end Sys2Proof.Machine
end

