-- ==== Sys2Proof/Machine/Edge.lean ====
section
/-! DEFINITION. The meanings of HEXTET_SELECT and MERGE_BACK (file 43). -/

namespace Sys2Proof.Machine

/-- HEXTET_SELECT (R200). -/
def execHextetSelect (s : State) : Result :=
  if widthOf s - s.col < 6 ∨ s.lineEnd - s.src < 16 then
    if 6 ≤ widthOf s - s.col then .fault .unreachableRedirect
    else .next { s with dest := .scratch, yp := 0, up := 0, vp := 0, fsm := .word1 }
  else
    .next { s with dest := .real, yp := s.col, up := s.col / 2, vp := s.col / 2, fsm := .word1 }

/-- MERGE_BACK (R205): copy the valid prefix of the scratch buffers into the planes. -/
def execMergeBack (s : State) : Result :=
  if s.col < widthOf s then
    if s.dest = .scratch ∧ widthOf s - s.col < 6 then
      let n := widthOf s - s.col
      let m := ceilHalf n
      andThen (copySamples .y s.row s.col ((scratchList .y s).take n.toNat) s) fun s1 =>
      andThen (copySamples .u s.row (s.col / 2) ((scratchList .u s).take m.toNat) s1) fun s2 =>
      andThen (copySamples .v s.row (s.col / 2) ((scratchList .v s).take m.toNat) s2) fun s3 =>
      .next { s3 with fsm := .rowEnd }
    else .fault .unreachableMerge
  else .next { s with fsm := .rowEnd }

end Sys2Proof.Machine
end

