-- ==== Sys2Proof/Machine/HostOps.lean ====
section
/-! DEFINITION. The meanings of the host bus operations (HOST_OP rows of the opcode table). The busy
check comes first in each (R131, R290, C11). -/

namespace Sys2Proof.Machine

/-- REG_WRITE (R132, R134, R42). -/
def execRegWrite (off data : Word) (s : State) : Result :=
  if busy s then .fault .busyAccess else writeReg (Reg.ofOffset off) data s

/-- REG_READ (R133, R42). -/
def execRegRead (off : Word) (s : State) : Result :=
  if busy s && !readableBusy (Reg.ofOffset off) then .fault .busyAccess
  else readReg (Reg.ofOffset off) s

/-- PKT_WRITE (R74, R135). -/
def execPktWrite (off : Int) (data : Byte) (s : State) : Result :=
  if busy s then .fault .busyAccess
  else if 0 ≤ off ∧ off < s.pktCap then
    .next { s with pkt := Memory.write (n := 8) s.pkt off.toNat data }
  else .fault .unmapped

/-- FRAME_READ (R76, R136, R292). -/
def execFrameRead (handle : Word) (plane : Plane) (row col : Int) (s : State) : Result :=
  if busy s then .fault .busyAccess
  else
    match s.slot with
    | none => .fault .frameAccess
    | some f =>
      if f.handle = handle ∧ f.inRange plane row col then
        .next (respond (.sample (f.sample plane row col)) s)
      else .fault .frameAccess

/-- RESET (R280): every piece of the block's state at its reset value, the hidden working values at
free draws; the frame in the slot is dropped without a release. What is not the block's stays: the
pool-visible history, the pool's coming answers, the host's program and read data, the schedule and the
capacity. -/
def execReset (s : State) : Result :=
  .next (scrambleHidden { State.reset with
    pktCap := s.pktCap
    history := s.history
    dropped := liveHandles s
    answers := s.answers
    draws := s.draws
    program := s.program
    responses := s.responses
    sched := s.sched })

end Sys2Proof.Machine
end

