-- ==== Sys2Proof/Machine/Lifecycle.lean ====
section
/-! DEFINITION. The meanings of VALIDATE and ACQUIRE (file 41). -/

namespace Sys2Proof.Machine

/-- VALIDATE (R160, R161, R163). S is written before the length check. -/
def execValidate (s : State) : Result :=
  if widthOf s ≤ 1 ∨ heightOf s ≤ 0 then .next (raiseFail .invalidGeometry s)
  else
    let t : State := { s with stride := rowStride (widthOf s) }
    if lengthOf t < heightOf t * t.stride then .next (raiseFail .truncatedPacket t)
    else .next { t with fsm := .allocating }

/-- The pool's answer recorded and taken: FAIL ends the decode, OK puts the frame into the slot and
starts row 0 (R162, R169). -/
def takeAnswer (w h : Int) (answer : PoolAnswer) (s : State) : State :=
  match answer with
  | .fail => raiseFail .allocFailed { s with history := s.history ++ [.acquire w h .fail] }
  | .ok hnd =>
    { s with
      history := s.history ++ [.acquire w h (.ok hnd)]
      slot := some (newFrame hnd w h s.draws)
      draws := s.draws + 1
      row := 0
      fsm := .rowBegin }

/-- ACQUIRE (R162, R168): release what the slot holds, call the pool, and take its answer. -/
def acquireFrame (s : State) : State :=
  takeAnswer (widthOf s) (heightOf s) (drawAnswer (releaseSlot s)).1 (drawAnswer (releaseSlot s)).2

/-- ACQUIRE (R162). -/
def execAcquire (s : State) : Result := .next (acquireFrame s)

end Sys2Proof.Machine
end

