-- ==== Sys2Proof/Machine/Unpacker.lean ====
section
/-! DEFINITION. The meanings of the four word steps (file 42): the word's slot selects the planes its
fields a, b, c go to (R104). -/

namespace Sys2Proof.Machine

/-- UNPACK_W1 (R185): U, Y, V. -/
def execUnpackW1 (s : State) : Result :=
  wordStep .u .y .v (fun t => { t with fsm := .word2 }) s

/-- UNPACK_W2 (R186): Y, U, Y. -/
def execUnpackW2 (s : State) : Result :=
  wordStep .y .u .y (fun t => { t with fsm := .word3 }) s

/-- UNPACK_W3 (R187): V, Y, U. -/
def execUnpackW3 (s : State) : Result :=
  wordStep .v .y .u (fun t => { t with fsm := .word4 }) s

/-- The end of a hextet (R188): a partial hextet leaves the row loop, a full one moves to the next. -/
def endHextet (s : State) : State :=
  if widthOf s - s.col < 6 then { s with fsm := .merge }
  else if s.col + 6 < widthOf s then { s with col := s.col + 6, fsm := .hextetSelect }
  else { s with col := s.col + 6, fsm := .merge }

/-- UNPACK_W4 (R188): Y, V, Y, then the end of the hextet. -/
def execUnpackW4 (s : State) : Result := wordStep .y .v .y endHextet s

end Sys2Proof.Machine
end

