-- ==== Sys2Proof/Machine/Dispatch.lean ====
section
/-! DEFINITION. One arm per operation. -/

namespace Sys2Proof.Machine

def exec (i : Instr) (s : State) : Host.Outcome State Fault Refusal :=
  match i with
  | .decode => Sys2Proof.Machine.execDecode s
  | .shutdown => Sys2Proof.Machine.execShutdown s
  | .regWrite off data => Sys2Proof.Machine.execRegWrite off data s
  | .regRead off => Sys2Proof.Machine.execRegRead off s
  | .pktWrite off data => Sys2Proof.Machine.execPktWrite off data s
  | .frameRead handle plane row col => Sys2Proof.Machine.execFrameRead handle plane row col s
  | .reset => Sys2Proof.Machine.execReset s
  | .validate => Sys2Proof.Machine.execValidate s
  | .acquire => Sys2Proof.Machine.execAcquire s
  | .rowBegin => Sys2Proof.Machine.execRowBegin s
  | .hextetSelect => Sys2Proof.Machine.execHextetSelect s
  | .unpackW1 => Sys2Proof.Machine.execUnpackW1 s
  | .unpackW2 => Sys2Proof.Machine.execUnpackW2 s
  | .unpackW3 => Sys2Proof.Machine.execUnpackW3 s
  | .unpackW4 => Sys2Proof.Machine.execUnpackW4 s
  | .mergeBack => Sys2Proof.Machine.execMergeBack s
  | .rowEnd => Sys2Proof.Machine.execRowEnd s
  | .complete => Sys2Proof.Machine.execComplete s
  | .reservedFsm => Sys2Proof.Machine.execReservedFsm s

end Sys2Proof.Machine
end

