-- ==== Sys2Proof/Machine/Fetch.lean ====
section
/-! DEFINITION. Which agent moves next, and what it runs: the host its next program entry, the engine
the step its state code selects. -/

namespace Sys2Proof.Machine

/-- What the next step is. -/
inductive Fetched where
  /-- No agent has an enabled step: the block waits for the host (R105, R131). -/
  | rest
  /-- An operation, and the state it runs in (the turn and the program entry used up). -/
  | run (i : Instr) (s : State)
  /-- A host operation that names no operation of the block, and the fault it is. -/
  | reject (f : Fault)
  deriving DecidableEq, Repr

/-- The host has an operation to perform. -/
def hostReady (s : State) : Bool := !s.program.isEmpty

/-- The engine has an enabled step (R131), or stands in the reserved state (R106). -/
def engineReady (s : State) : Bool := (decode (.fsm s.fsm.code)).toBool

/-- The agent that moves next: the one the schedule names if it can move, else the other; with no
schedule the engine first (R131, R295). -/
def nextAgent (s : State) : Option Agent :=
  match s.sched with
  | .host :: _ => if hostReady s then some .host else if engineReady s then some .engine else none
  | .engine :: _ => if engineReady s then some .engine else if hostReady s then some .host else none
  | [] => if engineReady s then some .engine else if hostReady s then some .host else none

/-- The state with one entry of the schedule used up. -/
def useTurn (s : State) : State := { s with sched := s.sched.tail }

/-- The state with the host's next operation used up. -/
def popProgram (s : State) : State := { s with program := s.program.tail }

/-- The fault of a bus operation that names no operation: a FRAME_READ of a plane that is none of Y,
U, V is outside every frame (R76, R131). -/
def rejectBus (s : State) : Fault := if busy s then .busyAccess else .frameAccess

/-- The host's next step: a bus operation, or one poll of `wait`, which stays the next entry while
the value read has bit 4 set (R112). -/
def fetchHost (s : State) : Fetched :=
  match s.program with
  | [] => .rest
  | .op o :: _ =>
    match decode (.bus o) with
    | .ok i => .run i (popProgram s)
    | .error _ => .reject (rejectBus s)
  | .wait :: _ =>
    .run (.regRead Reg.status.offset) (if (statusWord s).getLsbD 4 then s else popProgram s)

/-- The engine's next step (R105). -/
def fetchEngine (s : State) : Fetched :=
  match decode (.fsm s.fsm.code) with
  | .ok i => .run i s
  | .error _ => .rest

/-- The next step of the machine. -/
def fetch (s : State) : Fetched :=
  match nextAgent s with
  | some .host => fetchHost (useTurn s)
  | some .engine => fetchEngine (useTurn s)
  | none => .rest

/-- The state in which the next step runs the operation of a word of the opcode table: a command
waits as the host's next operation, an engine step is selected by STATUS.FSM. -/
def placeWord (s : State) (nbits w : Nat) : State :=
  if isStepWord nbits w then { s with fsm := Fsm.ofCode (BitVec.ofNat 4 w), sched := .engine :: s.sched }
  else { s with
    program := .op (.regWrite Reg.cmd.offset (BitVec.ofNat 32 w)) :: s.program
    sched := .host :: s.sched }

end Sys2Proof.Machine
end

