-- ==== Sys2Proof/Machine/Step.lean ====
section
/-! DEFINITION. One step of the machine, and the placing of an operation for it. -/

namespace Sys2Proof.Machine

/-- One atomic step of the host or of the engine (R14, R79, R131). At rest nothing changes. -/
def step (s : State) : Host.Outcome State Fault Refusal :=
  match fetch s with
  | .rest => .next s
  | .run i t => exec i t
  | .reject f => .fault f

/-- The state whose next step fetches and runs the operation of a word of spec/opcode_table.json. -/
def State.withFetchWord (s : State) (nbits w : Nat) : State := placeWord s nbits w

end Sys2Proof.Machine
end

