-- ==== Sys2Proof/Machine/Assembler.lean ====
section
/-! DEFINITION. Host programs in the assembler of the spec (R111, R112): its statements, their
expansion into host operations, and the reading of a line of text. The step does not use this file: a
program it yields is what the environment puts into `State.program`. -/

namespace Sys2Proof.Machine

/-- A statement of a host program: the real statements (R111) and the pseudo-instructions (R112). -/
inductive Stmt where
  | wr (r : Reg) (v : Word)
  | rd (r : Reg)
  | pkt (o : Nat) (bytes : List Byte)
  | frd (handle : Word) (plane : Plane) (row col : Nat)
  | reset
  | cmd (c : Command)
  | wait
  | pktw (o : Nat) (words : List Word)
  deriving DecidableEq, Repr

/-- Byte writes at consecutive offsets (R111). -/
def pktItems (o : Nat) (l : List Byte) : List HostItem :=
  match l with
  | [] => []
  | b :: rest => .op (.pktWrite o b) :: pktItems (o + 1) rest

/-- The bytes of words in little-endian order (R112). -/
def wordsBytes (l : List Word) : List Byte :=
  match l with
  | [] => []
  | t :: rest => wordByte t 0 :: wordByte t 1 :: wordByte t 2 :: wordByte t 3 :: wordsBytes rest

/-- The host operations a statement stands for (R111, R112). -/
def expand (st : Stmt) : List HostItem :=
  match st with
  | .wr r v => [.op (.regWrite r.offset v)]
  | .rd r => [.op (.regRead r.offset)]
  | .pkt o bytes => pktItems o bytes
  | .frd h p r c => [.op (.frameRead h p.number r c)]
  | .reset => [.op .reset]
  | .cmd c => [.op (.regWrite Reg.cmd.offset c.code)]
  | .wait => [.wait]
  | .pktw o words => pktItems o (wordsBytes words)

/-! Reading a line. -/

/-- The part of a line before its comment (R111). -/
def beforeComment (l : List Char) : List Char := l.takeWhile (· ≠ ';')

/-- A character that separates words of a line. DESIGN CHOICE (log 31): the spec gives the forms of
R111 and no grammar of blanks; comma, blank and tab separate alike. -/
def isSeparator (c : Char) : Bool := c == ' ' || c == ',' || c == '\t'

/-- The words of a line; `cur` is the word being read, backwards. -/
def wordsOf (cur : List Char) (l : List Char) : List (List Char) :=
  match l with
  | [] => if cur.isEmpty then [] else [cur.reverse]
  | c :: rest =>
    if isSeparator c then
      if cur.isEmpty then wordsOf [] rest else cur.reverse :: wordsOf [] rest
    else wordsOf (c :: cur) rest

/-- The value of a digit in base `base`. -/
def digit (base : Nat) (c : Char) : Option Nat :=
  let n :=
    if '0' ≤ c ∧ c ≤ '9' then c.toNat - '0'.toNat
    else if 'a' ≤ c ∧ c ≤ 'f' then c.toNat - 'a'.toNat + 10
    else if 'A' ≤ c ∧ c ≤ 'F' then c.toNat - 'A'.toNat + 10
    else base
  if n < base then some n else none

/-- The value of a row of digits after `acc`. -/
def digits (base acc : Nat) (l : List Char) : Option Nat :=
  match l with
  | [] => some acc
  | c :: rest =>
    match digit base c with
    | some d => digits base (acc * base + d) rest
    | none => none

/-- A number, decimal or hexadecimal with 0x (R111). DESIGN CHOICE (log 33): R111 names no sign, and
none is read, so a line with -1 is no statement; a negative s32 is written as its u32 bits. -/
def number (l : List Char) : Option Nat :=
  match l with
  | [] => none
  | '0' :: 'x' :: c :: rest => digits 16 0 (c :: rest)
  | c :: rest => digits 10 0 (c :: rest)

/-- A number below `bound`. DESIGN CHOICE (log 31): a number that does not fit its operand makes the
line no statement. -/
def numberBelow (bound : Nat) (l : List Char) : Option Nat :=
  match number l with
  | some n => if n < bound then some n else none
  | none => none

/-- The register of a name (R32, R111). -/
def regNamed (l : List Char) : Option Reg :=
  if l = ['C', 'M', 'D'] then some .cmd
  else if l = ['S', 'T', 'A', 'T', 'U', 'S'] then some .status
  else if l = ['W', 'I', 'D', 'T', 'H'] then some .width
  else if l = ['H', 'E', 'I', 'G', 'H', 'T'] then some .height
  else if l = ['T', 'A', 'G'] then some .tag
  else if l = ['P', 'K', 'T', '_', 'L', 'E', 'N'] then some .pktLen
  else if l = ['C', 'O', 'N', 'S', 'U', 'M', 'E', 'D'] then some .consumed
  else if l = ['F', 'R', 'A', 'M', 'E', '_', 'H', 'A', 'N', 'D', 'L', 'E'] then some .frameHandle
  else none

/-- The plane of a name (R13, R111). -/
def planeNamed (l : List Char) : Option Plane :=
  if l = ['Y'] then some .y
  else if l = ['U'] then some .u
  else if l = ['V'] then some .v
  else none

/-- The u32 values of a list of operands, each a number or `.pack a, b, c` (R112). DESIGN CHOICE
(log 30): the spec does not say where the expression may stand; it is read as a value of `wr` and of
`pktw`, and nowhere else. -/
def wordOperands (l : List (List Char)) : Option (List Word) :=
  match l with
  | [] => some []
  | t :: rest =>
    if t = ['.', 'p', 'a', 'c', 'k'] then
      match rest with
      | a :: b :: c :: rest' =>
        match numberBelow 1024 a, numberBelow 1024 b, numberBelow 1024 c, wordOperands rest' with
        | some x, some y, some z, some ws =>
          some (pack (BitVec.ofNat 10 x) (BitVec.ofNat 10 y) (BitVec.ofNat 10 z) :: ws)
        | _, _, _, _ => none
      | _ => none
    else
      match numberBelow 0x100000000 t, wordOperands rest with
      | some n, some ws => some (BitVec.ofNat 32 n :: ws)
      | _, _ => none

/-- The bytes of a list of operands (R111). -/
def byteOperands (l : List (List Char)) : Option (List Byte) :=
  match l with
  | [] => some []
  | t :: rest =>
    match numberBelow 256 t, byteOperands rest with
    | some n, some bs => some (BitVec.ofNat 8 n :: bs)
    | _, _ => none

/-- `wr REG, v` from its operands (R111). -/
def readWr (args : List (List Char)) : Option Stmt :=
  match args with
  | r :: v =>
    match regNamed r, wordOperands v with
    | some reg, some [w] => some (.wr reg w)
    | _, _ => none
  | [] => none

/-- `frd h, P, r, c` from its operands (R111). -/
def readFrd (args : List (List Char)) : Option Stmt :=
  match args with
  | [h, p, r, c] =>
    match numberBelow 0x100000000 h, planeNamed p, number r, number c with
    | some hn, some pl, some rn, some cn => some (.frd (BitVec.ofNat 32 hn) pl rn cn)
    | _, _, _, _ => none
  | _ => none

/-- `cmd DECODE` and `cmd SHUTDOWN` from the operand (R112). -/
def readCmd (args : List (List Char)) : Option Stmt :=
  match args with
  | [c] =>
    if c = ['D', 'E', 'C', 'O', 'D', 'E'] then some (.cmd .decode)
    else if c = ['S', 'H', 'U', 'T', 'D', 'O', 'W', 'N'] then some (.cmd .shutdown)
    else none
  | _ => none

/-- `rd REG` from its operand (R111). -/
def readRd (args : List (List Char)) : Option Stmt :=
  match args with
  | [r] => (regNamed r).map .rd
  | _ => none

/-- `pkt o, b0 b1 ... bn` from its operands (R111). DESIGN CHOICE (log 31): a `pkt` with no byte is a
statement that stands for no operation. -/
def readPkt (args : List (List Char)) : Option Stmt :=
  match args with
  | o :: bs =>
    match number o, byteOperands bs with
    | some on, some l => some (.pkt on l)
    | _, _ => none
  | [] => none

/-- `pktw o, w0, w1, ..., wn` from its operands (R112). DESIGN CHOICE (log 31): a `pktw` with no word
is a statement that stands for no operation. -/
def readPktw (args : List (List Char)) : Option Stmt :=
  match args with
  | o :: ws =>
    match number o, wordOperands ws with
    | some on, some l => some (.pktw on l)
    | _, _ => none
  | [] => none

/-- The statement of a list of words: mnemonic and operands. -/
def readWords (l : List (List Char)) : Option Stmt :=
  match l with
  | [] => none
  | m :: args =>
    if m = ['w', 'r'] then readWr args
    else if m = ['r', 'd'] then readRd args
    else if m = ['p', 'k', 't'] then readPkt args
    else if m = ['f', 'r', 'd'] then readFrd args
    else if m = ['c', 'm', 'd'] then readCmd args
    else if m = ['p', 'k', 't', 'w'] then readPktw args
    else if m = ['r', 'e', 's', 'e', 't'] then (if args.isEmpty then some .reset else none)
    else if m = ['w', 'a', 'i', 't'] then (if args.isEmpty then some .wait else none)
    else none

/-- The host operations of one line: none for an empty line or a comment (R111); `none` is a line
that is no statement (log 31). -/
def assembleLine (line : List Char) : Option (List HostItem) :=
  match wordsOf [] (beforeComment line) with
  | [] => some []
  | ws => (readWords ws).map expand

/-- The host operations of a program, one statement a line (R111). -/
def assemble (lines : List (List Char)) : Option (List HostItem) :=
  match lines with
  | [] => some []
  | l :: rest =>
    match assembleLine l, assemble rest with
    | some a, some b => some (a ++ b)
    | _, _ => none

end Sys2Proof.Machine
end

