-- ==== Sys2Proof/Safety.lean ====
section
/-! DEFINITION. What counts as a safe run of the 012V unpacker, in the terms claims use: the
invariants of the spec (R169, R235, R236), the transition table (R230), the step count (R237), and the
sample the format puts at each place of a frame (R104, R189, R206). -/

namespace Sys2Proof.Safety

open Sys2Proof Sys2Proof.Machine

/-! Classes of operations and faults. -/

/-- The rows of the opcode table that are engine steps (R105). -/
def isEngineStep (i : Instr) : Bool :=
  match i with
  | .validate | .acquire | .rowBegin | .hextetSelect | .unpackW1 | .unpackW2 | .unpackW3
  | .unpackW4 | .mergeBack | .rowEnd | .complete | .reservedFsm => true
  | .decode | .shutdown | .regWrite _ _ | .regRead _ | .pktWrite _ _ | .frameRead _ _ _ _
  | .reset => false

/-- The engine faults: those of R263, and the model's own for states no run reaches (log 14). -/
def isEngineFault (f : Fault) : Bool :=
  match f with
  | .unreachableRedirect | .unreachableMerge | .badState | .noFrame | .planeRange | .scratchRange
  | .pktRange => true
  | .busyAccess | .reservedCmd | .closed | .unwrittenConfig | .pktOverflow | .readOnly | .unmapped
  | .frameAccess => false

/-- The host operations that have a meaning while BUSY = 1 (R131, R290). -/
def allowedBusy (i : Instr) : Bool :=
  match i with
  | .reset => true
  | .regRead off => off == 0x04#32 || off == 0x18#32 || off == 0x1C#32
  | .decode | .shutdown | .regWrite _ _ | .pktWrite _ _ | .frameRead _ _ _ _ => false
  | .validate | .acquire | .rowBegin | .hextetSelect | .unpackW1 | .unpackW2 | .unpackW3
  | .unpackW4 | .mergeBack | .rowEnd | .complete | .reservedFsm => false

/-! What is seen of a state. -/

/-- The sample of the frame in the slot at (plane, row, column); `none` without a frame or outside its
geometry (R75, R76). -/
def sampleAt (s : State) (p : Plane) (r c : Int) : Option Sample :=
  match s.slot with
  | none => none
  | some f => if f.inRange p r c then some (f.sample p r c) else none

/-- The byte of PKT the host last wrote at an offset; `none` while it is unwritten (R70, R283). -/
def pktAt (s : State) (o : Nat) : Option Byte := Memory.read (n := 8) s.pkt o

/-- Bits 5:0 of a sample are 0 (R31, R236). -/
def LowBitsClear (v : Sample) : Prop := v &&& 0x003F#16 = 0#16

/-- The states in which the scratch buffers hold what the engine wrote: those after ROW_BEGIN in a row
(R46, R220). -/
def scratchLive (f : Fsm) : Bool :=
  match f with
  | .hextetSelect | .word1 | .word2 | .word3 | .word4 | .merge | .rowEnd => true
  | .idle | .validating | .allocating | .rowBegin | .completing | .done | .failed | .closed
  | .reserved => false

/-! Invariants of storage and of the frame's life. -/

/-- The storage of a plane is canonical and holds nothing outside the plane (R75). -/
def PlaneStored (f : Frame) (p : Plane) : Prop :=
  Memory.wf (f.storage p) ∧
    ∀ e ∈ f.storage p, e.1 < f.h.toNat * (f.columns p).toNat

/-- PKT and the planes are in canonical form and hold nothing outside their address spaces
(R70, R75, R80). -/
def StorageInv (s : State) : Prop :=
  Memory.wf (n := 8) s.pkt ∧ (∀ e ∈ s.pkt, e.1 < s.pktCap) ∧
    ∀ f, s.slot = some f → ∀ p, PlaneStored f p

/-- Every sample written to the frame in the slot, and every scratch entry from ROW_BEGIN's refill on,
has bits 5:0 equal to 0 (R31, R236). -/
def LowBitsInv (s : State) : Prop :=
  (∀ f, s.slot = some f → ∀ p, ∀ e ∈ f.storage p, LowBitsClear e.2) ∧
    (scratchLive s.fsm → ∀ p, ∀ v ∈ scratchList p s, LowBitsClear v)

/-- One event on the handles acquired and not released; `none` where the contract has no such event: an
acquire that answers a zero handle or one not yet released, or a release of a handle that is not
outstanding (R168, R169). -/
def trackEvent (live : List Word) (e : PoolEvent) : Option (List Word) :=
  match e with
  | .acquire _ _ .fail => some live
  | .acquire _ _ (.ok h) => if h = 0x00000000#32 ∨ h ∈ live then none else some (live ++ [h])
  | .release h => if h ∈ live then some (live.erase h) else none

/-- The handles a history leaves acquired and not released; `none` for a history with an event out of
order, such as a second release of one acquire (R169). -/
def outstanding (l : List PoolEvent) : Option (List Word) :=
  l.foldl (fun acc e => acc.bind fun live => trackEvent live e) (some [])

/-- The history is in order, and its unreleased handles are the dropped ones and then the one in the
slot; handles are non-zero and no two live ones are equal (R168, R169). -/
def OwnershipInv (s : State) : Prop :=
  outstanding s.history = some (liveHandles s) ∧ (liveHandles s).Nodup ∧
    0x00000000#32 ∉ liveHandles s

/-- Whether the engine holds a frame it is filling: codes 0x3 to 0xB (R105, R230). -/
def holdsFrame (f : Fsm) : Bool :=
  match f with
  | .rowBegin | .hextetSelect | .word1 | .word2 | .word3 | .word4 | .merge | .rowEnd
  | .completing => true
  | .idle | .validating | .allocating | .done | .failed | .closed | .reserved => false

/-- What the status fields say in each engine state (R51, R144, R148, R227, R255). -/
def StatusInv (s : State) : Prop :=
  s.fsm ≠ .reserved ∧
  s.gotFrame = decide (s.fsm = .done) ∧
  s.keyFrame = s.gotFrame ∧
  (s.cause = .none ↔ s.fsm ≠ .failed) ∧
  (s.fsm ≠ .done → s.consumed = 0x00000000#32) ∧
  (s.fsm = .idle ∨ s.fsm = .closed ∨ s.cause = .allocFailed → s.slot = none) ∧
  (s.fsm = .done ∨ holdsFrame s.fsm → s.slot.isSome)

/-! The engine invariant (R235). -/

/-- The configuration a decode in progress has (R48, R140). -/
def ConfigReady (s : State) : Prop :=
  s.wrW ∧ s.wrH ∧ s.wrL ∧ s.pktLen.toNat ≤ s.pktCap

/-- What VALIDATE has established (R160, R235 item 1). -/
def GeometryReady (s : State) : Prop :=
  ConfigReady s ∧ 2 ≤ widthOf s ∧ 1 ≤ heightOf s ∧ s.stride = rowStride (widthOf s) ∧
    heightOf s * s.stride ≤ lengthOf s

/-- The slot holds the frame acquired for the geometry in progress (R162, R235 item 1). -/
def FrameReady (s : State) : Prop :=
  GeometryReady s ∧ ∃ f, s.slot = some f ∧ f.w = widthOf s ∧ f.h = heightOf s

/-- A row is in progress (R235 item 1). -/
def RowReady (s : State) : Prop := FrameReady s ∧ 0 ≤ s.row ∧ s.row < heightOf s

/-- The hextet loop of a row is in progress or over (R235 item 2). -/
def HextetReady (s : State) : Prop :=
  RowReady s ∧ s.lineEnd = (s.row + 1) * s.stride ∧ s.col % 6 = 0 ∧ 0 ≤ s.col ∧ s.col ≤ widthOf s

/-- The state before word `k + 1` of a hextet, `ny`, `nu` and `nv` samples of which are written, all of
them from words inside the row (R235 items 3 to 5). -/
def WordReady (s : State) (k ny nu nv : Int) : Prop :=
  HextetReady s ∧ s.col < widthOf s ∧
    s.src = s.row * s.stride + 16 * (s.col / 6) + 4 * k ∧ s.src ≤ s.lineEnd ∧
    ((6 ≤ widthOf s - s.col ∧ s.dest = .real ∧
        s.yp = s.col + ny ∧ s.up = s.col / 2 + nu ∧ s.vp = s.col / 2 + nv) ∨
      (widthOf s - s.col < 6 ∧ s.dest = .scratch ∧ s.yp = ny ∧ s.up = nu ∧ s.vp = nv))

/-- The engine invariant, state by state (R230, R235). DEDUCED (log 32): item 2 of R235 stands from
HEXTET_SELECT to ROW_END and not at ROW_BEGIN, where by R162, R220 and R225 x and line_end are those of
the row before, or any value in row 0 of the first decode. -/
def EngineInv (s : State) : Prop :=
  match s.fsm with
  | .idle | .done | .failed | .closed => True
  | .reserved => False
  | .validating => ConfigReady s
  | .allocating => GeometryReady s
  | .rowBegin => RowReady s
  | .hextetSelect =>
    HextetReady s ∧ s.col < widthOf s ∧ s.src = s.row * s.stride + 16 * (s.col / 6)
  | .word1 => WordReady s 0 0 0 0
  | .word2 => WordReady s 1 1 1 1
  | .word3 => WordReady s 2 3 2 1
  | .word4 => WordReady s 3 4 3 2
  | .merge =>
    HextetReady s ∧ (s.col < widthOf s → s.dest = .scratch ∧ widthOf s - s.col < 6)
  | .rowEnd => HextetReady s
  | .completing => FrameReady s ∧ s.row = heightOf s

/-! The transition table and the step count. -/

/-- The rows of the transition table of R230 that engine steps take. -/
def isTransition (a b : Fsm) : Bool :=
  match a, b with
  | .validating, .failed | .validating, .allocating
  | .allocating, .failed | .allocating, .rowBegin
  | .rowBegin, .hextetSelect | .rowBegin, .merge
  | .hextetSelect, .word1
  | .word1, .merge | .word1, .word2
  | .word2, .merge | .word2, .word3
  | .word3, .merge | .word3, .word4
  | .word4, .merge | .word4, .hextetSelect
  | .merge, .rowEnd
  | .rowEnd, .rowBegin | .rowEnd, .completing
  | .completing, .done => true
  | _, _ => false

/-- The steps of the partial hextet of a row: none, or HEXTET_SELECT, the words read and the word step
whose guard fires (`p` of R237). -/
def partialSteps (w : Int) : Int := if w % 6 = 0 then 0 else 2 + 8 * (w % 6) / 3 / 4

/-- The steps of one row (R237). -/
def rowSteps (w : Int) : Int := 1 + 5 * (w / 6) + partialSteps w + 2

/-- The engine steps of a successful decode (R237). -/
def decodeSteps (w h : Int) : Int := 2 + h * rowSteps w + 1

/-- The steps from the first word state of a hextet to its end: four words, or the words read and the
guard. -/
def hextetSteps (s : State) : Int :=
  if s.dest = .real then 4 else 1 + 8 * (widthOf s % 6) / 3 / 4

/-- The steps of the row after the current hextet, its MERGE_BACK and ROW_END, and all that follows. -/
def afterHextet (s : State) : Int :=
  (if s.dest = .real then 5 * ((widthOf s - s.col) / 6 - 1) + partialSteps (widthOf s) else 0) + 2 +
    (heightOf s - s.row - 1) * rowSteps (widthOf s) + 1

/-- The engine steps left to DONE in a decode that has its frame (R230, R237). -/
def remainingSteps (s : State) : Int :=
  let later := (heightOf s - s.row - 1) * rowSteps (widthOf s) + 1
  match s.fsm with
  | .rowBegin => rowSteps (widthOf s) + later
  | .hextetSelect => 5 * ((widthOf s - s.col) / 6) + partialSteps (widthOf s) + 2 + later
  | .word1 => hextetSteps s + afterHextet s
  | .word2 => hextetSteps s - 1 + afterHextet s
  | .word3 => hextetSteps s - 2 + afterHextet s
  | .word4 => hextetSteps s - 3 + afterHextet s
  | .merge => 2 + later
  | .rowEnd => 1 + later
  | .completing => 1
  | .idle | .validating | .allocating | .done | .failed | .closed | .reserved => 0

/-! The sample the format puts at a place. -/

/-- The three fields of a word. -/
inductive Field where
  | a
  | b
  | c
  deriving DecidableEq, Repr

/-- A field of a word, left-justified (R183). -/
def fieldOf (f : Field) (t : Word) : Sample :=
  match f with
  | .a => fieldA t
  | .b => fieldB t
  | .c => fieldC t

/-- Which word of a hextet (0 to 3) and which of its fields sample `i` of a plane is (R104, R189). -/
def placeInHextet (p : Plane) (i : Int) : Int × Field :=
  match p with
  | .y =>
    if i = 0 then (0, .b) else if i = 1 then (1, .a) else if i = 2 then (1, .c)
    else if i = 3 then (2, .b) else if i = 4 then (3, .a) else (3, .c)
  | .u => if i = 0 then (0, .a) else if i = 1 then (1, .b) else (2, .c)
  | .v => if i = 0 then (0, .c) else if i = 1 then (2, .a) else (3, .b)

/-- The samples of a plane in one hextet: 6 of Y, 3 of U and of V (R104). -/
def perHextet (p : Plane) : Int :=
  match p with
  | .y => 6
  | .u => 3
  | .v => 3

/-- The word at offset `o` of a written packet (R72); an unwritten byte counts as 0 here. -/
def packetWord (pkt : List Host.Cell) (o : Int) : Word :=
  let byte (k : Nat) : Byte := (Memory.read (n := 8) pkt (o.toNat + k)).getD 0x00#8
  le32 (byte 0) (byte 1) (byte 2) (byte 3)

/-- The sample of (plane, row, column) in a frame of width `w`: its field of its word, or the neutral
value where the word does not lie whole in the row's slice (R104, R189, R202, R206). -/
def formatSample (pkt : List Host.Cell) (w : Int) (p : Plane) (r c : Int) : Sample :=
  let k := placeInHextet p (c % perHextet p)
  let o := r * rowStride w + 16 * (c / perHextet p) + 4 * k.1
  if o + 4 ≤ (r + 1) * rowStride w then fieldOf k.2 (packetWord pkt o) else neutral

/-- Every byte of the rows of the packet has been written by the host (R282 step 3). -/
def PacketWritten (s : State) : Prop :=
  ∀ o : Nat, (o : Int) < heightOf s * rowStride (widthOf s) → (pktAt s o).isSome

/-- The frame in the slot holds the format's sample at every place (R189, R206, R239). -/
def FrameDecoded (s : State) : Prop :=
  ∀ f, s.slot = some f → ∀ p r c, f.inRange p r c → f.sample p r c = formatSample s.pkt f.w p r c

/-- How many columns of the current row of a plane are final (R180, R235 item 3). -/
def columnsDone (s : State) (p : Plane) : Int :=
  match s.fsm with
  | .rowEnd => planeColumns p (widthOf s)
  | .word1 | .word2 | .word3 | .word4 =>
    if s.dest = .real then pointer p s else planeColumns p s.col
  | .hextetSelect | .merge => planeColumns p s.col
  | .idle | .validating | .allocating | .rowBegin | .completing | .done | .failed | .closed
  | .reserved => 0

/-- The scratch buffers of a redirected hextet: the format's samples as far as they are written, and
the neutral value beyond (R201, R206). -/
def ScratchDecoded (s : State) : Prop :=
  ∀ p, ∀ i : Nat, ∀ v, (scratchList p s)[i]? = some v →
    match s.fsm with
    | .word1 | .word2 | .word3 | .word4 =>
      v = if s.dest = .scratch ∧ (i : Int) < pointer p s then
            formatSample s.pkt (widthOf s) p s.row (planeColumns p s.col + i)
          else neutral
    | .merge =>
      s.col < widthOf s → v = formatSample s.pkt (widthOf s) p s.row (planeColumns p s.col + i)
    | .hextetSelect => v = neutral
    | .idle | .validating | .allocating | .rowBegin | .rowEnd | .completing | .done | .failed
    | .closed | .reserved => True

/-- What a decode in progress has produced so far is the format's: all earlier rows, the columns of
the current row that are final, and the scratch buffers (R180, R189, R206, R239). -/
def ContentInv (s : State) : Prop :=
  holdsFrame s.fsm → PacketWritten s →
    (∀ f, s.slot = some f → ∀ p r c, f.inRange p r c →
      (r < s.row ∨ r = s.row ∧ c < columnsDone s p) →
      f.sample p r c = formatSample s.pkt f.w p r c) ∧
    ScratchDecoded s

/-- The sample of a place has been written since the frame was acquired, so that its initial draw is
not seen (R168, R239 item 1). -/
def SampleWritten (f : Frame) (p : Plane) (r c : Int) : Prop :=
  (Memory.read (f.storage p) (f.index p r c)).isSome

/-- Every place of a frame that is not being filled is written; of the frame being filled, all earlier
rows and the final columns of the current one (R239 item 1). -/
def FilledInv (s : State) : Prop :=
  ∀ f, s.slot = some f → ∀ p r c, f.inRange p r c →
    (holdsFrame s.fsm → r < s.row ∨ r = s.row ∧ c < columnsDone s p) → SampleWritten f p r c

/-! Two states side by side. -/

/-- The fields no engine step writes: configuration, packet, capacity, dropped handles and the host's
side (R87, R131). -/
structure SameHostSide (s t : State) : Prop where
  width : t.width = s.width
  height : t.height = s.height
  tag : t.tag = s.tag
  pktLen : t.pktLen = s.pktLen
  wrW : t.wrW = s.wrW
  wrH : t.wrH = s.wrH
  wrT : t.wrT = s.wrT
  wrL : t.wrL = s.wrL
  pkt : t.pkt = s.pkt
  pktCap : t.pktCap = s.pktCap
  dropped : t.dropped = s.dropped
  program : t.program = s.program
  responses : t.responses = s.responses
  sched : t.sched = s.sched

/-- The same state with another TAG (R37, R142). -/
def withTag (v : Word) (written : Bool) (s : State) : State := { s with tag := v, wrT := written }

end Sys2Proof.Safety
end

