-- ==== Sys2Proof/Certificates/Slice0/Obligations.lean ====
section
/-! DEFINITION. The statements for the provers. Each docstring cites the rule of spec/ it formalises or
the sections it rests on. -/

open Sys2Proof Sys2Proof.Machine Sys2Proof.Safety

/-! Reset. -/

/-- R52, R281 (the values the spec gives): after power-on the block is in IDLE with BUSY = 0, every
flag, CONSUMED and FRAME_HANDLE are 0, the slot is empty, and no configuration register and no byte
of PKT has been written. -/
def Obligations.ResetGivesTheSpecifiedValues : Prop :=
  State.reset.fsm = .idle ∧ busy State.reset = false ∧ State.reset.gotFrame = false ∧
    State.reset.keyFrame = false ∧ State.reset.cause = .none ∧ statusWord State.reset = 0#32 ∧
    State.reset.consumed = 0#32 ∧ frameHandle State.reset = 0#32 ∧ State.reset.slot = none ∧
    State.reset.wrW = false ∧ State.reset.wrH = false ∧ State.reset.wrT = false ∧
    State.reset.wrL = false ∧ ∀ o, pktAt State.reset o = none

/-- R280 (log 13, 22): RESET completes in every state; the pool is not called, a frame in the slot
is dropped, and what is not the block's stays. The hidden working values and the draw counter are
left open. -/
def Obligations.ResetOperationCompletes : Prop :=
  ∀ s : State, ∃ t, exec .reset s = .next t ∧
    t.fsm = .idle ∧ t.gotFrame = false ∧ t.keyFrame = false ∧ t.cause = .none ∧
    t.consumed = 0#32 ∧ t.wrW = false ∧ t.wrH = false ∧ t.wrT = false ∧ t.wrL = false ∧
    t.slot = none ∧ (∀ o, pktAt t o = none) ∧
    t.history = s.history ∧ t.dropped = s.dropped ++ heldHandles s ∧
    t.pktCap = s.pktCap ∧ t.answers = s.answers ∧ t.program = s.program ∧
    t.responses = s.responses ∧ t.sched = s.sched

/-! Host operations. -/

/-- R132, R134: REG_WRITE, offset by offset; nothing but the register and its mark changes. -/
def Obligations.RegisterWriteByOffset : Prop :=
  ∀ (s : State) (off v : Word),
    (busy s = true → exec (.regWrite off v) s = .fault .busyAccess) ∧
    (busy s = false →
      (off = 0x00#32 ∧ v = 0x00000001#32 → exec (.regWrite off v) s = exec .decode s) ∧
      (off = 0x00#32 ∧ v = 0x00000002#32 → exec (.regWrite off v) s = exec .shutdown s) ∧
      (off = 0x00#32 ∧ v ≠ 0x00000001#32 ∧ v ≠ 0x00000002#32 →
        exec (.regWrite off v) s = .fault .reservedCmd) ∧
      (off = 0x08#32 → exec (.regWrite off v) s = .next { s with width := v, wrW := true }) ∧
      (off = 0x0C#32 → exec (.regWrite off v) s = .next { s with height := v, wrH := true }) ∧
      (off = 0x10#32 → exec (.regWrite off v) s = .next { s with tag := v, wrT := true }) ∧
      (off = 0x14#32 → exec (.regWrite off v) s = .next { s with pktLen := v, wrL := true }) ∧
      (off = 0x04#32 ∨ off = 0x18#32 ∨ off = 0x1C#32 →
        exec (.regWrite off v) s = .fault .readOnly) ∧
      (off % 4#32 ≠ 0#32 ∨ 0x20#32 ≤ off → exec (.regWrite off v) s = .fault .unmapped))

/-- R133, R131: REG_READ, offset by offset; the data goes to the host and nothing else changes. -/
def Obligations.RegisterReadByOffset : Prop :=
  ∀ (s : State) (off : Word),
    let gives (v : Word) : Prop :=
      exec (.regRead off) s = .next { s with responses := s.responses ++ [.word v] }
    let stops (f : Fault) : Prop := exec (.regRead off) s = .fault f
    (off = 0x04#32 → gives (statusWord s)) ∧
    (off = 0x18#32 → gives s.consumed) ∧
    (off = 0x1C#32 → gives (match s.slot with | some f => f.handle | none => 0x00000000#32)) ∧
    (busy s = true → off ≠ 0x04#32 → off ≠ 0x18#32 → off ≠ 0x1C#32 → stops .busyAccess) ∧
    (busy s = false →
      (off = 0x00#32 → gives 0x00000000#32) ∧
      (off = 0x08#32 → if s.wrW then gives s.width else stops .unwrittenConfig) ∧
      (off = 0x0C#32 → if s.wrH then gives s.height else stops .unwrittenConfig) ∧
      (off = 0x10#32 → if s.wrT then gives s.tag else stops .unwrittenConfig) ∧
      (off = 0x14#32 → if s.wrL then gives s.pktLen else stops .unwrittenConfig) ∧
      (off % 4#32 ≠ 0#32 ∨ 0x20#32 ≤ off → stops .unmapped))

/-- R34: the fields of the STATUS word, bit by bit, and what BUSY and SLOT_VALID are derived from.
-/
def Obligations.StatusWordFields : Prop :=
  ∀ s : State,
    (statusWord s).extractLsb' 0 4 = s.fsm.code ∧
    ((statusWord s).getLsbD 4 = true ↔ 1 ≤ s.fsm.code.toNat ∧ s.fsm.code.toNat ≤ 0xB) ∧
    (statusWord s).getLsbD 5 = s.gotFrame ∧
    (statusWord s).getLsbD 6 = s.keyFrame ∧
    (statusWord s).getLsbD 7 = s.slot.isSome ∧
    (statusWord s).extractLsb' 8 4 = s.cause.code ∧
    (statusWord s).extractLsb' 12 20 = 0#20

/-- R137, R144, R140 (log 15 for the reserved state): DECODE written to CMD, case by case in the
order of the rule. -/
def Obligations.DecodeCommandAcceptance : Prop :=
  ∀ s : State,
    (busy s = true → exec .decode s = .fault .busyAccess) ∧
    (s.fsm = .closed → exec .decode s = .fault .closed) ∧
    (s.fsm = .reserved → exec .decode s = .fault .badState) ∧
    (s.fsm = .idle ∨ s.fsm = .done ∨ s.fsm = .failed →
      (s.wrW = false ∨ s.wrH = false ∨ s.wrL = false → exec .decode s = .fault .unwrittenConfig) ∧
      (s.wrW = true ∧ s.wrH = true ∧ s.wrL = true ∧ s.pktCap < s.pktLen.toNat →
        exec .decode s = .fault .pktOverflow) ∧
      (s.wrW = true ∧ s.wrH = true ∧ s.wrL = true ∧ s.pktLen.toNat ≤ s.pktCap →
        exec .decode s = .next { s with
          gotFrame := false, keyFrame := false, cause := .none, consumed := 0#32
          fsm := .validating }))

/-- R146, R137, R144 (log 15 for the reserved state): SHUTDOWN releases the held frame once and
closes the block; in CLOSED it has no effect. -/
def Obligations.ShutdownCommandAcceptance : Prop :=
  ∀ s : State,
    (busy s = true → exec .shutdown s = .fault .busyAccess) ∧
    (s.fsm = .closed → exec .shutdown s = .next s) ∧
    (s.fsm = .reserved → exec .shutdown s = .fault .badState) ∧
    (s.fsm = .idle ∨ s.fsm = .done ∨ s.fsm = .failed →
      exec .shutdown s = .next { s with
        gotFrame := false, keyFrame := false, cause := .none, consumed := 0#32
        slot := none
        history := s.history ++ (match s.slot with | some f => [.release f.handle] | none => [])
        fsm := .closed })

/-- R135, R74: PKT_WRITE stores one byte and changes no other byte of PKT and nothing else. -/
def Obligations.PacketWriteStoresOneByte : Prop :=
  ∀ (s : State) (o : Int) (b : Byte),
    (busy s = true → exec (.pktWrite o b) s = .fault .busyAccess) ∧
    (busy s = false → o < 0 ∨ (s.pktCap : Int) ≤ o → exec (.pktWrite o b) s = .fault .unmapped) ∧
    (busy s = false → 0 ≤ o → o < s.pktCap →
      ∃ t, exec (.pktWrite o b) s = .next t ∧ t = { s with pkt := t.pkt } ∧
        pktAt t o.toNat = some b ∧ ∀ a, a ≠ o.toNat → pktAt t a = pktAt s a)

/-- R136, R76, R292: FRAME_READ returns the sample of the held frame, in the geometry of its
acquire, and changes nothing else; every other FRAME_READ stops. -/
def Obligations.FrameReadReturnsTheSample : Prop :=
  ∀ (s : State) (h : Word) (p : Plane) (r c : Int),
    (busy s = true → exec (.frameRead h p r c) s = .fault .busyAccess) ∧
    (busy s = false →
      (∀ f v, s.slot = some f → f.handle = h → sampleAt s p r c = some v →
        exec (.frameRead h p r c) s =
          .next { s with responses := s.responses ++ [.sample v] }) ∧
      ((∀ f, s.slot = some f → f.handle ≠ h) ∨ sampleAt s p r c = none →
        exec (.frameRead h p r c) s = .fault .frameAccess))

/-- R290, R131: while BUSY = 1 every host operation but a read of STATUS, CONSUMED or FRAME_HANDLE
and RESET is BUSY_ACCESS, and those complete. -/
def Obligations.BusyHazard : Prop :=
  ∀ (s : State) (i : Instr), busy s = true → isEngineStep i = false →
    (allowedBusy i = false → exec i s = .fault .busyAccess) ∧
    (allowedBusy i = true → ∃ t, exec i s = .next t)

/-- R131, R78, R133 (log 4: the list of read data is the model's own field): an engine step does not
see what host reads returned; so a read that is allowed while BUSY = 1 changes nothing of the step made
after it, and its data stays with the host. -/
def Obligations.EngineStepsDoNotSeeHostReads : Prop :=
  ∀ (s : State) (i : Instr), isEngineStep i = true →
    (∀ d, exec i { s with responses := s.responses ++ [d] } =
      andThen (exec i s) fun t => .next { t with responses := t.responses ++ [d] }) ∧
    (∀ off, busy s = true → off = 0x04#32 ∨ off = 0x18#32 ∨ off = 0x1C#32 →
      ∃ u d, exec (.regRead off) s = .next u ∧
        exec i u = andThen (exec i s) fun t => .next { t with responses := t.responses ++ [d] })

/-- R37, R142: TAG has no effect on any operation but the access to TAG itself. -/
def Obligations.TagHasNoEffect : Prop :=
  ∀ (s : State) (i : Instr) (v : Word) (w : Bool),
    i ≠ .regRead 0x10#32 → i ≠ .reset → (∀ x, i ≠ .regWrite 0x10#32 x) →
      exec i (withTag v w s) = andThen (exec i s) fun t => .next (withTag v w t)

/-! Engine steps: validation and the frame's life. -/

/-- R160, R163, R255: VALIDATE, by what it finds. -/
def Obligations.ValidateChecksGeometryThenLength : Prop :=
  ∀ s : State,
    (widthOf s ≤ 1 ∨ heightOf s ≤ 0 →
      exec .validate s = .next { s with cause := .invalidGeometry, fsm := .failed }) ∧
    (1 < widthOf s → 0 < heightOf s →
      (lengthOf s < heightOf s * (widthOf s * 8 / 3) →
        exec .validate s = .next { s with
          stride := widthOf s * 8 / 3, cause := .truncatedPacket, fsm := .failed }) ∧
      (heightOf s * (widthOf s * 8 / 3) ≤ lengthOf s →
        exec .validate s = .next { s with stride := widthOf s * 8 / 3, fsm := .allocating }))

/-- R162: ACQUIRE releases the frame in the slot and then takes the pool's next answer: FAIL ends
the decode with cause 3 and an empty slot; OK puts the new frame into the slot, its samples all the
pool's draw, and starts row 0. The handle is one the contract of R168 allows. -/
def Obligations.AcquireReleasesThenTakesTheAnswer : Prop :=
  ∀ (s : State) (a : PoolAnswer) (rest : List PoolAnswer), s.answers = a :: rest →
    (a = .fail →
      exec .acquire s = .next { s with
        slot := none
        history := s.history ++ (heldHandles s).map .release ++
          [.acquire (widthOf s) (heightOf s) .fail]
        answers := rest, cause := .allocFailed, fsm := .failed }) ∧
    (∀ h, a = .ok h → h ≠ 0#32 → h ∉ s.dropped →
      ∃ f d, exec .acquire s = .next { s with
          slot := some f
          history := s.history ++ (heldHandles s).map .release ++
            [.acquire (widthOf s) (heightOf s) (.ok h)]
          answers := rest, draws := d, row := 0, fsm := .rowBegin } ∧
        f.handle = h ∧ f.w = widthOf s ∧ f.h = heightOf s ∧ f.y = [] ∧ f.u = [] ∧ f.v = [])

/-- R162, R168, D20 (log 7): with no listed answer the pool's answer is a free draw, and ACQUIRE
completes whatever it is: the held frame is released, and the decode ends with cause 3 and an empty
slot, or goes on with a frame of a non-zero handle that no live frame has. A listed OK with a zero
handle or a live one is no answer of the contract, and counts as FAIL. -/
def Obligations.AcquireCompletesOnAnyDraw : Prop :=
  ∀ s : State,
    let events (a : PoolAnswer) :=
      s.history ++ (heldHandles s).map .release ++ [.acquire (widthOf s) (heightOf s) a]
    (s.answers = [] →
      ∃ d, exec .acquire s = .next { s with
          slot := none, history := events .fail, draws := d, cause := .allocFailed
          fsm := .failed } ∨
        ∃ f, f.handle ≠ 0#32 ∧ f.handle ∉ s.dropped ∧ f.w = widthOf s ∧ f.h = heightOf s ∧
          f.y = [] ∧ f.u = [] ∧ f.v = [] ∧
          exec .acquire s = .next { s with
            slot := some f, history := events (.ok f.handle), draws := d, row := 0
            fsm := .rowBegin }) ∧
    (∀ h rest, s.answers = .ok h :: rest → h = 0#32 ∨ h ∈ s.dropped →
      exec .acquire s = .next { s with
        slot := none, history := events .fail, answers := rest, cause := .allocFailed
        fsm := .failed })

/-! Engine steps: rows and hextets. -/

/-- R220: ROW_BEGIN refills the scratch buffers and starts the row at its stride-aligned offset. -/
def Obligations.RowBeginStartsTheRow : Prop :=
  ∀ s : State, exec .rowBegin s = .next { s with
    ys := #v[0x8000#16, 0x8000#16, 0x8000#16, 0x8000#16, 0x8000#16, 0x8000#16]
    us := #v[0x8000#16, 0x8000#16, 0x8000#16]
    vs := #v[0x8000#16, 0x8000#16, 0x8000#16]
    src := s.row * s.stride
    lineEnd := (s.row + 1) * s.stride
    col := 0
    fsm := if 0 < widthOf s then .hextetSelect else .merge }

/-- R200: HEXTET_SELECT, by the columns and the bytes left. -/
def Obligations.HextetSelectChoosesTheDestination : Prop :=
  ∀ s : State,
    (widthOf s - s.col < 6 →
      exec .hextetSelect s =
        .next { s with dest := .scratch, yp := 0, up := 0, vp := 0, fsm := .word1 }) ∧
    (6 ≤ widthOf s - s.col → s.lineEnd - s.src < 16 →
      exec .hextetSelect s = .fault .unreachableRedirect) ∧
    (6 ≤ widthOf s - s.col → 16 ≤ s.lineEnd - s.src →
      exec .hextetSelect s = .next { s with
        dest := .real, yp := s.col, up := s.col / 2, vp := s.col / 2, fsm := .word1 })

/-- R202: with fewer than 4 bytes left before the row's end a word step reads nothing, keeps every
pointer and goes to MERGE. -/
def Obligations.WordGuardStopsTheRow : Prop :=
  ∀ (s : State) (i : Instr),
    i = .unpackW1 ∨ i = .unpackW2 ∨ i = .unpackW3 ∨ i = .unpackW4 →
    s.lineEnd - s.src < 4 → exec i s = .next { s with fsm := .merge }

/-- R185 (with R182, R183, R72, R283): WORD1 stops at the word guard, or reads its word and emits
U, Y, V. The word is that of the packet's written bytes; a byte not written is a free value. -/
def Obligations.Word1EmitsUYV : Prop :=
  ∀ s : State,
    (s.lineEnd - s.src < 4 → exec .unpackW1 s = .next { s with fsm := .merge }) ∧
    (4 ≤ s.lineEnd - s.src → 0 ≤ s.src → s.src + 4 ≤ s.pktCap →
    ∃ b0 b1 b2 b3 d,
      (∀ x, pktAt s s.src.toNat = some x → b0 = x) ∧
      (∀ x, pktAt s (s.src.toNat + 1) = some x → b1 = x) ∧
      (∀ x, pktAt s (s.src.toNat + 2) = some x → b2 = x) ∧
      (∀ x, pktAt s (s.src.toNat + 3) = some x → b3 = x) ∧
      let t := le32 b0 b1 b2 b3
      (∀ f, s.dest = .real → s.slot = some f → f.inRange .u s.row s.up →
        f.inRange .y s.row s.yp → f.inRange .v s.row s.vp →
        exec .unpackW1 s = .next { s with
          slot := some (((f.write .u s.row s.up (fieldA t)).write .y s.row s.yp
            (fieldB t)).write .v s.row s.vp (fieldC t))
          src := s.src + 4, up := s.up + 1, yp := s.yp + 1, vp := s.vp + 1, draws := d
          fsm := .word2 }) ∧
      (s.dest = .scratch → 0 ≤ s.up ∧ s.up < 3 → 0 ≤ s.yp ∧ s.yp < 6 → 0 ≤ s.vp ∧ s.vp < 3 →
        exec .unpackW1 s = .next { s with
          us := s.us.setIfInBounds s.up.toNat (fieldA t)
          ys := s.ys.setIfInBounds s.yp.toNat (fieldB t)
          vs := s.vs.setIfInBounds s.vp.toNat (fieldC t)
          src := s.src + 4, up := s.up + 1, yp := s.yp + 1, vp := s.vp + 1, draws := d
          fsm := .word2 }))

/-- R186 (with R182, R183, R72, R283): WORD2 stops at the word guard, or emits Y, U, Y. -/
def Obligations.Word2EmitsYUY : Prop :=
  ∀ s : State,
    (s.lineEnd - s.src < 4 → exec .unpackW2 s = .next { s with fsm := .merge }) ∧
    (4 ≤ s.lineEnd - s.src → 0 ≤ s.src → s.src + 4 ≤ s.pktCap →
    ∃ b0 b1 b2 b3 d,
      (∀ x, pktAt s s.src.toNat = some x → b0 = x) ∧
      (∀ x, pktAt s (s.src.toNat + 1) = some x → b1 = x) ∧
      (∀ x, pktAt s (s.src.toNat + 2) = some x → b2 = x) ∧
      (∀ x, pktAt s (s.src.toNat + 3) = some x → b3 = x) ∧
      let t := le32 b0 b1 b2 b3
      (∀ f, s.dest = .real → s.slot = some f → f.inRange .y s.row s.yp →
        f.inRange .u s.row s.up → f.inRange .y s.row (s.yp + 1) →
        exec .unpackW2 s = .next { s with
          slot := some (((f.write .y s.row s.yp (fieldA t)).write .u s.row s.up
            (fieldB t)).write .y s.row (s.yp + 1) (fieldC t))
          src := s.src + 4, up := s.up + 1, yp := s.yp + 1 + 1, draws := d
          fsm := .word3 }) ∧
      (s.dest = .scratch → 0 ≤ s.yp ∧ s.yp + 1 < 6 → 0 ≤ s.up ∧ s.up < 3 →
        exec .unpackW2 s = .next { s with
          ys := (s.ys.setIfInBounds s.yp.toNat (fieldA t)).setIfInBounds (s.yp + 1).toNat
            (fieldC t)
          us := s.us.setIfInBounds s.up.toNat (fieldB t)
          src := s.src + 4, up := s.up + 1, yp := s.yp + 1 + 1, draws := d
          fsm := .word3 }))

/-- R187 (with R182, R183, R72, R283): WORD3 stops at the word guard, or emits V, Y, U. -/
def Obligations.Word3EmitsVYU : Prop :=
  ∀ s : State,
    (s.lineEnd - s.src < 4 → exec .unpackW3 s = .next { s with fsm := .merge }) ∧
    (4 ≤ s.lineEnd - s.src → 0 ≤ s.src → s.src + 4 ≤ s.pktCap →
    ∃ b0 b1 b2 b3 d,
      (∀ x, pktAt s s.src.toNat = some x → b0 = x) ∧
      (∀ x, pktAt s (s.src.toNat + 1) = some x → b1 = x) ∧
      (∀ x, pktAt s (s.src.toNat + 2) = some x → b2 = x) ∧
      (∀ x, pktAt s (s.src.toNat + 3) = some x → b3 = x) ∧
      let t := le32 b0 b1 b2 b3
      (∀ f, s.dest = .real → s.slot = some f → f.inRange .v s.row s.vp →
        f.inRange .y s.row s.yp → f.inRange .u s.row s.up →
        exec .unpackW3 s = .next { s with
          slot := some (((f.write .v s.row s.vp (fieldA t)).write .y s.row s.yp
            (fieldB t)).write .u s.row s.up (fieldC t))
          src := s.src + 4, up := s.up + 1, yp := s.yp + 1, vp := s.vp + 1, draws := d
          fsm := .word4 }) ∧
      (s.dest = .scratch → 0 ≤ s.vp ∧ s.vp < 3 → 0 ≤ s.yp ∧ s.yp < 6 → 0 ≤ s.up ∧ s.up < 3 →
        exec .unpackW3 s = .next { s with
          vs := s.vs.setIfInBounds s.vp.toNat (fieldA t)
          ys := s.ys.setIfInBounds s.yp.toNat (fieldB t)
          us := s.us.setIfInBounds s.up.toNat (fieldC t)
          src := s.src + 4, up := s.up + 1, yp := s.yp + 1, vp := s.vp + 1, draws := d
          fsm := .word4 }))

/-- R188 (with R182, R183, R72, R283): WORD4 stops at the word guard, or emits Y, V, Y and ends the
hextet. -/
def Obligations.Word4EmitsYVY : Prop :=
  ∀ s : State,
    (s.lineEnd - s.src < 4 → exec .unpackW4 s = .next { s with fsm := .merge }) ∧
    (4 ≤ s.lineEnd - s.src → 0 ≤ s.src → s.src + 4 ≤ s.pktCap →
    ∃ b0 b1 b2 b3 d,
      (∀ x, pktAt s s.src.toNat = some x → b0 = x) ∧
      (∀ x, pktAt s (s.src.toNat + 1) = some x → b1 = x) ∧
      (∀ x, pktAt s (s.src.toNat + 2) = some x → b2 = x) ∧
      (∀ x, pktAt s (s.src.toNat + 3) = some x → b3 = x) ∧
      let t := le32 b0 b1 b2 b3
      let nextCol := if widthOf s - s.col < 6 then s.col else s.col + 6
      let nextFsm : Fsm :=
        if widthOf s - s.col < 6 then .merge
        else if s.col + 6 < widthOf s then .hextetSelect else .merge
      (∀ f, s.dest = .real → s.slot = some f → f.inRange .y s.row s.yp →
        f.inRange .v s.row s.vp → f.inRange .y s.row (s.yp + 1) →
        exec .unpackW4 s = .next { s with
          slot := some (((f.write .y s.row s.yp (fieldA t)).write .v s.row s.vp
            (fieldB t)).write .y s.row (s.yp + 1) (fieldC t))
          src := s.src + 4, vp := s.vp + 1, yp := s.yp + 1 + 1, draws := d
          col := nextCol, fsm := nextFsm }) ∧
      (s.dest = .scratch → 0 ≤ s.yp ∧ s.yp + 1 < 6 → 0 ≤ s.vp ∧ s.vp < 3 →
        exec .unpackW4 s = .next { s with
          ys := (s.ys.setIfInBounds s.yp.toNat (fieldA t)).setIfInBounds (s.yp + 1).toNat
            (fieldC t)
          vs := s.vs.setIfInBounds s.vp.toNat (fieldB t)
          src := s.src + 4, vp := s.vp + 1, yp := s.yp + 1 + 1, draws := d
          col := nextCol, fsm := nextFsm }))

/-- R75, R83: a PlaneWrite sets its sample and no other sample of the frame, and keeps the frame's
handle and geometry. -/
def Obligations.PlaneWriteSetsOneSample : Prop :=
  ∀ (s : State) (f : Frame) (p : Plane) (r c : Int) (v : Sample),
    s.slot = some f → f.inRange p r c →
      ∃ t g, planeWrite p r c v s = .next t ∧ t = { s with slot := some g } ∧
        g.handle = f.handle ∧ g.w = f.w ∧ g.h = f.h ∧ sampleAt t p r c = some v ∧
        ∀ q r' c', ¬(q = p ∧ r' = r ∧ c' = c) → sampleAt t q r' c' = sampleAt s q r' c'

/-- R205: MERGE_BACK copies the valid prefix of the scratch buffers to the columns of the partial
hextet, and no other sample changes; with nothing to copy it only goes on; outside a partial scratch
hextet it stops. -/
def Obligations.MergeBackCopiesTheValidPrefix : Prop :=
  ∀ s : State,
    (widthOf s ≤ s.col → exec .mergeBack s = .next { s with fsm := .rowEnd }) ∧
    (s.col < widthOf s → s.dest = .real ∨ 6 ≤ widthOf s - s.col →
      exec .mergeBack s = .fault .unreachableMerge) ∧
    (∀ f, s.slot = some f → f.w = widthOf s → 0 ≤ s.row → s.row < f.h → s.col % 2 = 0 →
      0 ≤ s.col → s.col < widthOf s → s.dest = .scratch → widthOf s - s.col < 6 →
      ∃ t g, exec .mergeBack s = .next t ∧ t = { s with slot := some g, fsm := .rowEnd } ∧
        g.handle = f.handle ∧ g.w = f.w ∧ g.h = f.h ∧
        (∀ i : Nat, (i : Int) < widthOf s - s.col →
          sampleAt t .y s.row (s.col + i) = s.ys[i]?) ∧
        (∀ i : Nat, (i : Int) < ceilHalf (widthOf s - s.col) →
          sampleAt t .u s.row (s.col / 2 + i) = s.us[i]? ∧
          sampleAt t .v s.row (s.col / 2 + i) = s.vs[i]?) ∧
        (∀ p r c, r ≠ s.row ∨ c < planeColumns p s.col ∨ planeColumns p (widthOf s) ≤ c →
          sampleAt t p r c = sampleAt s p r c))

/-- R225: ROW_END. -/
def Obligations.RowEndMovesToTheNextRow : Prop :=
  ∀ s : State, exec .rowEnd s = .next { s with
    row := s.row + 1
    fsm := if s.row + 1 < heightOf s then .rowBegin else .completing }

/-- R227: COMPLETE sets both flags, reports the whole packet as consumed, and rests in DONE. -/
def Obligations.CompleteReportsSuccess : Prop :=
  ∀ s : State, exec .complete s = .next { s with
    keyFrame := true, gotFrame := true, consumed := s.pktLen, fsm := .done }

/-- R106: the reserved state code has no step: finding it is BAD_STATE, in every state; and no
operation enters it. -/
def Obligations.ReservedStateStops : Prop :=
  (∀ s : State, exec .reservedFsm s = .fault .badState) ∧
    ∀ (s t : State) (i : Instr), s.fsm ≠ .reserved → exec i s = .next t → t.fsm ≠ .reserved

/-! The format. -/

/-- R183: each field is its ten bits of the word, zero-extended and shifted left by 6. -/
def Obligations.FieldsAreTheThreeBitGroups : Prop :=
  ∀ t : Word,
    fieldA t = (t.extractLsb' 0 10).setWidth 16 <<< 6 ∧
    fieldB t = (t.extractLsb' 10 10).setWidth 16 <<< 6 ∧
    fieldC t = (t.extractLsb' 20 10).setWidth 16 <<< 6

/-- R184: the six properties of the field extraction. -/
def Obligations.FieldExtractionProperties : Prop :=
  (∀ t : Word, LowBitsClear (fieldA t) ∧ LowBitsClear (fieldB t) ∧ LowBitsClear (fieldC t)) ∧
  (∀ t : Word, fieldA t = fieldA (t &&& 0x3FFFFFFF#32) ∧ fieldB t = fieldB (t &&& 0x3FFFFFFF#32) ∧
    fieldC t = fieldC (t &&& 0x3FFFFFFF#32)) ∧
  (∀ t : Word, (fieldC t >>> 6).setWidth 32 <<< 20 ||| (fieldB t >>> 6).setWidth 32 <<< 10 |||
    (fieldA t >>> 6).setWidth 32 = t &&& 0x3FFFFFFF#32) ∧
  (∀ a b c : BitVec 10, fieldA (pack a b c) = a.setWidth 16 <<< 6 ∧
    fieldB (pack a b c) = b.setWidth 16 <<< 6 ∧ fieldC (pack a b c) = c.setWidth 16 <<< 6) ∧
  (∀ t ∈ [0x00000000#32, 0xC0000000#32],
    fieldA t = 0x0000#16 ∧ fieldB t = 0x0000#16 ∧ fieldC t = 0x0000#16) ∧
  (∀ t ∈ [0x3FFFFFFF#32, 0xFFFFFFFF#32],
    fieldA t = 0xFFC0#16 ∧ fieldB t = 0xFFC0#16 ∧ fieldC t = 0xFFC0#16) ∧
  (fieldA 0x20080200#32 = 0x8000#16 ∧ fieldB 0x20080200#32 = 0x8000#16 ∧
    fieldC 0x20080200#32 = 0x8000#16)

/-- R112, R72: the word written by `pktw` is the word the engine reads, at any offset. -/
def Obligations.PacketWordRoundTrip : Prop :=
  ∀ (s : State) (o : Nat) (w : Word), busy s = false → o + 4 ≤ s.pktCap →
    ∃ ops : List BusOp, expand (.pktw o [w]) = ops.map .op ∧
      ∃ t, ops.foldl (fun acc b => andThen acc fun u =>
          match decode (.bus b) with
          | .ok i => exec i u
          | .error _ => .fault .unmapped) (.next s) = .next t ∧
        t = { s with pkt := t.pkt } ∧ readLe32 t o = (w, t) ∧
        ∀ a, a < o ∨ o + 4 ≤ a → pktAt t a = pktAt s a

/-- R189: the four word steps of a full hextet write the twelve samples of the hextet and no others,
and advance src by 16 and the pointers by 6, 3 and 3. -/
def Obligations.FullHextetNetEffect : Prop :=
  ∀ (s : State) (f : Frame), s.dest = .real → s.slot = some f → s.col % 6 = 0 → 0 ≤ s.col →
    s.yp = s.col → s.up = s.col / 2 → s.vp = s.col / 2 → f.w = widthOf s →
    6 ≤ widthOf s - s.col → 0 ≤ s.row → s.row < f.h → 16 ≤ s.lineEnd - s.src → 0 ≤ s.src →
    s.src + 16 ≤ s.pktCap → (∀ k : Nat, k < 16 → (pktAt s (s.src.toNat + k)).isSome) →
    ∃ t, (andThen (exec .unpackW1 s) fun s2 => andThen (exec .unpackW2 s2) fun s3 =>
        andThen (exec .unpackW3 s3) fun s4 => exec .unpackW4 s4) = .next t ∧
      (let w (k : Int) := packetWord s.pkt (s.src + 4 * k)
       let x := s.col
       let y (c : Int) := sampleAt t .y s.row c
       let u (c : Int) := sampleAt t .u s.row c
       let v (c : Int) := sampleAt t .v s.row c
       y x = some (fieldB (w 0)) ∧ y (x + 1) = some (fieldA (w 1)) ∧
       y (x + 2) = some (fieldC (w 1)) ∧ y (x + 3) = some (fieldB (w 2)) ∧
       y (x + 4) = some (fieldA (w 3)) ∧ y (x + 5) = some (fieldC (w 3)) ∧
       u (x / 2) = some (fieldA (w 0)) ∧ u (x / 2 + 1) = some (fieldB (w 1)) ∧
       u (x / 2 + 2) = some (fieldC (w 2)) ∧
       v (x / 2) = some (fieldC (w 0)) ∧ v (x / 2 + 1) = some (fieldA (w 2)) ∧
       v (x / 2 + 2) = some (fieldB (w 3))) ∧
      (∀ p r c, r ≠ s.row ∨ c < planeColumns p s.col ∨ planeColumns p (s.col + 6) ≤ c →
        sampleAt t p r c = sampleAt s p r c) ∧
      t.src = s.src + 16 ∧ t.yp = s.yp + 6 ∧ t.up = s.up + 3 ∧ t.vp = s.vp + 3

/-- R206, R203: which samples of the partial hextet of a row are fields of a word and which are
neutral, by the width mod 6: the words read are those that lie whole in the row. -/
def Obligations.PartialHextetOutcome : Prop :=
  ∀ (pkt : List Host.Cell) (w r : Int), 2 ≤ w → 0 ≤ r →
    let x := w - w % 6
    let k (n : Int) := packetWord pkt (r * rowStride w + 16 * (x / 6) + 4 * n)
    let y (i : Int) := formatSample pkt w .y r (x + i)
    let u (i : Int) := formatSample pkt w .u r (x / 2 + i)
    let v (i : Int) := formatSample pkt w .v r (x / 2 + i)
    let n := 0x8000#16
    (w % 6 = 1 → y 0 = n ∧ u 0 = n ∧ v 0 = n) ∧
    (w % 6 = 2 → y 0 = fieldB (k 0) ∧ y 1 = n ∧ u 0 = fieldA (k 0) ∧ v 0 = fieldC (k 0)) ∧
    (w % 6 = 3 → y 0 = fieldB (k 0) ∧ y 1 = fieldA (k 1) ∧ y 2 = fieldC (k 1) ∧
      u 0 = fieldA (k 0) ∧ u 1 = fieldB (k 1) ∧ v 0 = fieldC (k 0) ∧ v 1 = n) ∧
    (w % 6 = 4 → y 0 = fieldB (k 0) ∧ y 1 = fieldA (k 1) ∧ y 2 = fieldC (k 1) ∧ y 3 = n ∧
      u 0 = fieldA (k 0) ∧ u 1 = fieldB (k 1) ∧ v 0 = fieldC (k 0) ∧ v 1 = n) ∧
    (w % 6 = 5 → y 0 = fieldB (k 0) ∧ y 1 = fieldA (k 1) ∧ y 2 = fieldC (k 1) ∧
      y 3 = fieldB (k 2) ∧ y 4 = n ∧ u 0 = fieldA (k 0) ∧ u 1 = fieldB (k 1) ∧
      u 2 = fieldC (k 2) ∧ v 0 = fieldC (k 0) ∧ v 1 = fieldA (k 2) ∧ v 2 = n)

/-- R238, R239: the samples of row r are a function of the bytes of the row's slice that lie in
whole words; the bytes after them, and every other row, have no effect. -/
def Obligations.RowsDependOnTheirSliceAlone : Prop :=
  ∀ (pkt pkt' : List Host.Cell) (w r : Int), 2 ≤ w → 0 ≤ r →
    (∀ o : Nat, r * rowStride w ≤ o →
      (o : Int) < r * rowStride w + 16 * (w / 6) + 4 * (8 * (w % 6) / 3 / 4) →
      Memory.read (n := 8) pkt o = Memory.read (n := 8) pkt' o) →
    ∀ p c, 0 ≤ c → c < planeColumns p w → formatSample pkt w p r c = formatSample pkt' w p r c

/-! Invariants. -/

/-- R52: the reset state meets every invariant stated below. -/
def Obligations.ResetMeetsTheInvariants : Prop :=
  StorageInv State.reset ∧ LowBitsInv State.reset ∧ OwnershipInv State.reset ∧
    StatusInv State.reset ∧ EngineInv State.reset ∧ FilledInv State.reset ∧ ContentInv State.reset

/-- R70, R75, R80: every step keeps PKT and the planes inside their address spaces; and in canonical
form. That form (strictly rising lists, a plane keyed by row * columns + column) is the model's, not
the spec's: log 8 (DESIGN CHOICE) and log 28 (DEDUCED). -/
def Obligations.StepKeepsStorageCanonical : Prop :=
  ∀ s t : State, StorageInv s → step s = .next t → StorageInv t

/-- R31, R236: every step keeps bits 5:0 of every written sample, and of every scratch entry while a
row is in progress, at 0. -/
def Obligations.StepKeepsLowBitsClear : Prop :=
  ∀ s t : State, LowBitsInv s → step s = .next t → LowBitsInv t

/-- R168, R169: every step keeps the pool-visible history in order: no acquire gives a handle that is
not yet released, every release is of a handle acquired and not yet released (so each acquire is
released at most once), and what is unreleased is in the slot or was dropped by a RESET. -/
def Obligations.StepKeepsFrameOwnership : Prop :=
  ∀ s t : State, OwnershipInv s → step s = .next t → OwnershipInv t

/-- R51, R148: every step keeps the status fields in agreement with the engine state. -/
def Obligations.StepKeepsStatusConsistent : Prop :=
  ∀ s t : State, StatusInv s → step s = .next t → StatusInv t

/-- R235 (log 32 for item 2 at ROW_BEGIN): every step keeps the engine invariant. -/
def Obligations.StepKeepsEngineInvariant : Prop :=
  ∀ s t : State, EngineInv s → step s = .next t → EngineInv t

/-- R235 item 6, R203, R75, R71 (log 14): under the engine invariant no step raises an engine fault, so no
write leaves its plane or buffer and no read leaves the packet. -/
def Obligations.NoEngineFaultUnderInvariant : Prop :=
  ∀ (s : State) (f : Fault), EngineInv s → step s = .fault f → isEngineFault f = false

/-- R239 item 1: every step keeps every sample of a finished frame, and every final sample of the
frame being filled, written. -/
def Obligations.StepKeepsFramesFilled : Prop :=
  ∀ s t : State, EngineInv s → FilledInv s → step s = .next t → FilledInv t

/-- R189, R206, R239: every step keeps what the decode in progress has produced equal to the
format's samples. -/
def Obligations.StepKeepsDecodedContent : Prop :=
  ∀ s t : State, EngineInv s → ContentInv s → step s = .next t → ContentInv t

/-- R237: from a state that holds its frame, every engine step completes and brings DONE nearer by
exactly one of the steps the rule counts. -/
def Obligations.EngineStepsCountDown : Prop :=
  ∀ (s : State) (i : Instr), EngineInv s → holdsFrame s.fsm = true →
    decode (.fsm s.fsm.code) = .ok i →
      0 < remainingSteps s ∧
        ∃ t, exec i s = .next t ∧ remainingSteps t = remainingSteps s - 1 ∧
          (remainingSteps t = 0 ↔ t.fsm = .done)

/-- R230: every engine step that completes takes a transition of the table. -/
def Obligations.EngineStepsFollowTheTable : Prop :=
  ∀ (s t : State) (i : Instr), decode (.fsm s.fsm.code) = .ok i → exec i s = .next t →
    isTransition s.fsm t.fsm = true

/-- R87, R85, R43: no engine step writes the configuration, the packet, the capacity, the dropped
handles or the host's side. -/
def Obligations.EngineStepsLeaveTheHostSide : Prop :=
  ∀ (s t : State) (i : Instr), isEngineStep i = true → exec i s = .next t → SameHostSide s t

/-- R75, R163, R169, R291: the held frame and the pool-visible history change by no host operation
but SHUTDOWN and RESET. -/
def Obligations.HostOperationsLeaveTheFrame : Prop :=
  ∀ (s t : State) (i : Instr), isEngineStep i = false → i ≠ .shutdown →
    i ≠ .regWrite 0x00#32 0x00000002#32 → i ≠ .reset → exec i s = .next t →
      t.slot = s.slot ∧ t.history = s.history ∧ t.dropped = s.dropped

/-- R231, R237, R148, R239 (log 2, 7): a DECODE of a valid geometry and a written packet, the pool answering
OK, reaches DONE after exactly the steps the rule counts, with both flags set, the packet reported
as consumed, the new frame in the slot holding the format's sample at every place, the old frame
released before the acquire, and the packet, the configuration and the host's side unchanged. -/
def Obligations.DecodeRunsToDone : Prop :=
  ∀ (s : State) (h : Word) (rest : List PoolAnswer),
    EngineInv s → StatusInv s → s.fsm = .validating → s.sched = [] → 2 ≤ widthOf s →
    1 ≤ heightOf s → heightOf s * rowStride (widthOf s) ≤ lengthOf s → PacketWritten s →
    s.answers = .ok h :: rest → h ≠ 0#32 → h ∉ s.dropped →
      ∃ t f, Host.Core.run core (decodeSteps (widthOf s) (heightOf s)).toNat s = .next t ∧
        t.fsm = .done ∧ t.gotFrame = true ∧ t.keyFrame = true ∧ t.cause = .none ∧
        t.consumed = s.pktLen ∧ t.slot = some f ∧ f.handle = h ∧ f.w = widthOf s ∧
        f.h = heightOf s ∧ FrameDecoded t ∧
        t.history = s.history ++ (heldHandles s).map .release ++
          [.acquire (widthOf s) (heightOf s) (.ok h)] ∧
        SameHostSide s t

/-! Decoding and the step. -/

/-- R131, R105, R112 (log 1, 2, 3, 20, 25): a step runs the operation of the agent that moves: the
engine the step its state code selects, the host its next operation, or one poll of `wait`; a bus
operation that names no operation stops; at rest nothing changes. -/
def Obligations.StepRunsTheFetchedOperation : Prop :=
  ∀ s : State,
    (∀ i, decode (.fsm s.fsm.code) = .ok i → s.sched.head? ≠ some .host ∨ s.program = [] →
      step s = exec i { s with sched := s.sched.tail }) ∧
    (∀ o rest i, s.program = .op o :: rest → decode (.bus o) = .ok i →
      (s.sched.head? = some .host ∨ ∃ e, decode (.fsm s.fsm.code) = .error e) →
      step s = exec i { s with sched := s.sched.tail, program := rest }) ∧
    (∀ o rest d, s.program = .op o :: rest → decode (.bus o) = .error d →
      (s.sched.head? = some .host ∨ ∃ e, decode (.fsm s.fsm.code) = .error e) →
      step s = .fault (if busy s then .busyAccess else .frameAccess)) ∧
    (∀ rest, s.program = .wait :: rest →
      (s.sched.head? = some .host ∨ ∃ e, decode (.fsm s.fsm.code) = .error e) →
      step s = .next { s with
        sched := s.sched.tail
        program := if busy s then s.program else rest
        responses := s.responses ++ [.word (statusWord s)] }) ∧
    (∀ e, s.program = [] → decode (.fsm s.fsm.code) = .error e → step s = .next s)

/-- R100, R101, R105, R110: the encoding of every well-formed operation decodes to it, and every
encoded thing that decodes is the encoding of what it decodes to. -/
def Obligations.DecodeEncodeAgree : Prop :=
  (∀ i : Instr, i.wf = true → decode (encode i) = .ok i) ∧
    ∀ (c : Code) (i : Instr), decode c = .ok i → encode i = c

/-- R101, R105, R106, R110: some encodings, written out from the tables of the spec. -/
def Obligations.TableWordsDecode : Prop :=
  decodeTableWord 32 0x00000001 = some .decode ∧ decodeTableWord 32 0x00000002 = some .shutdown ∧
    decodeTableWord 32 0x00000000 = none ∧ decodeTableWord 32 0x00000003 = none ∧
    decodeTableWord 8 0x1 = some .validate ∧ decodeTableWord 8 0x5 = some .unpackW1 ∧
    decodeTableWord 8 0xF = some .reservedFsm ∧ decodeTableWord 8 0xC = none

/-- R77 (log 21): byte by byte a plane row is its samples in one of the two orders, and a sample
write leaves the padding bytes of every row alone. -/
def Obligations.PlaneRowBytes : Prop :=
  (∀ (f : Frame) (p : Plane) (r c : Nat), (c : Int) < f.columns p →
    let lo := (f.sample p r c).extractLsb' 0 8
    let hi := (f.sample p r c).extractLsb' 8 8
    (f.rowByte p r (2 * c), f.rowByte p r (2 * c + 1)) =
      if Config.planeLittleEndian then (lo, hi) else (hi, lo)) ∧
  (∀ (f : Frame) (p q : Plane) (row k : Nat) (r c : Int) (v : Sample),
    2 * (f.columns q).toNat ≤ k → (f.write p r c v).rowByte q row k = f.rowByte q row k)
end

