-- ==== Sys2Proof/Laws/Memory.lean ====
section
/-! SUPPORT. Sparse storage: a read after a write, the canonical form, and which addresses are
listed. -/

namespace Sys2Proof.Machine

variable {n : Nat}

@[simp] theorem memory_read_nil (a : Nat) : Memory.read ([] : Memory n) a = none := rfl

theorem memory_read_write_same (m : Memory n) (a : Nat) (v : BitVec n) :
    Memory.read (Memory.write m a v) a = some v := by
  induction m with
  | nil => simp [Memory.write, Memory.read]
  | cons e rest ih =>
    obtain ⟨b, w⟩ := e
    by_cases h : a < b
    · simp [Memory.write, Memory.read, h]
    · by_cases h' : a = b
      · subst h'; simp [Memory.write, Memory.read]
      · simp [Memory.write, Memory.read, h, h', ih]

theorem memory_read_write_other (m : Memory n) {a b : Nat} (h : b ≠ a) (v : BitVec n) :
    Memory.read (Memory.write m a v) b = Memory.read m b := by
  induction m with
  | nil => simp [Memory.write, Memory.read, h]
  | cons e rest ih =>
    obtain ⟨c, w⟩ := e
    by_cases h1 : a < c
    · simp [Memory.write, Memory.read, h1, h]
    · by_cases h2 : a = c
      · subst h2; simp [Memory.write, Memory.read, h]
      · simp [Memory.write, Memory.read, h1, h2, ih]

/-- A read after a write, at any address. -/
theorem memory_read_write (m : Memory n) (a b : Nat) (v : BitVec n) :
    Memory.read (Memory.write m a v) b = if b = a then some v else Memory.read m b := by
  by_cases h : b = a
  · subst h; simp [memory_read_write_same]
  · simp [h, memory_read_write_other]

/-- What a written storage lists: the new entry, or an entry it listed before. -/
theorem memory_mem_write {m : Memory n} {a : Nat} {v : BitVec n} {e : Nat × BitVec n}
    (h : e ∈ Memory.write m a v) : e = (a, v) ∨ e ∈ m := by
  induction m with
  | nil => simpa [Memory.write] using h
  | cons x rest ih =>
    obtain ⟨b, w⟩ := x
    by_cases h1 : a < b
    · simpa [Memory.write, h1] using h
    · by_cases h2 : a = b
      · subst h2
        simp only [Memory.write, lt_irrefl, if_false, if_true, List.mem_cons] at h
        rcases h with h | h
        · exact .inl h
        · exact .inr (List.mem_cons_of_mem _ h)
      · simp only [Memory.write, h1, h2, if_false, List.mem_cons] at h
        rcases h with h | h
        · exact .inr (by simp [h])
        · rcases ih h with h | h
          · exact .inl h
          · exact .inr (List.mem_cons_of_mem _ h)

/-- A read finds an entry of the storage. -/
theorem memory_read_mem {m : Memory n} {a : Nat} {v : BitVec n} (h : Memory.read m a = some v) :
    (a, v) ∈ m := by
  induction m with
  | nil => simp at h
  | cons x rest ih =>
    obtain ⟨b, w⟩ := x
    by_cases h1 : a = b
    · subst h1
      simp only [Memory.read, if_true, Option.some.injEq] at h
      simp [h]
    · simp only [Memory.read, h1, if_false] at h
      exact List.mem_cons_of_mem _ (ih h)

theorem memory_wf_nil : Memory.wf ([] : Memory n) := List.Pairwise.nil

/-- Every write keeps the canonical form. -/
theorem memory_wf_write {m : Memory n} (h : Memory.wf m) (a : Nat) (v : BitVec n) :
    Memory.wf (Memory.write m a v) := by
  induction m with
  | nil => simp [Memory.write, Memory.wf]
  | cons x rest ih =>
    obtain ⟨b, w⟩ := x
    simp only [Memory.wf, List.map_cons, List.pairwise_cons] at h
    obtain ⟨hb, hr⟩ := h
    by_cases h1 : a < b
    · simp only [Memory.write, h1, if_true, Memory.wf, List.map_cons, List.pairwise_cons,
        List.mem_cons]
      refine ⟨?_, hb, hr⟩
      rintro c (rfl | hc)
      · exact h1
      · exact h1.trans (hb c hc)
    · by_cases h2 : a = b
      · subst h2
        simpa only [Memory.write, h1, if_false, if_true, Memory.wf, List.map_cons,
          List.pairwise_cons] using ⟨hb, hr⟩
      · simp only [Memory.write, h1, h2, if_false, Memory.wf, List.map_cons, List.pairwise_cons]
        refine ⟨?_, ih hr⟩
        intro c hc
        obtain ⟨e, he, rfl⟩ := List.mem_map.mp hc
        rcases memory_mem_write he with rfl | he
        · exact lt_of_le_of_ne (not_lt.mp h1) (Ne.symm h2)
        · exact hb _ (List.mem_map_of_mem he)

end Sys2Proof.Machine
end

