-- ==== Sys2Proof/Laws/Frame.lean ====
section
/-! SUPPORT. Frames: the place of a sample in its plane, a sample read after a sample write, and what
a sample write leaves alone. -/

namespace Sys2Proof.Machine

theorem inRange_iff {f : Frame} {p : Plane} {r c : Int} :
    f.inRange p r c = true ↔ 0 ≤ r ∧ r < f.h ∧ 0 ≤ c ∧ c < f.columns p := by
  simp [Frame.inRange]

@[simp] theorem withStorage_handle (f : Frame) (p : Plane) (m : Memory 16) :
    (f.withStorage p m).handle = f.handle := by cases p <;> rfl
@[simp] theorem withStorage_w (f : Frame) (p : Plane) (m : Memory 16) :
    (f.withStorage p m).w = f.w := by cases p <;> rfl
@[simp] theorem withStorage_h (f : Frame) (p : Plane) (m : Memory 16) :
    (f.withStorage p m).h = f.h := by cases p <;> rfl
@[simp] theorem withStorage_fill (f : Frame) (p : Plane) (m : Memory 16) :
    (f.withStorage p m).fill = f.fill := by cases p <;> rfl

theorem withStorage_storage (f : Frame) (p q : Plane) (m : Memory 16) :
    (f.withStorage p m).storage q = if q = p then m else f.storage q := by
  cases p <;> cases q <;> rfl

@[simp] theorem write_handle (f : Frame) (p : Plane) (r c : Int) (v : Sample) :
    (f.write p r c v).handle = f.handle := by simp [Frame.write]
@[simp] theorem write_w (f : Frame) (p : Plane) (r c : Int) (v : Sample) :
    (f.write p r c v).w = f.w := by simp [Frame.write]
@[simp] theorem write_h (f : Frame) (p : Plane) (r c : Int) (v : Sample) :
    (f.write p r c v).h = f.h := by simp [Frame.write]
@[simp] theorem write_fill (f : Frame) (p : Plane) (r c : Int) (v : Sample) :
    (f.write p r c v).fill = f.fill := by simp [Frame.write]
@[simp] theorem write_columns (f : Frame) (p q : Plane) (r c : Int) (v : Sample) :
    (f.write p r c v).columns q = f.columns q := by simp [Frame.columns]
@[simp] theorem write_inRange (f : Frame) (p q : Plane) (r c r' c' : Int) (v : Sample) :
    (f.write p r c v).inRange q r' c' = f.inRange q r' c' := by simp [Frame.inRange]
@[simp] theorem write_index (f : Frame) (p q : Plane) (r c r' c' : Int) (v : Sample) :
    (f.write p r c v).index q r' c' = f.index q r' c' := by simp [Frame.index]

theorem write_storage (f : Frame) (p q : Plane) (r c : Int) (v : Sample) :
    (f.write p r c v).storage q =
      if q = p then Memory.write (f.storage p) (f.index p r c) v else f.storage q := by
  simp [Frame.write, withStorage_storage]

/-- Two places of a plane share their index only if they are the same place. -/
theorem index_inj {f : Frame} {p : Plane} {r c r' c' : Int} (h : f.inRange p r c)
    (h' : f.inRange p r' c') (e : f.index p r c = f.index p r' c') : r = r' ∧ c = c' := by
  rw [inRange_iff] at h h'
  obtain ⟨h1, _, h3, h4⟩ := h
  obtain ⟨h1', _, h3', h4'⟩ := h'
  have hpos : 0 < f.columns p := lt_of_le_of_lt h3 h4
  have hn : 0 ≤ r * f.columns p + c := add_nonneg (mul_nonneg h1 hpos.le) h3
  have hn' : 0 ≤ r' * f.columns p + c' := add_nonneg (mul_nonneg h1' hpos.le) h3'
  have e' : r * f.columns p + c = r' * f.columns p + c' := by
    simp only [Frame.index] at e
    omega
  have hr : r = r' := by
    have a := congrArg (· / f.columns p) e'
    simp only [Int.add_comm (_ * _), Int.add_mul_ediv_right _ _ hpos.ne',
      Int.ediv_eq_zero_of_lt h3 h4, Int.ediv_eq_zero_of_lt h3' h4', zero_add] at a
    exact a
  subst hr
  exact ⟨rfl, by omega⟩

/-- The index of a place lies inside the plane's storage. -/
theorem index_lt {f : Frame} {p : Plane} {r c : Int} (h : f.inRange p r c) :
    f.index p r c < f.h.toNat * (f.columns p).toNat := by
  rw [inRange_iff] at h
  obtain ⟨h1, h2, h3, h4⟩ := h
  have hk : r * f.columns p + c < f.h * f.columns p := by nlinarith
  have e1 : ((f.h.toNat : Nat) : Int) = f.h := by omega
  have e2 : (((f.columns p).toNat : Nat) : Int) = f.columns p := by omega
  have hn : 0 ≤ r * f.columns p + c := by
    have : 0 ≤ r * f.columns p := mul_nonneg h1 (by omega)
    omega
  zify
  rw [e1, e2, Frame.index, Int.toNat_of_nonneg hn]
  exact hk

/-- The sample at a place after a write: the written one there, the old one elsewhere. -/
theorem sample_write {f : Frame} {p q : Plane} {r c r' c' : Int} (v : Sample)
    (h : f.inRange p r c) (h' : f.inRange q r' c') :
    (f.write p r c v).sample q r' c' =
      if q = p ∧ r' = r ∧ c' = c then v else f.sample q r' c' := by
  unfold Frame.sample
  rw [write_storage, write_index, write_fill]
  by_cases hq : q = p
  · subst hq
    rw [if_pos rfl, memory_read_write]
    by_cases e : f.index q r' c' = f.index q r c
    · have := index_inj h' h e
      simp [this]
    · have : ¬(r' = r ∧ c' = c) := by
        rintro ⟨rfl, rfl⟩
        exact e rfl
      simp [e, this]
  · simp [hq]

end Sys2Proof.Machine
end

