-- ==== Sys2Proof/Laws/State.lean ====
section
/-! SUPPORT. What each named update of the state does to each field, and that the reset state is in
canonical form. -/

namespace Sys2Proof.Machine

/-! `respond`. -/

@[simp] theorem respond_fsm (d : Response) (s : State) : (respond d s).fsm = s.fsm := rfl
@[simp] theorem respond_gotFrame (d : Response) (s : State) : (respond d s).gotFrame = s.gotFrame := rfl
@[simp] theorem respond_keyFrame (d : Response) (s : State) : (respond d s).keyFrame = s.keyFrame := rfl
@[simp] theorem respond_cause (d : Response) (s : State) : (respond d s).cause = s.cause := rfl
@[simp] theorem respond_width (d : Response) (s : State) : (respond d s).width = s.width := rfl
@[simp] theorem respond_height (d : Response) (s : State) : (respond d s).height = s.height := rfl
@[simp] theorem respond_tag (d : Response) (s : State) : (respond d s).tag = s.tag := rfl
@[simp] theorem respond_pktLen (d : Response) (s : State) : (respond d s).pktLen = s.pktLen := rfl
@[simp] theorem respond_wrW (d : Response) (s : State) : (respond d s).wrW = s.wrW := rfl
@[simp] theorem respond_wrH (d : Response) (s : State) : (respond d s).wrH = s.wrH := rfl
@[simp] theorem respond_wrT (d : Response) (s : State) : (respond d s).wrT = s.wrT := rfl
@[simp] theorem respond_wrL (d : Response) (s : State) : (respond d s).wrL = s.wrL := rfl
@[simp] theorem respond_consumed (d : Response) (s : State) : (respond d s).consumed = s.consumed := rfl
@[simp] theorem respond_slot (d : Response) (s : State) : (respond d s).slot = s.slot := rfl
@[simp] theorem respond_stride (d : Response) (s : State) : (respond d s).stride = s.stride := rfl
@[simp] theorem respond_src (d : Response) (s : State) : (respond d s).src = s.src := rfl
@[simp] theorem respond_lineEnd (d : Response) (s : State) : (respond d s).lineEnd = s.lineEnd := rfl
@[simp] theorem respond_row (d : Response) (s : State) : (respond d s).row = s.row := rfl
@[simp] theorem respond_col (d : Response) (s : State) : (respond d s).col = s.col := rfl
@[simp] theorem respond_dest (d : Response) (s : State) : (respond d s).dest = s.dest := rfl
@[simp] theorem respond_yp (d : Response) (s : State) : (respond d s).yp = s.yp := rfl
@[simp] theorem respond_up (d : Response) (s : State) : (respond d s).up = s.up := rfl
@[simp] theorem respond_vp (d : Response) (s : State) : (respond d s).vp = s.vp := rfl
@[simp] theorem respond_ys (d : Response) (s : State) : (respond d s).ys = s.ys := rfl
@[simp] theorem respond_us (d : Response) (s : State) : (respond d s).us = s.us := rfl
@[simp] theorem respond_vs (d : Response) (s : State) : (respond d s).vs = s.vs := rfl
@[simp] theorem respond_pkt (d : Response) (s : State) : (respond d s).pkt = s.pkt := rfl
@[simp] theorem respond_pktCap (d : Response) (s : State) : (respond d s).pktCap = s.pktCap := rfl
@[simp] theorem respond_history (d : Response) (s : State) : (respond d s).history = s.history := rfl
@[simp] theorem respond_dropped (d : Response) (s : State) : (respond d s).dropped = s.dropped := rfl
@[simp] theorem respond_answers (d : Response) (s : State) : (respond d s).answers = s.answers := rfl
@[simp] theorem respond_draws (d : Response) (s : State) : (respond d s).draws = s.draws := rfl
@[simp] theorem respond_program (d : Response) (s : State) : (respond d s).program = s.program := rfl
@[simp] theorem respond_responses (d : Response) (s : State) : (respond d s).responses = s.responses ++ [d] := rfl
@[simp] theorem respond_sched (d : Response) (s : State) : (respond d s).sched = s.sched := rfl

/-! `scrambleHidden`: only the hidden working values and the draw counter change. -/

@[simp] theorem scrambleHidden_fsm (s : State) : (scrambleHidden s).fsm = s.fsm := rfl
@[simp] theorem scrambleHidden_gotFrame (s : State) : (scrambleHidden s).gotFrame = s.gotFrame := rfl
@[simp] theorem scrambleHidden_keyFrame (s : State) : (scrambleHidden s).keyFrame = s.keyFrame := rfl
@[simp] theorem scrambleHidden_cause (s : State) : (scrambleHidden s).cause = s.cause := rfl
@[simp] theorem scrambleHidden_width (s : State) : (scrambleHidden s).width = s.width := rfl
@[simp] theorem scrambleHidden_height (s : State) : (scrambleHidden s).height = s.height := rfl
@[simp] theorem scrambleHidden_tag (s : State) : (scrambleHidden s).tag = s.tag := rfl
@[simp] theorem scrambleHidden_pktLen (s : State) : (scrambleHidden s).pktLen = s.pktLen := rfl
@[simp] theorem scrambleHidden_wrW (s : State) : (scrambleHidden s).wrW = s.wrW := rfl
@[simp] theorem scrambleHidden_wrH (s : State) : (scrambleHidden s).wrH = s.wrH := rfl
@[simp] theorem scrambleHidden_wrT (s : State) : (scrambleHidden s).wrT = s.wrT := rfl
@[simp] theorem scrambleHidden_wrL (s : State) : (scrambleHidden s).wrL = s.wrL := rfl
@[simp] theorem scrambleHidden_consumed (s : State) : (scrambleHidden s).consumed = s.consumed := rfl
@[simp] theorem scrambleHidden_slot (s : State) : (scrambleHidden s).slot = s.slot := rfl
@[simp] theorem scrambleHidden_pkt (s : State) : (scrambleHidden s).pkt = s.pkt := rfl
@[simp] theorem scrambleHidden_pktCap (s : State) : (scrambleHidden s).pktCap = s.pktCap := rfl
@[simp] theorem scrambleHidden_history (s : State) : (scrambleHidden s).history = s.history := rfl
@[simp] theorem scrambleHidden_dropped (s : State) : (scrambleHidden s).dropped = s.dropped := rfl
@[simp] theorem scrambleHidden_answers (s : State) : (scrambleHidden s).answers = s.answers := rfl
@[simp] theorem scrambleHidden_program (s : State) : (scrambleHidden s).program = s.program := rfl
@[simp] theorem scrambleHidden_responses (s : State) : (scrambleHidden s).responses = s.responses := rfl
@[simp] theorem scrambleHidden_sched (s : State) : (scrambleHidden s).sched = s.sched := rfl
@[simp] theorem scrambleHidden_draws (s : State) : (scrambleHidden s).draws = s.draws + 1 := rfl

/-! `raiseFail`. -/

@[simp] theorem raiseFail_fsm (c : Cause) (s : State) : (raiseFail c s).fsm = .failed := rfl
@[simp] theorem raiseFail_gotFrame (c : Cause) (s : State) : (raiseFail c s).gotFrame = s.gotFrame := rfl
@[simp] theorem raiseFail_keyFrame (c : Cause) (s : State) : (raiseFail c s).keyFrame = s.keyFrame := rfl
@[simp] theorem raiseFail_cause (c : Cause) (s : State) : (raiseFail c s).cause = c := rfl
@[simp] theorem raiseFail_width (c : Cause) (s : State) : (raiseFail c s).width = s.width := rfl
@[simp] theorem raiseFail_height (c : Cause) (s : State) : (raiseFail c s).height = s.height := rfl
@[simp] theorem raiseFail_tag (c : Cause) (s : State) : (raiseFail c s).tag = s.tag := rfl
@[simp] theorem raiseFail_pktLen (c : Cause) (s : State) : (raiseFail c s).pktLen = s.pktLen := rfl
@[simp] theorem raiseFail_wrW (c : Cause) (s : State) : (raiseFail c s).wrW = s.wrW := rfl
@[simp] theorem raiseFail_wrH (c : Cause) (s : State) : (raiseFail c s).wrH = s.wrH := rfl
@[simp] theorem raiseFail_wrT (c : Cause) (s : State) : (raiseFail c s).wrT = s.wrT := rfl
@[simp] theorem raiseFail_wrL (c : Cause) (s : State) : (raiseFail c s).wrL = s.wrL := rfl
@[simp] theorem raiseFail_consumed (c : Cause) (s : State) : (raiseFail c s).consumed = s.consumed := rfl
@[simp] theorem raiseFail_slot (c : Cause) (s : State) : (raiseFail c s).slot = s.slot := rfl
@[simp] theorem raiseFail_stride (c : Cause) (s : State) : (raiseFail c s).stride = s.stride := rfl
@[simp] theorem raiseFail_src (c : Cause) (s : State) : (raiseFail c s).src = s.src := rfl
@[simp] theorem raiseFail_lineEnd (c : Cause) (s : State) : (raiseFail c s).lineEnd = s.lineEnd := rfl
@[simp] theorem raiseFail_row (c : Cause) (s : State) : (raiseFail c s).row = s.row := rfl
@[simp] theorem raiseFail_col (c : Cause) (s : State) : (raiseFail c s).col = s.col := rfl
@[simp] theorem raiseFail_dest (c : Cause) (s : State) : (raiseFail c s).dest = s.dest := rfl
@[simp] theorem raiseFail_yp (c : Cause) (s : State) : (raiseFail c s).yp = s.yp := rfl
@[simp] theorem raiseFail_up (c : Cause) (s : State) : (raiseFail c s).up = s.up := rfl
@[simp] theorem raiseFail_vp (c : Cause) (s : State) : (raiseFail c s).vp = s.vp := rfl
@[simp] theorem raiseFail_ys (c : Cause) (s : State) : (raiseFail c s).ys = s.ys := rfl
@[simp] theorem raiseFail_us (c : Cause) (s : State) : (raiseFail c s).us = s.us := rfl
@[simp] theorem raiseFail_vs (c : Cause) (s : State) : (raiseFail c s).vs = s.vs := rfl
@[simp] theorem raiseFail_pkt (c : Cause) (s : State) : (raiseFail c s).pkt = s.pkt := rfl
@[simp] theorem raiseFail_pktCap (c : Cause) (s : State) : (raiseFail c s).pktCap = s.pktCap := rfl
@[simp] theorem raiseFail_history (c : Cause) (s : State) : (raiseFail c s).history = s.history := rfl
@[simp] theorem raiseFail_dropped (c : Cause) (s : State) : (raiseFail c s).dropped = s.dropped := rfl
@[simp] theorem raiseFail_answers (c : Cause) (s : State) : (raiseFail c s).answers = s.answers := rfl
@[simp] theorem raiseFail_draws (c : Cause) (s : State) : (raiseFail c s).draws = s.draws := rfl
@[simp] theorem raiseFail_program (c : Cause) (s : State) : (raiseFail c s).program = s.program := rfl
@[simp] theorem raiseFail_responses (c : Cause) (s : State) : (raiseFail c s).responses = s.responses := rfl
@[simp] theorem raiseFail_sched (c : Cause) (s : State) : (raiseFail c s).sched = s.sched := rfl

/-! `acceptCommand`. -/

@[simp] theorem acceptCommand_fsm (s : State) : (acceptCommand s).fsm = s.fsm := rfl
@[simp] theorem acceptCommand_gotFrame (s : State) : (acceptCommand s).gotFrame = false := rfl
@[simp] theorem acceptCommand_keyFrame (s : State) : (acceptCommand s).keyFrame = false := rfl
@[simp] theorem acceptCommand_cause (s : State) : (acceptCommand s).cause = .none := rfl
@[simp] theorem acceptCommand_width (s : State) : (acceptCommand s).width = s.width := rfl
@[simp] theorem acceptCommand_height (s : State) : (acceptCommand s).height = s.height := rfl
@[simp] theorem acceptCommand_tag (s : State) : (acceptCommand s).tag = s.tag := rfl
@[simp] theorem acceptCommand_pktLen (s : State) : (acceptCommand s).pktLen = s.pktLen := rfl
@[simp] theorem acceptCommand_wrW (s : State) : (acceptCommand s).wrW = s.wrW := rfl
@[simp] theorem acceptCommand_wrH (s : State) : (acceptCommand s).wrH = s.wrH := rfl
@[simp] theorem acceptCommand_wrT (s : State) : (acceptCommand s).wrT = s.wrT := rfl
@[simp] theorem acceptCommand_wrL (s : State) : (acceptCommand s).wrL = s.wrL := rfl
@[simp] theorem acceptCommand_consumed (s : State) : (acceptCommand s).consumed = 0x00000000#32 := rfl
@[simp] theorem acceptCommand_slot (s : State) : (acceptCommand s).slot = s.slot := rfl
@[simp] theorem acceptCommand_stride (s : State) : (acceptCommand s).stride = s.stride := rfl
@[simp] theorem acceptCommand_src (s : State) : (acceptCommand s).src = s.src := rfl
@[simp] theorem acceptCommand_lineEnd (s : State) : (acceptCommand s).lineEnd = s.lineEnd := rfl
@[simp] theorem acceptCommand_row (s : State) : (acceptCommand s).row = s.row := rfl
@[simp] theorem acceptCommand_col (s : State) : (acceptCommand s).col = s.col := rfl
@[simp] theorem acceptCommand_dest (s : State) : (acceptCommand s).dest = s.dest := rfl
@[simp] theorem acceptCommand_yp (s : State) : (acceptCommand s).yp = s.yp := rfl
@[simp] theorem acceptCommand_up (s : State) : (acceptCommand s).up = s.up := rfl
@[simp] theorem acceptCommand_vp (s : State) : (acceptCommand s).vp = s.vp := rfl
@[simp] theorem acceptCommand_ys (s : State) : (acceptCommand s).ys = s.ys := rfl
@[simp] theorem acceptCommand_us (s : State) : (acceptCommand s).us = s.us := rfl
@[simp] theorem acceptCommand_vs (s : State) : (acceptCommand s).vs = s.vs := rfl
@[simp] theorem acceptCommand_pkt (s : State) : (acceptCommand s).pkt = s.pkt := rfl
@[simp] theorem acceptCommand_pktCap (s : State) : (acceptCommand s).pktCap = s.pktCap := rfl
@[simp] theorem acceptCommand_history (s : State) : (acceptCommand s).history = s.history := rfl
@[simp] theorem acceptCommand_dropped (s : State) : (acceptCommand s).dropped = s.dropped := rfl
@[simp] theorem acceptCommand_answers (s : State) : (acceptCommand s).answers = s.answers := rfl
@[simp] theorem acceptCommand_draws (s : State) : (acceptCommand s).draws = s.draws := rfl
@[simp] theorem acceptCommand_program (s : State) : (acceptCommand s).program = s.program := rfl
@[simp] theorem acceptCommand_responses (s : State) : (acceptCommand s).responses = s.responses := rfl
@[simp] theorem acceptCommand_sched (s : State) : (acceptCommand s).sched = s.sched := rfl

/-! `useTurn`. -/

@[simp] theorem useTurn_fsm (s : State) : (useTurn s).fsm = s.fsm := rfl
@[simp] theorem useTurn_gotFrame (s : State) : (useTurn s).gotFrame = s.gotFrame := rfl
@[simp] theorem useTurn_keyFrame (s : State) : (useTurn s).keyFrame = s.keyFrame := rfl
@[simp] theorem useTurn_cause (s : State) : (useTurn s).cause = s.cause := rfl
@[simp] theorem useTurn_width (s : State) : (useTurn s).width = s.width := rfl
@[simp] theorem useTurn_height (s : State) : (useTurn s).height = s.height := rfl
@[simp] theorem useTurn_tag (s : State) : (useTurn s).tag = s.tag := rfl
@[simp] theorem useTurn_pktLen (s : State) : (useTurn s).pktLen = s.pktLen := rfl
@[simp] theorem useTurn_wrW (s : State) : (useTurn s).wrW = s.wrW := rfl
@[simp] theorem useTurn_wrH (s : State) : (useTurn s).wrH = s.wrH := rfl
@[simp] theorem useTurn_wrT (s : State) : (useTurn s).wrT = s.wrT := rfl
@[simp] theorem useTurn_wrL (s : State) : (useTurn s).wrL = s.wrL := rfl
@[simp] theorem useTurn_consumed (s : State) : (useTurn s).consumed = s.consumed := rfl
@[simp] theorem useTurn_slot (s : State) : (useTurn s).slot = s.slot := rfl
@[simp] theorem useTurn_stride (s : State) : (useTurn s).stride = s.stride := rfl
@[simp] theorem useTurn_src (s : State) : (useTurn s).src = s.src := rfl
@[simp] theorem useTurn_lineEnd (s : State) : (useTurn s).lineEnd = s.lineEnd := rfl
@[simp] theorem useTurn_row (s : State) : (useTurn s).row = s.row := rfl
@[simp] theorem useTurn_col (s : State) : (useTurn s).col = s.col := rfl
@[simp] theorem useTurn_dest (s : State) : (useTurn s).dest = s.dest := rfl
@[simp] theorem useTurn_yp (s : State) : (useTurn s).yp = s.yp := rfl
@[simp] theorem useTurn_up (s : State) : (useTurn s).up = s.up := rfl
@[simp] theorem useTurn_vp (s : State) : (useTurn s).vp = s.vp := rfl
@[simp] theorem useTurn_ys (s : State) : (useTurn s).ys = s.ys := rfl
@[simp] theorem useTurn_us (s : State) : (useTurn s).us = s.us := rfl
@[simp] theorem useTurn_vs (s : State) : (useTurn s).vs = s.vs := rfl
@[simp] theorem useTurn_pkt (s : State) : (useTurn s).pkt = s.pkt := rfl
@[simp] theorem useTurn_pktCap (s : State) : (useTurn s).pktCap = s.pktCap := rfl
@[simp] theorem useTurn_history (s : State) : (useTurn s).history = s.history := rfl
@[simp] theorem useTurn_dropped (s : State) : (useTurn s).dropped = s.dropped := rfl
@[simp] theorem useTurn_answers (s : State) : (useTurn s).answers = s.answers := rfl
@[simp] theorem useTurn_draws (s : State) : (useTurn s).draws = s.draws := rfl
@[simp] theorem useTurn_program (s : State) : (useTurn s).program = s.program := rfl
@[simp] theorem useTurn_responses (s : State) : (useTurn s).responses = s.responses := rfl
@[simp] theorem useTurn_sched (s : State) : (useTurn s).sched = s.sched.tail := rfl

/-! `popProgram`. -/

@[simp] theorem popProgram_fsm (s : State) : (popProgram s).fsm = s.fsm := rfl
@[simp] theorem popProgram_gotFrame (s : State) : (popProgram s).gotFrame = s.gotFrame := rfl
@[simp] theorem popProgram_keyFrame (s : State) : (popProgram s).keyFrame = s.keyFrame := rfl
@[simp] theorem popProgram_cause (s : State) : (popProgram s).cause = s.cause := rfl
@[simp] theorem popProgram_width (s : State) : (popProgram s).width = s.width := rfl
@[simp] theorem popProgram_height (s : State) : (popProgram s).height = s.height := rfl
@[simp] theorem popProgram_tag (s : State) : (popProgram s).tag = s.tag := rfl
@[simp] theorem popProgram_pktLen (s : State) : (popProgram s).pktLen = s.pktLen := rfl
@[simp] theorem popProgram_wrW (s : State) : (popProgram s).wrW = s.wrW := rfl
@[simp] theorem popProgram_wrH (s : State) : (popProgram s).wrH = s.wrH := rfl
@[simp] theorem popProgram_wrT (s : State) : (popProgram s).wrT = s.wrT := rfl
@[simp] theorem popProgram_wrL (s : State) : (popProgram s).wrL = s.wrL := rfl
@[simp] theorem popProgram_consumed (s : State) : (popProgram s).consumed = s.consumed := rfl
@[simp] theorem popProgram_slot (s : State) : (popProgram s).slot = s.slot := rfl
@[simp] theorem popProgram_stride (s : State) : (popProgram s).stride = s.stride := rfl
@[simp] theorem popProgram_src (s : State) : (popProgram s).src = s.src := rfl
@[simp] theorem popProgram_lineEnd (s : State) : (popProgram s).lineEnd = s.lineEnd := rfl
@[simp] theorem popProgram_row (s : State) : (popProgram s).row = s.row := rfl
@[simp] theorem popProgram_col (s : State) : (popProgram s).col = s.col := rfl
@[simp] theorem popProgram_dest (s : State) : (popProgram s).dest = s.dest := rfl
@[simp] theorem popProgram_yp (s : State) : (popProgram s).yp = s.yp := rfl
@[simp] theorem popProgram_up (s : State) : (popProgram s).up = s.up := rfl
@[simp] theorem popProgram_vp (s : State) : (popProgram s).vp = s.vp := rfl
@[simp] theorem popProgram_ys (s : State) : (popProgram s).ys = s.ys := rfl
@[simp] theorem popProgram_us (s : State) : (popProgram s).us = s.us := rfl
@[simp] theorem popProgram_vs (s : State) : (popProgram s).vs = s.vs := rfl
@[simp] theorem popProgram_pkt (s : State) : (popProgram s).pkt = s.pkt := rfl
@[simp] theorem popProgram_pktCap (s : State) : (popProgram s).pktCap = s.pktCap := rfl
@[simp] theorem popProgram_history (s : State) : (popProgram s).history = s.history := rfl
@[simp] theorem popProgram_dropped (s : State) : (popProgram s).dropped = s.dropped := rfl
@[simp] theorem popProgram_answers (s : State) : (popProgram s).answers = s.answers := rfl
@[simp] theorem popProgram_draws (s : State) : (popProgram s).draws = s.draws := rfl
@[simp] theorem popProgram_program (s : State) : (popProgram s).program = s.program.tail := rfl
@[simp] theorem popProgram_responses (s : State) : (popProgram s).responses = s.responses := rfl
@[simp] theorem popProgram_sched (s : State) : (popProgram s).sched = s.sched := rfl

/-- The reset memory is canonical: it lists nothing (R52). -/
theorem reset_pkt_wf : Memory.wf (n := 8) State.reset.pkt := List.Pairwise.nil

end Sys2Proof.Machine
end

