-- ==== Sys2Proof/Laws/Ops.lean ====
section
/-! SUPPORT. One lemma per shared operation: everything it can do. -/

namespace Sys2Proof.Machine

/-! Sequencing. -/

@[simp] theorem andThen_next (s : State) (k : State → Result) : andThen (.next s) k = k s := rfl
@[simp] theorem andThen_fault (f : Fault) (k : State → Result) :
    andThen (.fault f) k = .fault f := rfl
@[simp] theorem andThen_refused (r : Refusal) (k : State → Result) :
    andThen (.refused r) k = .refused r := rfl

theorem andThen_eq_next {o : Result} {k : State → Result} {t : State} :
    andThen o k = .next t ↔ ∃ s, o = .next s ∧ k s = .next t := by
  cases o <;> simp

theorem andThen_eq_fault {o : Result} {k : State → Result} {f : Fault} :
    andThen o k = .fault f ↔ o = .fault f ∨ ∃ s, o = .next s ∧ k s = .fault f := by
  cases o <;> simp

/-- Sequencing past a step whose answer is known. -/
theorem andThen_of_next {o : Result} {k : State → Result} {s : State} {r : Result}
    (h : o = .next s) (hk : k s = r) : andThen o k = r := by
  rw [h]; exact hk

/-! The packet space. -/

/-- A byte read changes at most the draw counter, and gives the written byte where there is one. -/
theorem readByte_spec (s : State) (o : Nat) :
    ∃ b d, readByte s o = (b, { s with draws := d }) ∧
      ∀ x, Memory.read (n := 8) s.pkt o = some x → b = x ∧ d = s.draws := by
  unfold readByte
  cases h : Memory.read s.pkt o with
  | some b => exact ⟨b, s.draws, rfl, by simp⟩
  | none => exact ⟨_, _, rfl, by simp⟩

/-- A word read changes at most the draw counter, and is the little-endian word of the written bytes
where they are written (R72, R283). -/
theorem readLe32_spec (s : State) (o : Nat) :
    ∃ b0 b1 b2 b3 d, readLe32 s o = (le32 b0 b1 b2 b3, { s with draws := d }) ∧
      (∀ x, Memory.read (n := 8) s.pkt o = some x → b0 = x) ∧
      (∀ x, Memory.read (n := 8) s.pkt (o + 1) = some x → b1 = x) ∧
      (∀ x, Memory.read (n := 8) s.pkt (o + 2) = some x → b2 = x) ∧
      (∀ x, Memory.read (n := 8) s.pkt (o + 3) = some x → b3 = x) := by
  obtain ⟨b0, d0, e0, h0⟩ := readByte_spec s o
  obtain ⟨b1, d1, e1, h1⟩ := readByte_spec { s with draws := d0 } (o + 1)
  obtain ⟨b2, d2, e2, h2⟩ := readByte_spec { s with draws := d1 } (o + 2)
  obtain ⟨b3, d3, e3, h3⟩ := readByte_spec { s with draws := d2 } (o + 3)
  refine ⟨b0, b1, b2, b3, d3, ?_, fun x h => (h0 x h).1, fun x h => (h1 x h).1,
    fun x h => (h2 x h).1, fun x h => (h3 x h).1⟩
  simp only [readLe32, e0, e1, e2, e3]

/-! Planes and scratch buffers. -/

theorem planeWrite_eq {s : State} {f : Frame} {p : Plane} {r c : Int} (v : Sample)
    (hs : s.slot = some f) (hr : f.inRange p r c) :
    planeWrite p r c v s = .next { s with slot := some (f.write p r c v) } := by
  simp [planeWrite, hs, hr]

theorem planeWrite_next {p : Plane} {r c : Int} {v : Sample} {s t : State} :
    planeWrite p r c v s = .next t ↔
      ∃ f, s.slot = some f ∧ f.inRange p r c ∧ t = { s with slot := some (f.write p r c v) } := by
  constructor
  · intro h
    unfold planeWrite at h
    split at h
    · cases h
    · rename_i f hf
      split at h
      · rename_i hr
        rw [Host.Outcome.next.injEq] at h
        exact ⟨f, hf, hr, h.symm⟩
      · cases h
  · rintro ⟨f, hf, hr, rfl⟩
    exact planeWrite_eq v hf hr

/-- The scratch buffers with entry `i` of one of them replaced. -/
def withScratch (p : Plane) (i : Nat) (v : Sample) (s : State) : State :=
  match p with
  | .y => { s with ys := s.ys.setIfInBounds i v }
  | .u => { s with us := s.us.setIfInBounds i v }
  | .v => { s with vs := s.vs.setIfInBounds i v }

/-- How many entries a scratch buffer has (R46). -/
def scratchSize (p : Plane) : Int :=
  match p with
  | .y => 6
  | .u => 3
  | .v => 3

theorem scratchWrite_eq {p : Plane} {i : Int} (v : Sample) (s : State)
    (h0 : 0 ≤ i) (h1 : i < scratchSize p) :
    scratchWrite p i v s = .next (withScratch p i.toNat v s) := by
  cases p <;> simp [scratchSize] at h1 <;> simp [scratchWrite, withScratch, h0, h1]

theorem scratchWrite_next {p : Plane} {i : Int} {v : Sample} {s t : State} :
    scratchWrite p i v s = .next t ↔
      0 ≤ i ∧ i < scratchSize p ∧ t = withScratch p i.toNat v s := by
  by_cases h : 0 ≤ i ∧ i < scratchSize p
  · rw [scratchWrite_eq v s h.1 h.2, Host.Outcome.next.injEq, eq_comm]
    exact ⟨fun e => ⟨h.1, h.2, e⟩, fun e => e.2.2⟩
  · have e : scratchWrite p i v s = .fault .scratchRange := by
      cases p <;> simp only [scratchSize] at h <;> simp only [scratchWrite, if_neg h]
    rw [e]
    constructor
    · intro e; cases e
    · intro e; exact absurd ⟨e.1, e.2.1⟩ h

theorem withScratch_list (p q : Plane) (i : Nat) (v : Sample) (s : State) :
    scratchList q (withScratch p i v s) =
      if q = p then (scratchList p s).set i v else scratchList q s := by
  cases p <;> cases q <;> simp [withScratch, scratchList]

@[simp] theorem pointer_advance (p q : Plane) (s : State) :
    pointer q (advance p s) = if q = p then pointer p s + 1 else pointer q s := by
  cases p <;> cases q <;> rfl

theorem length_scratchList (p : Plane) (s : State) :
    (scratchList p s).length = (scratchSize p).toNat := by
  cases p <;> simp [scratchList, scratchSize]

/-- WriteY, WriteU, WriteV with dest = REAL (R182). -/
theorem writeSample_real {p : Plane} {v : Sample} {s : State} {f : Frame} (hd : s.dest = .real)
    (hs : s.slot = some f) (hr : f.inRange p s.row (pointer p s)) :
    writeSample p v s =
      .next (advance p { s with slot := some (f.write p s.row (pointer p s) v) }) := by
  simp [writeSample, hd, planeWrite_eq v hs hr]

/-- WriteY, WriteU, WriteV with dest = SCRATCH (R182). -/
theorem writeSample_scratch {p : Plane} {v : Sample} {s : State} (hd : s.dest = .scratch)
    (h0 : 0 ≤ pointer p s) (h1 : pointer p s < scratchSize p) :
    writeSample p v s = .next (advance p (withScratch p (pointer p s).toNat v s)) := by
  simp [writeSample, hd, scratchWrite_eq v s h0 h1]

/-! The same, plane by plane, with the fields that change written out. -/

theorem writeY_real {v : Sample} {s : State} {f : Frame} (hd : s.dest = .real)
    (hs : s.slot = some f) (hr : f.inRange .y s.row s.yp) :
    writeSample .y v s =
      .next { s with slot := some (f.write .y s.row s.yp v), yp := s.yp + 1 } :=
  writeSample_real hd hs hr

theorem writeU_real {v : Sample} {s : State} {f : Frame} (hd : s.dest = .real)
    (hs : s.slot = some f) (hr : f.inRange .u s.row s.up) :
    writeSample .u v s =
      .next { s with slot := some (f.write .u s.row s.up v), up := s.up + 1 } :=
  writeSample_real hd hs hr

theorem writeV_real {v : Sample} {s : State} {f : Frame} (hd : s.dest = .real)
    (hs : s.slot = some f) (hr : f.inRange .v s.row s.vp) :
    writeSample .v v s =
      .next { s with slot := some (f.write .v s.row s.vp v), vp := s.vp + 1 } :=
  writeSample_real hd hs hr

theorem writeY_scratch {v : Sample} {s : State} (hd : s.dest = .scratch) (h0 : 0 ≤ s.yp)
    (h1 : s.yp < 6) :
    writeSample .y v s =
      .next { s with ys := s.ys.setIfInBounds s.yp.toNat v, yp := s.yp + 1 } :=
  writeSample_scratch hd h0 h1

theorem writeU_scratch {v : Sample} {s : State} (hd : s.dest = .scratch) (h0 : 0 ≤ s.up)
    (h1 : s.up < 3) :
    writeSample .u v s =
      .next { s with us := s.us.setIfInBounds s.up.toNat v, up := s.up + 1 } :=
  writeSample_scratch hd h0 h1

theorem writeV_scratch {v : Sample} {s : State} (hd : s.dest = .scratch) (h0 : 0 ≤ s.vp)
    (h1 : s.vp < 3) :
    writeSample .v v s =
      .next { s with vs := s.vs.setIfInBounds s.vp.toNat v, vp := s.vp + 1 } :=
  writeSample_scratch hd h0 h1

theorem writeSample_next {p : Plane} {v : Sample} {s t : State} :
    writeSample p v s = .next t ↔
      (s.dest = .real ∧ ∃ f, s.slot = some f ∧ f.inRange p s.row (pointer p s) ∧
        t = advance p { s with slot := some (f.write p s.row (pointer p s) v) }) ∨
      (s.dest = .scratch ∧ 0 ≤ pointer p s ∧ pointer p s < scratchSize p ∧
        t = advance p (withScratch p (pointer p s).toNat v s)) := by
  have hw : ∀ o : Result, (andThen o fun u => .next (advance p u)) = .next t ↔
      ∃ u, o = .next u ∧ t = advance p u := by
    intro o
    rw [andThen_eq_next]
    exact exists_congr fun u => and_congr_right fun _ => by
      rw [Host.Outcome.next.injEq, eq_comm]
  have hdest : s.dest = .real ∨ s.dest = .scratch := by cases s.dest <;> simp
  rcases hdest with hd | hd
  · have e : writeSample p v s =
        andThen (planeWrite p s.row (pointer p s) v s) fun u => .next (advance p u) := by
      simp only [writeSample, hd]
    rw [e, hw]
    constructor
    · rintro ⟨u, hu, rfl⟩
      obtain ⟨f, hf, hr, rfl⟩ := planeWrite_next.mp hu
      exact .inl ⟨hd, f, hf, hr, rfl⟩
    · rintro (⟨_, f, hf, hr, rfl⟩ | ⟨h, _⟩)
      · exact ⟨_, planeWrite_next.mpr ⟨f, hf, hr, rfl⟩, rfl⟩
      · rw [hd] at h; cases h
  · have e : writeSample p v s =
        andThen (scratchWrite p (pointer p s) v s) fun u => .next (advance p u) := by
      simp only [writeSample, hd]
    rw [e, hw]
    constructor
    · rintro ⟨u, hu, rfl⟩
      obtain ⟨h0, h1, rfl⟩ := scratchWrite_next.mp hu
      exact .inr ⟨hd, h0, h1, rfl⟩
    · rintro (⟨h, _⟩ | ⟨_, h0, h1, rfl⟩)
      · rw [hd] at h; cases h
      · exact ⟨_, scratchWrite_next.mpr ⟨h0, h1, rfl⟩, rfl⟩

/-- A word step that answers: the guard fired, or a word was read and its fields written in order. -/
theorem wordStep_next {pa pb pc : Plane} {k : State → State} {s t : State} :
    wordStep pa pb pc k s = .next t ↔
      (s.lineEnd - s.src < 4 ∧ t = { s with fsm := .merge }) ∨
      (4 ≤ s.lineEnd - s.src ∧ wordInPkt s s.src ∧
        ∃ s2 s3 s4, writeSample pa (fieldA (readLe32 s s.src.toNat).1)
            { (readLe32 s s.src.toNat).2 with src := s.src + 4 } = .next s2 ∧
          writeSample pb (fieldB (readLe32 s s.src.toNat).1) s2 = .next s3 ∧
          writeSample pc (fieldC (readLe32 s s.src.toNat).1) s3 = .next s4 ∧ t = k s4) := by
  have hsrc : (readLe32 s s.src.toNat).2.src = s.src := by
    obtain ⟨b0, b1, b2, b3, d, e, -⟩ := readLe32_spec s s.src.toNat
    rw [e]
  unfold wordStep
  by_cases hg : s.lineEnd - s.src < 4
  · rw [if_pos hg, Host.Outcome.next.injEq, eq_comm]
    constructor
    · intro h; exact .inl ⟨hg, h⟩
    · rintro (⟨_, h⟩ | ⟨h, _⟩)
      · exact h
      · omega
  · rw [if_neg hg]
    by_cases hp : wordInPkt s s.src
    · rw [if_pos hp]
      dsimp only
      rw [hsrc, andThen_eq_next]
      constructor
      · rintro ⟨s2, h2, h⟩
        obtain ⟨s3, h3, h⟩ := andThen_eq_next.mp h
        obtain ⟨s4, h4, h⟩ := andThen_eq_next.mp h
        rw [Host.Outcome.next.injEq] at h
        exact .inr ⟨by omega, hp, s2, s3, s4, h2, h3, h4, h.symm⟩
      · rintro (⟨h, _⟩ | ⟨_, _, s2, s3, s4, h2, h3, h4, rfl⟩)
        · omega
        · exact ⟨s2, h2, andThen_eq_next.mpr ⟨s3, h3, andThen_eq_next.mpr ⟨s4, h4, rfl⟩⟩⟩
    · rw [if_neg hp]
      constructor
      · intro h; cases h
      · rintro (⟨h, _⟩ | ⟨_, h, _⟩)
        · omega
        · exact absurd h hp

/-- A word step past its guard: the word of the four bytes at `src`, the written ones where they are
written, and its three fields emitted in order (R72, R182, R283). -/
theorem wordStep_reads (pa pb pc : Plane) (k : State → State) {s : State}
    (hg : 4 ≤ s.lineEnd - s.src) (h0 : 0 ≤ s.src) (h1 : s.src + 4 ≤ s.pktCap) :
    ∃ b0 b1 b2 b3 d,
      (∀ x, Memory.read (n := 8) s.pkt s.src.toNat = some x → b0 = x) ∧
      (∀ x, Memory.read (n := 8) s.pkt (s.src.toNat + 1) = some x → b1 = x) ∧
      (∀ x, Memory.read (n := 8) s.pkt (s.src.toNat + 2) = some x → b2 = x) ∧
      (∀ x, Memory.read (n := 8) s.pkt (s.src.toNat + 3) = some x → b3 = x) ∧
      wordStep pa pb pc k s =
        andThen (writeSample pa (fieldA (le32 b0 b1 b2 b3))
          { s with draws := d, src := s.src + 4 }) fun s2 =>
        andThen (writeSample pb (fieldB (le32 b0 b1 b2 b3)) s2) fun s3 =>
        andThen (writeSample pc (fieldC (le32 b0 b1 b2 b3)) s3) fun s4 => .next (k s4) := by
  obtain ⟨b0, b1, b2, b3, d, e, h⟩ := readLe32_spec s s.src.toNat
  refine ⟨b0, b1, b2, b3, d, h.1, h.2.1, h.2.2.1, h.2.2.2, ?_⟩
  have hp : wordInPkt s s.src = true := by simp [wordInPkt, h0, h1]
  unfold wordStep
  rw [if_neg (by omega), if_pos hp, e]

/-! The pool. -/

/-- A draw takes one answer of the list, or one free draw; a lawful answer is FAIL or names no zero
handle and no live one (R168). -/
theorem drawAnswer_spec (s : State) :
    ∃ a d, drawAnswer s = (a, { s with answers := s.answers.tail, draws := d }) ∧
      (a = .fail ∨ ∃ h, a = .ok h ∧ h ≠ 0#32 ∧ h ∉ liveHandles s) := by
  have lawful : ∀ a, lawfulAnswer a s = .fail ∨
      ∃ h, lawfulAnswer a s = .ok h ∧ h ≠ 0#32 ∧ h ∉ liveHandles s := by
    intro a
    cases a with
    | fail => exact .inl rfl
    | ok h =>
      by_cases c : h = 0#32 ∨ h ∈ liveHandles s
      · exact .inl (by simp [lawfulAnswer, c])
      · rw [not_or] at c
        exact .inr ⟨h, by simp [lawfulAnswer, c], c⟩
  unfold drawAnswer
  split
  · rename_i a rest hl
    exact ⟨lawfulAnswer a s, s.draws, by simp [hl], lawful a⟩
  · rename_i hl
    exact ⟨lawfulAnswer (Config.poolAnswer s.draws) s, s.draws + 1, by simp [hl], lawful _⟩

/-- A draw of a listed lawful answer. -/
theorem drawAnswer_listed {s : State} {h : Word} {rest : List PoolAnswer}
    (hl : s.answers = .ok h :: rest) (h0 : h ≠ 0#32) (hn : h ∉ liveHandles s) :
    drawAnswer s = (.ok h, { s with answers := rest }) := by
  simp [drawAnswer, hl, lawfulAnswer, h0, hn]

/-- A draw of a listed OK that the contract does not allow counts as FAIL (log 7). -/
theorem drawAnswer_unlawful {s : State} {h : Word} {rest : List PoolAnswer}
    (hl : s.answers = .ok h :: rest) (hn : h = 0#32 ∨ h ∈ liveHandles s) :
    drawAnswer s = (.fail, { s with answers := rest }) := by
  simp [drawAnswer, hl, lawfulAnswer, hn]

theorem releaseSlot_some {s : State} {f : Frame} (h : s.slot = some f) :
    releaseSlot s = { s with slot := none, history := s.history ++ [.release f.handle] } := by
  simp [releaseSlot, h]

theorem releaseSlot_none {s : State} (h : s.slot = none) : releaseSlot s = s := by
  simp [releaseSlot, h]

/-! Commands and registers. -/

/-- A DECODE that answers was accepted, and started a decode (R137, R140). -/
theorem issueDecode_next {s t : State} (h : issueDecode s = .next t) :
    (s.fsm = .idle ∨ s.fsm = .done ∨ s.fsm = .failed) ∧ s.wrW ∧ s.wrH ∧ s.wrL ∧
      s.pktLen.toNat ≤ s.pktCap ∧ t = { acceptCommand s with fsm := .validating } := by
  unfold issueDecode at h
  split at h
  · cases h
  · rename_i hb
    have key : ∀ u, startDecode u = .next t → u.wrW ∧ u.wrH ∧ u.wrL ∧ u.pktLen.toNat ≤ u.pktCap ∧
        t = { u with fsm := .validating } := by
      intro u hu
      unfold startDecode at hu
      split at hu
      · rename_i hw
        split at hu
        · cases hu
        · cases hu
          simp only [Bool.and_eq_true] at hw
          exact ⟨hw.1.1, hw.1.2, hw.2, by omega, rfl⟩
      · cases hu
    cases hf : s.fsm <;> simp only [hf, busy, busyState, not_true] at h hb <;>
      first | exact ⟨by simp, key _ h⟩ | cases h

/-- A SHUTDOWN that answers had no effect in CLOSED, or closed the block (R137, R146). -/
theorem issueShutdown_next {s t : State} (h : issueShutdown s = .next t) :
    (s.fsm = .closed ∧ t = s) ∨
      ((s.fsm = .idle ∨ s.fsm = .done ∨ s.fsm = .failed) ∧ t = closeBlock (acceptCommand s)) := by
  unfold issueShutdown at h
  split at h
  · cases h
  · rename_i hb
    cases hf : s.fsm <;> simp only [hf, busy, busyState, not_true] at h hb <;> cases h <;> simp

/-- A command that answers is DECODE or SHUTDOWN (R137). -/
theorem issueCommand_next {v : Word} {s t : State} (h : issueCommand v s = .next t) :
    issueDecode s = .next t ∨ issueShutdown s = .next t := by
  unfold issueCommand at h
  split at h
  · cases h
  · split at h
    · cases h
    · exact .inl h
    · exact .inr h

/-- A register write that answers: a configuration register and its mark, or a command (R132). -/
theorem writeReg_next {r : Option Reg} {v : Word} {s t : State} (h : writeReg r v s = .next t) :
    issueDecode s = .next t ∨ issueShutdown s = .next t ∨
      t = { s with width := v, wrW := true } ∨ t = { s with height := v, wrH := true } ∨
      t = { s with tag := v, wrT := true } ∨ t = { s with pktLen := v, wrL := true } := by
  cases r with
  | none => cases h
  | some r =>
    cases r <;> simp only [writeReg] at h
    case cmd =>
      rcases issueCommand_next h with h | h
      · exact .inl h
      · exact .inr (.inl h)
    all_goals cases h
    all_goals simp

/-- A register read that answers only hands data to the host (R78, R133). -/
theorem readReg_next {r : Option Reg} {s t : State} (h : readReg r s = .next t) :
    ∃ v, t = respond (.word v) s := by
  cases r with
  | none => cases h
  | some r =>
    cases r <;> simp only [readReg, readConfig] at h
    case width | height | tag | pktLen =>
      split at h
      · cases h; exact ⟨_, rfl⟩
      · cases h
    all_goals (cases h; exact ⟨_, rfl⟩)

end Sys2Proof.Machine
end

