-- ==== Sys2Proof/Laws/Copy.lean ====
section
/-! SUPPORT. Copying a run of samples to consecutive columns (the loops of MERGE_BACK, R205). -/

namespace Sys2Proof.Machine

/-- The frame with a run of samples written from column `c` on. -/
def Frame.writeRun (f : Frame) (p : Plane) (r c : Int) (l : List Sample) : Frame :=
  match l with
  | [] => f
  | v :: rest => Frame.writeRun (f.write p r c v) p r (c + 1) rest

variable {f : Frame} {p q : Plane} {r c r' c' : Int} {l : List Sample}

@[simp] theorem writeRun_handle : (f.writeRun p r c l).handle = f.handle := by
  induction l generalizing f c with
  | nil => rfl
  | cons v rest ih => simp [Frame.writeRun, ih]
@[simp] theorem writeRun_w : (f.writeRun p r c l).w = f.w := by
  induction l generalizing f c with
  | nil => rfl
  | cons v rest ih => simp [Frame.writeRun, ih]
@[simp] theorem writeRun_h : (f.writeRun p r c l).h = f.h := by
  induction l generalizing f c with
  | nil => rfl
  | cons v rest ih => simp [Frame.writeRun, ih]
@[simp] theorem writeRun_fill : (f.writeRun p r c l).fill = f.fill := by
  induction l generalizing f c with
  | nil => rfl
  | cons v rest ih => simp [Frame.writeRun, ih]
@[simp] theorem writeRun_columns : (f.writeRun p r c l).columns q = f.columns q := by
  simp [Frame.columns]
@[simp] theorem writeRun_inRange : (f.writeRun p r c l).inRange q r' c' = f.inRange q r' c' := by
  simp [Frame.inRange]

/-- A sample after a run of writes: the run's sample in its columns, the old one elsewhere. -/
theorem sample_writeRun (hr : ∀ i : Nat, i < l.length → f.inRange p r (c + i))
    (h' : f.inRange q r' c') :
    (f.writeRun p r c l).sample q r' c' =
      if q = p ∧ r' = r ∧ c ≤ c' ∧ c' < c + l.length then l.getD (c' - c).toNat 0#16
      else f.sample q r' c' := by
  induction l generalizing f c with
  | nil =>
    rw [if_neg]
    · rfl
    · rintro ⟨-, -, h1, h2⟩
      simp only [List.length_nil, Nat.cast_zero] at h2
      omega
  | cons v rest ih =>
    have h0 : f.inRange p r c := by simpa using hr 0 (by simp)
    have hrest : ∀ i : Nat, i < rest.length → (f.write p r c v).inRange p r (c + 1 + i) := by
      intro i hi
      have := hr (i + 1) (by simpa using hi)
      rw [write_inRange]
      simpa [Int.add_assoc, Int.add_comm 1] using this
    rw [Frame.writeRun, ih hrest (by simpa using h'), sample_write v h0 h']
    simp only [List.length_cons, Nat.cast_add, Nat.cast_one]
    by_cases hq : q = p ∧ r' = r
    · obtain ⟨rfl, rfl⟩ := hq
      by_cases h1 : c + 1 ≤ c' ∧ c' < c + 1 + rest.length
      · have e : (c' - c).toNat = (c' - (c + 1)).toNat + 1 := by omega
        rw [if_pos ⟨rfl, rfl, h1⟩, if_pos ⟨rfl, rfl, by omega, by omega⟩, e]
        rfl
      · rw [if_neg (by tauto)]
        by_cases h2 : c' = c
        · subst h2
          rw [if_pos ⟨rfl, rfl, rfl⟩, if_pos ⟨rfl, rfl, le_refl _, by omega⟩]
          simp
        · rw [if_neg (by tauto), if_neg (by omega)]
    · rw [if_neg (by tauto), if_neg (by tauto), if_neg (by tauto)]

/-- Samples copied into the held frame, all of them in range. -/
theorem copySamples_eq {s : State} (hs : s.slot = some f)
    (hr : ∀ i : Nat, i < l.length → f.inRange p r (c + i)) :
    copySamples p r c l s = .next { s with slot := some (f.writeRun p r c l) } := by
  induction l generalizing f c s with
  | nil => simp only [copySamples, Frame.writeRun, ← hs]
  | cons v rest ih =>
    have h0 : f.inRange p r c := by simpa using hr 0 (by simp)
    have hrest : ∀ i : Nat, i < rest.length → (f.write p r c v).inRange p r (c + 1 + i) := by
      intro i hi
      have := hr (i + 1) (by simpa using hi)
      rw [write_inRange]
      simpa [Int.add_assoc, Int.add_comm 1] using this
    rw [copySamples, planeWrite_eq v hs h0, andThen_next, ih rfl hrest]
    rfl

/-- A copy that answers changes at most the held frame, all of its columns being in range. -/
theorem copySamples_next {s t : State} (h : copySamples p r c l s = .next t) :
    t = { s with slot := s.slot.map (·.writeRun p r c l) } ∧
      ∀ g, s.slot = some g → ∀ i : Nat, i < l.length → g.inRange p r (c + i) := by
  induction l generalizing c s with
  | nil =>
    simp only [copySamples, Host.Outcome.next.injEq] at h
    subst h
    refine ⟨?_, by simp⟩
    have : s.slot.map (·.writeRun p r c []) = s.slot := by cases s.slot <;> rfl
    rw [this]
  | cons v rest ih =>
    obtain ⟨u, hu, hk⟩ := andThen_eq_next.mp h
    obtain ⟨g, hg, hr, rfl⟩ := planeWrite_next.mp hu
    obtain ⟨ht, hi⟩ := ih hk
    refine ⟨?_, ?_⟩
    · rw [ht, hg]
      rfl
    · intro g' hg' i hi'
      rw [hg] at hg'
      cases hg'
      cases i with
      | zero => simpa using hr
      | succ i =>
        have := hi _ rfl i (by simpa using hi')
        rw [write_inRange] at this
        simpa [Int.add_assoc, Int.add_comm 1] using this

end Sys2Proof.Machine
end

