-- ==== Sys2Proof/Laws/Fields.lean ====
section
/-! SUPPORT. Words bit by bit: the three fields, the packing expression, and a word's bytes. -/

namespace Sys2Proof.Machine

/-- Bit `i` of field a is bit `i - 6` of the word (R183). -/
theorem getLsbD_fieldA (t : Word) {i : Nat} (hi : i < 16) :
    (fieldA t).getLsbD i = (decide (6 ≤ i) && t.getLsbD (i - 6)) := by
  interval_cases i <;> simp [fieldA]

/-- Bit `i` of field b is bit `i + 4` of the word (R183). -/
theorem getLsbD_fieldB (t : Word) {i : Nat} (hi : i < 16) :
    (fieldB t).getLsbD i = (decide (6 ≤ i) && t.getLsbD (i + 4)) := by
  interval_cases i <;> simp [fieldB]

/-- Bit `i` of field c is bit `i + 14` of the word (R183). -/
theorem getLsbD_fieldC (t : Word) {i : Nat} (hi : i < 16) :
    (fieldC t).getLsbD i = (decide (6 ≤ i) && t.getLsbD (i + 14)) := by
  interval_cases i <;> simp [fieldC]

/-- The bytes of a word make the word (R72, R112). -/
theorem le32_wordByte (w : Word) :
    le32 (wordByte w 0) (wordByte w 1) (wordByte w 2) (wordByte w 3) = w := by
  apply BitVec.eq_of_getLsbD_eq
  intro i hi
  simp only [le32, wordByte, BitVec.getLsbD_or, BitVec.getLsbD_shiftLeft, BitVec.getLsbD_setWidth,
    BitVec.getLsbD_ushiftRight]
  by_cases h1 : i < 8
  · simp [h1, hi, show i < 16 by omega, show i < 24 by omega]
  · by_cases h2 : i < 16
    · simp [h1, h2, hi, show i < 24 by omega, show i - 8 < 8 by omega, show i - 8 < 32 by omega,
        show 8 + (i - 8) = i by omega]
    · by_cases h3 : i < 24
      · simp [h1, h2, h3, hi, show i - 16 < 8 by omega, show ¬ i - 8 < 8 by omega,
          show i - 16 < 32 by omega, show 16 + (i - 16) = i by omega]
      · simp [h1, h2, h3, hi, show i - 24 < 8 by omega, show ¬ i - 16 < 8 by omega,
          show ¬ i - 8 < 8 by omega, show i - 24 < 32 by omega, show 24 + (i - 24) = i by omega]

end Sys2Proof.Machine
end

