-- ==== Sys2Proof/Laws/Step.lean ====
section
/-! SUPPORT. What a step runs, and how an invariant is shown: kept by every operation, and blind to
the turn and the program. -/

namespace Sys2Proof.Machine

open Sys2Proof.Safety

theorem ofCode_code (f : Fsm) : Fsm.ofCode f.code = f := by cases f <;> decide

/-- What the state codes select (R105). -/
theorem decode_fsm_eq (f : Fsm) : decode (.fsm f.code) =
    match f with
    | .validating => .ok .validate
    | .allocating => .ok .acquire
    | .rowBegin => .ok .rowBegin
    | .hextetSelect => .ok .hextetSelect
    | .word1 => .ok .unpackW1
    | .word2 => .ok .unpackW2
    | .word3 => .ok .unpackW3
    | .word4 => .ok .unpackW4
    | .merge => .ok .mergeBack
    | .rowEnd => .ok .rowEnd
    | .completing => .ok .complete
    | .reserved => .ok .reservedFsm
    | .idle | .done | .failed | .closed => .error (.noStep f.code) := by
  cases f <;> rfl

/-- A bus operation never decodes to an engine step. -/
theorem decode_bus_host {o : BusOp} {i : Instr} (h : decode (.bus o) = .ok i) :
    isEngineStep i = false := by
  cases o with
  | regWrite off data =>
    simp only [decode, decodeBus] at h
    split at h
    · split at h <;> cases h <;> rfl
    · cases h; rfl
  | frameRead hd n r c =>
    simp only [decode, decodeBus] at h
    split at h <;> cases h; rfl
  | _ => cases h; rfl

/-- What a fetch that runs something runs: the engine its step, in the state with the turn used up, or
the host an operation, in that state or with the program entry used up as well. -/
theorem fetch_run {s u : State} {i : Instr} (h : fetch s = .run i u) :
    (decode (.fsm s.fsm.code) = .ok i ∧ u = useTurn s) ∨
      (isEngineStep i = false ∧ (u = useTurn s ∨ u = popProgram (useTurn s))) := by
  unfold fetch at h
  split at h
  · unfold fetchHost at h
    split at h
    · cases h
    · split at h
      · rename_i hd
        cases h
        exact .inr ⟨decode_bus_host hd, .inr rfl⟩
      · cases h
    · cases h
      refine .inr ⟨rfl, ?_⟩
      split
      · exact .inl rfl
      · exact .inr rfl
  · unfold fetchEngine at h
    split at h
    · rename_i hd
      cases h
      exact .inl ⟨hd, rfl⟩
    · cases h
  · cases h

/-- A step that answers rests, or runs what was fetched. -/
theorem step_next {s t : State} (h : step s = .next t) :
    t = s ∨ ∃ i u, fetch s = .run i u ∧ exec i u = .next t := by
  unfold step at h
  split at h
  · cases h; exact .inl rfl
  · rename_i i u hf
    exact .inr ⟨i, u, hf, h⟩
  · cases h

/-- One step off the front of a run. -/
theorem run_step {n : Nat} {s t : State} (h : step s = .next t) :
    Host.Core.run core (n + 1) s = Host.Core.run core n t := by
  have key : ∀ (M : Host.Core) (k : Nat) (a b : M.State), M.step a = .next b →
      M.run (k + 1) a = M.run k b := by
    intro M k a b hab
    simp only [Host.Core.run, hab]
  exact key core n s t h

/-- A property blind to the turn and the program, and kept by every operation (an engine step being
run in its own state), is kept by every step. -/
theorem step_keeps {P : State → Prop} (hturn : ∀ s, P s → P (useTurn s))
    (hpop : ∀ s, P s → P (popProgram s))
    (hexec : ∀ i s t, P s → (decode (.fsm s.fsm.code) = .ok i ∨ isEngineStep i = false) →
      exec i s = .next t → P t)
    {s t : State} (hs : P s) (h : step s = .next t) : P t := by
  rcases step_next h with rfl | ⟨i, u, hf, he⟩
  · exact hs
  · rcases fetch_run hf with ⟨hd, rfl⟩ | ⟨hi, rfl | rfl⟩
    · exact hexec i _ t (hturn s hs) (.inl hd) he
    · exact hexec i _ t (hturn s hs) (.inr hi) he
    · exact hexec i _ t (hpop _ (hturn s hs)) (.inr hi) he

end Sys2Proof.Machine
end

