-- ==== Sys2Proof/Laws/Meanings.lean ====
section
/-! SUPPORT. One inversion lemma per meaning or per group of meanings: what an operation that answers
has done. -/

namespace Sys2Proof.Machine

open Sys2Proof.Safety

/-! The pool calls of a state. -/

/-- The release events of giving up what the slot holds (R162, R146). -/
def releaseEvents (s : State) : List PoolEvent := (heldHandles s).map .release

theorem releaseSlot_eq (s : State) :
    releaseSlot s = { s with slot := none, history := s.history ++ releaseEvents s } := by
  cases h : s.slot with
  | none =>
    have e : s.history ++ releaseEvents s = s.history := by simp [releaseEvents, heldHandles, h]
    rw [releaseSlot_none h, e, ← h]
  | some f =>
    rw [releaseSlot_some h]
    simp [releaseEvents, heldHandles, h]

theorem heldHandles_releaseSlot (s : State) : heldHandles (releaseSlot s) = [] := by
  rw [releaseSlot_eq]; rfl

/-- What SHUTDOWN leaves (R146). -/
theorem closeBlock_eq (s : State) :
    closeBlock s =
      { s with slot := none, history := s.history ++ releaseEvents s, fsm := .closed } := by
  rw [closeBlock, releaseSlot_eq]

/-- What ACQUIRE leaves, by the pool's answer (R162). -/
theorem acquireFrame_spec (s : State) :
    ∃ d, acquireFrame s =
        { s with
          slot := none
          history := s.history ++ releaseEvents s ++ [.acquire (widthOf s) (heightOf s) .fail]
          answers := s.answers.tail, draws := d, cause := .allocFailed, fsm := .failed } ∨
      ∃ h, h ≠ 0#32 ∧ h ∉ s.dropped ∧ acquireFrame s =
        { s with
          slot := some (newFrame h (widthOf s) (heightOf s) d)
          history := s.history ++ releaseEvents s ++ [.acquire (widthOf s) (heightOf s) (.ok h)]
          answers := s.answers.tail, draws := d + 1, row := 0, fsm := .rowBegin } := by
  obtain ⟨a, d, e, ha⟩ := drawAnswer_spec (releaseSlot s)
  refine ⟨d, ?_⟩
  rw [acquireFrame, e, releaseSlot_eq]
  rcases ha with rfl | ⟨h, rfl, h0, hl⟩
  · exact .inl rfl
  · refine .inr ⟨h, h0, ?_, rfl⟩
    rw [liveHandles, heldHandles_releaseSlot, List.append_nil, releaseSlot_eq] at hl
    exact hl

/-- One more event of the history (R169). -/
theorem outstanding_append (l : List PoolEvent) (e : PoolEvent) :
    outstanding (l ++ [e]) = (outstanding l).bind fun live => trackEvent live e := by
  simp [outstanding]

/-! Host operations. -/

/-- What a host operation that answers has done: handed over read data, written one register or one
byte of PKT, started a decode, closed the block, or reset it. -/
inductive HostDone (s : State) : State → Prop
  | read (d : Response) : HostDone s (respond d s)
  | noop (h : s.fsm = .closed) : HostDone s s
  | width (v : Word) (h : busy s = false) : HostDone s { s with width := v, wrW := true }
  | height (v : Word) (h : busy s = false) : HostDone s { s with height := v, wrH := true }
  | tag (v : Word) (h : busy s = false) : HostDone s { s with tag := v, wrT := true }
  | pktLen (v : Word) (h : busy s = false) : HostDone s { s with pktLen := v, wrL := true }
  | pkt (o : Nat) (v : Byte) (h : busy s = false) (ho : o < s.pktCap) :
      HostDone s { s with pkt := Memory.write (n := 8) s.pkt o v }
  | start (h : s.fsm = .idle ∨ s.fsm = .done ∨ s.fsm = .failed)
      (hw : s.wrW ∧ s.wrH ∧ s.wrL ∧ s.pktLen.toNat ≤ s.pktCap) :
      HostDone s { acceptCommand s with fsm := .validating }
  | close (h : s.fsm = .idle ∨ s.fsm = .done ∨ s.fsm = .failed) :
      HostDone s (closeBlock (acceptCommand s))
  | reset (t : State) (h : execReset s = .next t) : HostDone s t

theorem hostDone_of_decode {s t : State} (h : issueDecode s = .next t) : HostDone s t := by
  obtain ⟨hf, h1, h2, h3, h4, rfl⟩ := issueDecode_next h
  exact .start hf ⟨h1, h2, h3, h4⟩

theorem hostDone_of_shutdown {s t : State} (h : issueShutdown s = .next t) : HostDone s t := by
  rcases issueShutdown_next h with ⟨hf, rfl⟩ | ⟨hf, rfl⟩
  · exact .noop hf
  · exact .close hf

/-- Every host operation that answers has done one of these (R130, R132, R133, R135 to R137). -/
theorem exec_host {i : Instr} {s t : State} (hi : isEngineStep i = false)
    (h : exec i s = .next t) : HostDone s t := by
  cases i with
  | decode => exact hostDone_of_decode h
  | shutdown => exact hostDone_of_shutdown h
  | regWrite off v =>
    simp only [exec, execRegWrite] at h
    split at h
    · cases h
    · rename_i hb
      rw [Bool.not_eq_true] at hb
      rcases writeReg_next h with h | h | rfl | rfl | rfl | rfl
      · exact hostDone_of_decode h
      · exact hostDone_of_shutdown h
      · exact .width v hb
      · exact .height v hb
      · exact .tag v hb
      · exact .pktLen v hb
  | regRead off =>
    simp only [exec, execRegRead] at h
    split at h
    · cases h
    · obtain ⟨v, rfl⟩ := readReg_next h
      exact .read _
  | pktWrite off b =>
    simp only [exec, execPktWrite] at h
    split at h
    · cases h
    · rename_i hb
      rw [Bool.not_eq_true] at hb
      split at h
      · cases h
        exact .pkt _ _ hb (by omega)
      · cases h
  | frameRead hd p r c =>
    simp only [exec, execFrameRead] at h
    split at h
    · cases h
    · split at h
      · cases h
      · split at h
        · cases h; exact .read _
        · cases h
  | reset => exact .reset t h
  | _ => simp [isEngineStep] at hi

/-! Engine steps. -/

theorem validate_next {s t : State} (h : execValidate s = .next t) :
    ((widthOf s ≤ 1 ∨ heightOf s ≤ 0) ∧ t = raiseFail .invalidGeometry s) ∨
      (2 ≤ widthOf s ∧ 1 ≤ heightOf s ∧
        ((lengthOf s < heightOf s * rowStride (widthOf s) ∧
            t = raiseFail .truncatedPacket { s with stride := rowStride (widthOf s) }) ∨
          (heightOf s * rowStride (widthOf s) ≤ lengthOf s ∧
            t = { s with stride := rowStride (widthOf s), fsm := .allocating }))) := by
  unfold execValidate at h
  split at h
  · rename_i hg
    rw [Host.Outcome.next.injEq] at h
    exact .inl ⟨hg, h.symm⟩
  · rename_i hg
    right
    refine ⟨by omega, by omega, ?_⟩
    dsimp only at h
    split at h
    · rename_i hl
      rw [Host.Outcome.next.injEq] at h
      exact .inl ⟨hl, h.symm⟩
    · rename_i hl
      rw [Host.Outcome.next.injEq] at h
      exact .inr ⟨not_lt.mp hl, h.symm⟩

theorem hextetSelect_next {s t : State} (h : execHextetSelect s = .next t) :
    (widthOf s - s.col < 6 ∧
        t = { s with dest := .scratch, yp := 0, up := 0, vp := 0, fsm := .word1 }) ∨
      (6 ≤ widthOf s - s.col ∧ 16 ≤ s.lineEnd - s.src ∧
        t = { s with
          dest := .real, yp := s.col, up := s.col / 2, vp := s.col / 2, fsm := .word1 }) := by
  unfold execHextetSelect at h
  split at h
  · split at h
    · cases h
    · rw [Host.Outcome.next.injEq] at h
      exact .inl ⟨by omega, h.symm⟩
  · rw [Host.Outcome.next.injEq] at h
    exact .inr ⟨by omega, by omega, h.symm⟩

/-- A MERGE_BACK that answers: nothing to copy, or the three prefixes copied into the held frame. -/
theorem mergeBack_next {s t : State} (h : execMergeBack s = .next t) :
    (widthOf s ≤ s.col ∧ t = { s with fsm := .rowEnd }) ∨
      (s.col < widthOf s ∧ s.dest = .scratch ∧ widthOf s - s.col < 6 ∧
        ∃ ly lu lv,
          ly = (scratchList .y s).take (widthOf s - s.col).toNat ∧
          lu = (scratchList .u s).take (ceilHalf (widthOf s - s.col)).toNat ∧
          lv = (scratchList .v s).take (ceilHalf (widthOf s - s.col)).toNat ∧
          t = { s with
            slot := s.slot.map fun f =>
              ((f.writeRun .y s.row s.col ly).writeRun .u s.row (s.col / 2) lu).writeRun .v s.row
                (s.col / 2) lv
            fsm := .rowEnd } ∧
          ∀ f, s.slot = some f →
            (∀ i : Nat, i < ly.length → f.inRange .y s.row (s.col + i)) ∧
            (∀ i : Nat, i < lu.length → f.inRange .u s.row (s.col / 2 + i)) ∧
            (∀ i : Nat, i < lv.length → f.inRange .v s.row (s.col / 2 + i))) := by
  unfold execMergeBack at h
  split at h
  · rename_i hc
    split at h
    · rename_i hd
      right
      refine ⟨hc, hd.1, hd.2, _, _, _, rfl, rfl, rfl, ?_⟩
      obtain ⟨s1, h1, h⟩ := andThen_eq_next.mp h
      obtain ⟨s2, h2, h⟩ := andThen_eq_next.mp h
      obtain ⟨s3, h3, h⟩ := andThen_eq_next.mp h
      obtain ⟨rfl, r1⟩ := copySamples_next h1
      obtain ⟨rfl, r2⟩ := copySamples_next h2
      obtain ⟨rfl, r3⟩ := copySamples_next h3
      rw [Host.Outcome.next.injEq] at h
      subst h
      refine ⟨?_, ?_⟩
      · cases s.slot <;> rfl
      · intro f hf
        refine ⟨r1 f hf, ?_, ?_⟩
        · intro i hi
          have := r2 _ (by dsimp only; rw [hf]; rfl) i hi
          simpa using this
        · intro i hi
          have := r3 _ (by dsimp only; rw [hf]; rfl) i hi
          simpa using this
    · cases h
  · rename_i hc
    rw [Host.Outcome.next.injEq] at h
    exact .inl ⟨not_lt.mp hc, h.symm⟩

/-! What engine steps leave alone. -/

theorem sameHostSide_refl (s : State) : SameHostSide s s := by constructor <;> rfl

theorem sameHostSide_trans {s t u : State} (h : SameHostSide s t) (k : SameHostSide t u) :
    SameHostSide s u := by
  constructor
  · exact k.width.trans h.width
  · exact k.height.trans h.height
  · exact k.tag.trans h.tag
  · exact k.pktLen.trans h.pktLen
  · exact k.wrW.trans h.wrW
  · exact k.wrH.trans h.wrH
  · exact k.wrT.trans h.wrT
  · exact k.wrL.trans h.wrL
  · exact k.pkt.trans h.pkt
  · exact k.pktCap.trans h.pktCap
  · exact k.dropped.trans h.dropped
  · exact k.program.trans h.program
  · exact k.responses.trans h.responses
  · exact k.sched.trans h.sched

/-- The fields a sample write leaves alone: all but the slot, the scratch buffers and the pointers. -/
structure SameButSamples (s t : State) : Prop extends SameHostSide s t where
  fsm : t.fsm = s.fsm
  gotFrame : t.gotFrame = s.gotFrame
  keyFrame : t.keyFrame = s.keyFrame
  cause : t.cause = s.cause
  consumed : t.consumed = s.consumed
  stride : t.stride = s.stride
  src : t.src = s.src
  lineEnd : t.lineEnd = s.lineEnd
  row : t.row = s.row
  col : t.col = s.col
  dest : t.dest = s.dest
  history : t.history = s.history
  answers : t.answers = s.answers
  draws : t.draws = s.draws
  slotSome : t.slot.isSome = s.slot.isSome
  handles : heldHandles t = heldHandles s

theorem sameButSamples_trans {s t u : State} (h : SameButSamples s t) (k : SameButSamples t u) :
    SameButSamples s u where
  toSameHostSide := sameHostSide_trans h.toSameHostSide k.toSameHostSide
  fsm := k.fsm.trans h.fsm
  gotFrame := k.gotFrame.trans h.gotFrame
  keyFrame := k.keyFrame.trans h.keyFrame
  cause := k.cause.trans h.cause
  consumed := k.consumed.trans h.consumed
  stride := k.stride.trans h.stride
  src := k.src.trans h.src
  lineEnd := k.lineEnd.trans h.lineEnd
  row := k.row.trans h.row
  col := k.col.trans h.col
  dest := k.dest.trans h.dest
  history := k.history.trans h.history
  answers := k.answers.trans h.answers
  draws := k.draws.trans h.draws
  slotSome := k.slotSome.trans h.slotSome
  handles := k.handles.trans h.handles

/-- WriteY, WriteU and WriteV change samples and one pointer only (R182). -/
theorem writeSample_frame {p : Plane} {v : Sample} {s t : State} (h : writeSample p v s = .next t) :
    SameButSamples s t := by
  rcases writeSample_next.mp h with ⟨_, f, hf, _, rfl⟩ | ⟨_, _, _, rfl⟩
  · cases p <;> constructor <;> first | rfl | (constructor <;> rfl) | simp [advance, hf, heldHandles]
  · cases p <;> constructor <;> first | rfl | (constructor <;> rfl)

/-- How a hextet ends (R188). -/
theorem endHextet_eq (s : State) :
    endHextet s = { s with
      col := if widthOf s - s.col < 6 then s.col else s.col + 6
      fsm := if widthOf s - s.col < 6 then .merge
        else if s.col + 6 < widthOf s then .hextetSelect else .merge } := by
  unfold endHextet
  split_ifs <;> rfl

/-- A word read changes at most the draw counter (R78, R283). -/
theorem readLe32_frame (s : State) (o : Nat) : ∃ d, (readLe32 s o).2 = { s with draws := d } := by
  obtain ⟨b0, b1, b2, b3, d, e, -⟩ := readLe32_spec s o
  exact ⟨d, by rw [e]⟩

/-- A property that the parts of a word step keep, it keeps. -/
theorem wordStep_keeps {P : State → Prop} {pa pb pc : Plane} {k : State → State} {s t : State}
    (hguard : ∀ u, P u → P { u with fsm := .merge })
    (hread : ∀ u d, P u → P { u with draws := d, src := u.src + 4 })
    (hwrite : ∀ p w u u', P u → (v : Sample) →
      (v = fieldA w ∨ v = fieldB w ∨ v = fieldC w) → writeSample p v u = .next u' → P u')
    (hk : ∀ u, P u → P (k u)) (hs : P s) (h : wordStep pa pb pc k s = .next t) : P t := by
  rcases wordStep_next.mp h with ⟨_, rfl⟩ | ⟨_, _, s2, s3, s4, h2, h3, h4, rfl⟩
  · exact hguard _ hs
  · obtain ⟨d, e⟩ := readLe32_frame s s.src.toNat
    rw [e] at h2
    have p2 := hwrite _ _ _ _ (hread _ d hs) _ (.inl rfl) h2
    have p3 := hwrite _ _ _ _ p2 _ (.inr (.inl rfl)) h3
    exact hk _ (hwrite _ _ _ _ p3 _ (.inr (.inr rfl)) h4)

end Sys2Proof.Machine
end

