-- ==== Sys2Proof/Laws/PerInstr.lean ====
section
/-! SUPPORT. Per instruction: what the decoder answers is well formed. -/

namespace Sys2Proof.Laws.DecodedWf

/-- Whatever decodes to this operation, the operation is in its canonical form. -/
def Statement (i : Instr) : Prop := ∀ c, Sys2Proof.decode c = .ok i → i.wf = true

theorem decode : Statement .decode := fun _ _ => rfl

theorem shutdown : Statement .shutdown := fun _ _ => rfl

theorem regWrite (off : Word) (v : Word) : Statement (.regWrite off v) := by
  intro c h
  cases c with
  | fsm code =>
    simp only [Sys2Proof.decode, decodeFsm] at h
    split at h <;> cases h
  | bus op =>
    cases op with
    | regWrite off' v' =>
      simp only [Sys2Proof.decode, decodeBus] at h
      split at h
      · rename_i h0
        unfold decodeCommand at h
        split_ifs at h with h1 h2
        · cases h
        · cases h
        · cases h
          simp [Instr.wf, h1, h2]
      · rename_i h0
        cases h
        simp [Instr.wf, h0]
    | frameRead hd n r c =>
      simp only [Sys2Proof.decode, decodeBus] at h
      split at h <;> cases h
    | _ => cases h

theorem regRead (off : Word) : Statement (.regRead off) := fun _ _ => rfl

theorem pktWrite (o : Int) (b : Byte) : Statement (.pktWrite o b) := fun _ _ => rfl

theorem frameRead (h : Word) (p : Plane) (r : Int) (c : Int) : Statement (.frameRead h p r c) := fun _ _ => rfl

theorem reset : Statement .reset := fun _ _ => rfl

theorem validate : Statement .validate := fun _ _ => rfl

theorem acquire : Statement .acquire := fun _ _ => rfl

theorem rowBegin : Statement .rowBegin := fun _ _ => rfl

theorem hextetSelect : Statement .hextetSelect := fun _ _ => rfl

theorem unpackW1 : Statement .unpackW1 := fun _ _ => rfl

theorem unpackW2 : Statement .unpackW2 := fun _ _ => rfl

theorem unpackW3 : Statement .unpackW3 := fun _ _ => rfl

theorem unpackW4 : Statement .unpackW4 := fun _ _ => rfl

theorem mergeBack : Statement .mergeBack := fun _ _ => rfl

theorem rowEnd : Statement .rowEnd := fun _ _ => rfl

theorem complete : Statement .complete := fun _ _ => rfl

theorem reservedFsm : Statement .reservedFsm := fun _ _ => rfl

end Sys2Proof.Laws.DecodedWf
end

