-- ==== Sys2Proof/Tests/Slice0.lean ====
section
/-! SUPPORT. Tests of single operations, each with its expected result from the spec (the source stands
in its comment), and for every statement that has hypotheses a witness that meets them. -/

namespace Sys2Proof.Tests

open Sys2Proof Sys2Proof.Machine Sys2Proof.Safety

/-! Helpers: small states. -/

/-- The state after reset with the configuration written. -/
def configured (w h len : Word) : State :=
  { State.reset with width := w, height := h, pktLen := len, wrW := true, wrH := true, wrL := true }

/-- A frame as the pool hands it out, under handle 5. -/
def frame (w h : Int) : Frame := newFrame 0x00000005#32 w h 0

/-- A packet of these bytes from offset 0 on. -/
def packet (o : Nat) (l : List Byte) : List Host.Cell :=
  match l with
  | [] => []
  | b :: rest => (o, b) :: packet (o + 1) rest

/-- The packet of vector V20: one full hextet. -/
def v20 : List Host.Cell :=
  packet 0 [0xFF#8, 0x07#8, 0x00#8, 0x10#8, 0x02#8, 0x00#8, 0x30#8, 0x00#8, 0xFF#8, 0xFC#8, 0xAF#8,
    0x2A#8, 0x00#8, 0x06#8, 0x50#8, 0x15#8]

/-- A decode in progress in state `f` at row 0, with the frame in the slot. -/
def running (f : Fsm) (w h : Word) : State :=
  { configured w h 16#32 with
    fsm := f, slot := some (frame w.toInt h.toInt), stride := rowStride w.toInt
    lineEnd := rowStride w.toInt, pkt := v20 }

/-- A state in DONE with a frame in the slot. -/
def finished : State :=
  { configured 6#32 1#32 16#32 with
    fsm := .done, gotFrame := true, keyFrame := true, consumed := 16#32
    slot := some (frame 6 1) }

/-- Whether an answer is a next state with a property. -/
def after (o : Result) (p : State → Bool) : Bool :=
  match o with
  | .next t => p t
  | .fault _ => false
  | .refused _ => false

/-- Whether an answer is this fault. -/
def faults (o : Result) (f : Fault) : Bool :=
  match o with
  | .next _ => false
  | .fault g => g == f
  | .refused _ => false

/-! Well-formedness. -/

/-- R101: a command code written to CMD is spelled as the command. -/
theorem test_wf_refuses_command_spellings :
    (Instr.regWrite 0x00#32 0x00000001#32).wf = false ∧
      (Instr.regWrite 0x00#32 0x00000002#32).wf = false ∧
      (Instr.regWrite 0x00#32 0x00000003#32).wf = true ∧
      (Instr.regWrite 0x08#32 0x00000001#32).wf = true := by decide

/-! Decoding: the codes of file 30, written out. -/

/-- R101 (commands): codes 1 and 2, and every other value reserved (R102). -/
theorem test_decode_commands :
    decode (.bus (.regWrite 0x00#32 0x00000001#32)) = .ok .decode ∧
      decode (.bus (.regWrite 0x00#32 0x00000002#32)) = .ok .shutdown ∧
      decode (.bus (.regWrite 0x00#32 0x00000100#32)) =
        .ok (.regWrite 0x00#32 0x00000100#32) := by decide

/-- R110 (host operations). -/
theorem test_decode_host_operations :
    decode (.bus (.regWrite 0x08#32 0x00000001#32)) = .ok (.regWrite 0x08#32 0x00000001#32) ∧
      decode (.bus (.regRead 0x1C#32)) = .ok (.regRead 0x1C#32) ∧
      decode (.bus (.pktWrite 63 0xFF#8)) = .ok (.pktWrite 63 0xFF#8) ∧
      decode (.bus (.frameRead 5#32 0 0 5)) = .ok (.frameRead 5#32 .y 0 5) ∧
      decode (.bus (.frameRead 5#32 1 0 2)) = .ok (.frameRead 5#32 .u 0 2) ∧
      decode (.bus (.frameRead 5#32 2 0 2)) = .ok (.frameRead 5#32 .v 0 2) ∧
      decode (.bus (.frameRead 5#32 3 0 0)) = .error (.badPlane 3) ∧
      decode (.bus .reset) = .ok .reset := by decide

/-- R105 (engine steps): code by code. -/
theorem test_decode_engine_steps :
    decode (.fsm 0x1#4) = .ok .validate ∧ decode (.fsm 0x2#4) = .ok .acquire ∧
      decode (.fsm 0x3#4) = .ok .rowBegin ∧ decode (.fsm 0x4#4) = .ok .hextetSelect ∧
      decode (.fsm 0x5#4) = .ok .unpackW1 ∧ decode (.fsm 0x6#4) = .ok .unpackW2 ∧
      decode (.fsm 0x7#4) = .ok .unpackW3 ∧ decode (.fsm 0x8#4) = .ok .unpackW4 ∧
      decode (.fsm 0x9#4) = .ok .mergeBack ∧ decode (.fsm 0xA#4) = .ok .rowEnd ∧
      decode (.fsm 0xB#4) = .ok .complete ∧ decode (.fsm 0xF#4) = .ok .reservedFsm := by decide

/-- R105: the resting states run no step. -/
theorem test_decode_resting_states :
    decode (.fsm 0x0#4) = .error (.noStep 0x0#4) ∧ decode (.fsm 0xC#4) = .error (.noStep 0xC#4) ∧
      decode (.fsm 0xD#4) = .error (.noStep 0xD#4) ∧
      decode (.fsm 0xE#4) = .error (.noStep 0xE#4) := by decide

/-! Fields and words. -/

/-- The three fields of a word together. -/
def fields (t : Word) : Sample × Sample × Sample := (fieldA t, fieldB t, fieldC t)

/-- Vectors V5 to V7: the lowest bit of each field. -/
theorem test_fields_lowest_bits :
    fields 0x00000001#32 = (0x0040#16, 0x0000#16, 0x0000#16) ∧
      fields 0x00000400#32 = (0x0000#16, 0x0040#16, 0x0000#16) ∧
      fields 0x00100000#32 = (0x0000#16, 0x0000#16, 0x0040#16) := by decide

/-- Vectors V9d and V9e: mixed words. -/
theorem test_fields_mixed :
    fields 0x12345678#32 = (0x9E00#16, 0x4540#16, 0x48C0#16) ∧
      fields 0xDEADBEEF#32 = (0xBBC0#16, 0xDBC0#16, 0x7A80#16) := by decide

/-- The round-trip example of section 2.1: `.pack 0x3FF, 0x001, 0x100`. -/
theorem test_pack_example :
    pack 0x3FF#10 0x001#10 0x100#10 = 0x100007FF#32 ∧
      fields 0x100007FF#32 = (0xFFC0#16, 0x0040#16, 0x4000#16) := by decide

/-- V24: the little-endian word of `11 36 5B 80`. -/
theorem test_le32_byte_order : le32 0x11#8 0x36#8 0x5B#8 0x80#8 = 0x805B3611#32 := by decide

/-- R161: the stride of widths 2, 4, 6, 8, 12, and the largest width, which does not wrap (V16). -/
theorem test_row_stride :
    rowStride 2 = 5 ∧ rowStride 4 = 10 ∧ rowStride 6 = 16 ∧ rowStride 8 = 21 ∧ rowStride 12 = 32 ∧
      rowStride 2147483647 = 5726623058 := by decide

/-- V41: step counts. -/
theorem test_step_counts :
    decodeSteps 2 1 = 9 ∧ decodeSteps 4 2 = 17 ∧ decodeSteps 6 1 = 11 ∧ decodeSteps 6 2 = 19 ∧
      decodeSteps 7 1 = 13 ∧ decodeSteps 8 2 = 25 ∧ decodeSteps 12 1 = 16 ∧
      decodeSteps 18 1 = 21 := by decide

/-- The word that the table of opcodes gives for an UNPACK row is 32 bits; the others are 8 or 32. -/
theorem test_table_words :
    decodeTableWord 32 0x00000001 = some .decode ∧ decodeTableWord 32 0x00000002 = some .shutdown ∧
      decodeTableWord 32 0x5 = some .unpackW1 ∧ decodeTableWord 4 0x5 = some .unpackW1 ∧
      decodeTableWord 8 0x3 = some .rowBegin ∧ decodeTableWord 8 0x0 = none := by decide

/-! Commands. -/

/-- V58 and R144: accepted without TAG; the result fields are cleared. -/
theorem test_decode_accepted :
    after (exec .decode finished) (fun t => t.fsm == .validating && !t.gotFrame && !t.keyFrame &&
      t.consumed == 0x00000000#32 && slotValid t) = true := by decide

/-- V56, V57 and V66. -/
theorem test_decode_rejected :
    faults (exec .decode { State.reset with wrW := true, wrH := true }) .unwrittenConfig = true ∧
      faults (exec .decode (configured 6#32 1#32 65#32)) .pktOverflow = true ∧
      faults (exec .decode { configured 6#32 1#32 16#32 with fsm := .closed }) .closed = true := by
  decide

/-- V65: one release, and no effect the second time. -/
theorem test_shutdown_releases_once :
    after (andThen (exec .shutdown finished) (exec .shutdown)) (fun t =>
      t.history == [.release 0x00000005#32] && statusWord t == 0x0000000E#32) = true := by decide

/-- V64 and V62. -/
theorem test_shutdown_edges :
    after (exec .shutdown State.reset) (fun t => t.history == [] &&
        statusWord t == 0x0000000E#32 && frameHandle t == 0x00000000#32) = true ∧
      faults (exec .shutdown (running .word2 6#32 1#32)) .busyAccess = true := by decide

/-! Host operations. -/

/-- V59 and V60. -/
theorem test_reg_write_then_read :
    after (andThen (exec (.regWrite 0x10#32 0x76323130#32) State.reset) (exec (.regRead 0x10#32)))
        (fun t => t.responses == [.word 0x76323130#32]) = true ∧
      after (exec (.regWrite 0x08#32 0xFFFFFFFF#32) State.reset) (fun t => widthOf t == -1) = true := by
  decide

/-- V53, V54, V55 and V62. -/
theorem test_reg_write_rejected :
    faults (exec (.regWrite 0x04#32 0#32) State.reset) .readOnly = true ∧
      faults (exec (.regWrite 0x00#32 0#32) State.reset) .reservedCmd = true ∧
      faults (exec (.regWrite 0x00#32 3#32) State.reset) .reservedCmd = true ∧
      faults (exec (.regWrite 0x20#32 0#32) State.reset) .unmapped = true ∧
      faults (exec (.regWrite 0x08#32 8#32) (running .word2 6#32 1#32)) .busyAccess = true := by
  decide

/-- V50, V52, V61 and the STATUS value of V20. -/
theorem test_reg_read_status :
    after (exec (.regRead 0x04#32) State.reset) (fun t => t.responses == [.word 0x00000000#32]) = true ∧
      after (exec (.regRead 0x00#32) State.reset)
        (fun t => t.responses == [.word 0x00000000#32]) = true ∧
      after (exec (.regRead 0x04#32) (running .word2 6#32 1#32))
        (fun t => t.responses == [.word 0x00000096#32]) = true ∧
      after (exec (.regRead 0x04#32) finished)
        (fun t => t.responses == [.word 0x000000EC#32]) = true := by decide

/-- V51 and V55. -/
theorem test_reg_read_rejected :
    faults (exec (.regRead 0x08#32) State.reset) .unwrittenConfig = true ∧
      faults (exec (.regRead 0x20#32) State.reset) .unmapped = true ∧
      faults (exec (.regRead 0x06#32) State.reset) .unmapped = true := by decide

/-- R135: the last byte of PKT with the capacity 64, and a byte written twice. -/
theorem test_pkt_write :
    after (andThen (exec (.pktWrite 63 0xAA#8) State.reset) (exec (.pktWrite 63 0x00#8)))
      (fun t => t.pkt == [(63, 0x00#8)]) = true := by decide

/-- R135: outside PKT. -/
theorem test_pkt_write_outside :
    faults (exec (.pktWrite 64 0x00#8) State.reset) .unmapped = true ∧
      faults (exec (.pktWrite (-1) 0x00#8) State.reset) .unmapped = true := by decide

/-- V70: the frame keeps the geometry of its acquire. -/
theorem test_frame_read :
    after (exec (.frameRead 5#32 .y 0 5)
        { finished with width := 2#32, slot := some ((frame 6 1).write .y 0 5 0x5540#16) })
      (fun t => t.responses == [.sample 0x5540#16]) = true := by decide

/-- V67 and V68. -/
theorem test_frame_read_rejected :
    faults (exec (.frameRead 5#32 .u 1 2) { finished with slot := some (frame 4 2) })
        .frameAccess = true ∧
      faults (exec (.frameRead 6#32 .y 0 0) finished) .frameAccess = true := by decide

/-- V63: RESET while busy; the frame is leaked. -/
theorem test_reset_while_busy :
    after (exec .reset (running .word2 6#32 1#32)) (fun t => t.fsm == .idle && t.slot == none &&
      t.history == [] && t.dropped == [5#32] && t.pkt == [] && !t.wrW) = true := by decide

/-! Engine steps. -/

/-- V13a, V13b and V16. -/
theorem test_validate_length :
    after (exec .validate (configured 6#32 2#32 31#32)) (fun t =>
        t.fsm == .failed && t.cause == .truncatedPacket && t.stride == 16) = true ∧
      after (exec .validate (configured 6#32 2#32 32#32)) (fun t =>
        t.fsm == .allocating && t.stride == 16) = true ∧
      after (exec .validate (configured 0x7FFFFFFF#32 1#32 0xFFFFFFFF#32)) (fun t =>
        t.fsm == .failed && t.cause == .truncatedPacket && t.stride == 5726623058) = true := by decide

/-- V14, V11b and V12a: the geometry is checked first. -/
theorem test_validate_geometry :
    after (exec .validate (configured 1#32 1#32 0#32)) (fun t => statusWord t == 0x0000010D#32) = true ∧
      after (exec .validate (configured 0xFFFFFFFF#32 1#32 100#32))
        (fun t => statusWord t == 0x0000010D#32) = true ∧
      after (exec .validate (configured 6#32 0#32 100#32))
        (fun t => statusWord t == 0x0000010D#32) = true := by decide

/-- V18b and V18c: the old frame is released first, so its handle may come again. -/
theorem test_acquire_ok :
    after (exec .acquire { running .allocating 6#32 1#32 with answers := [.ok 9#32] }) (fun t =>
        t.fsm == .rowBegin && t.row == 0 && frameHandle t == 9#32 &&
        t.history == [.release 5#32, .acquire 6 1 (.ok 9#32)]) = true ∧
      after (exec .acquire { running .allocating 6#32 1#32 with answers := [.ok 5#32] }) (fun t =>
        t.history == [.release 5#32, .acquire 6 1 (.ok 5#32)]) = true := by decide

/-- V19b. -/
theorem test_acquire_fail :
    after (exec .acquire { running .allocating 6#32 1#32 with answers := [.fail] }) (fun t =>
      statusWord t == 0x0000030D#32 && frameHandle t == 0#32 &&
        t.history == [.release 5#32, .acquire 6 1 .fail]) = true := by decide

/-- V30 and V40: row 1 of width 8 starts at offset 21. -/
theorem test_row_begin :
    after (exec .rowBegin { running .rowBegin 8#32 2#32 with row := 1, col := 6 }) (fun t =>
      t.fsm == .hextetSelect && t.src == 21 && t.lineEnd == 42 && t.col == 0 &&
        t.ys.toList == List.replicate 6 0x8000#16 && t.us.toList == List.replicate 3 0x8000#16 &&
        t.vs.toList == List.replicate 3 0x8000#16) = true := by decide

/-- The row of V30 for these values: destination and pointers. -/
theorem test_hextet_select :
    after (exec .hextetSelect { running .hextetSelect 8#32 1#32 with
        col := 6, src := 16, lineEnd := 21, yp := 6, up := 3, vp := 3 }) (fun t =>
        t.fsm == .word1 && t.dest == .scratch && t.yp == 0 && t.up == 0 && t.vp == 0) = true ∧
      after (exec .hextetSelect { running .hextetSelect 12#32 1#32 with
        col := 6, src := 16, lineEnd := 32 }) (fun t =>
        t.fsm == .word1 && t.dest == .real && t.yp == 6 && t.up == 3 && t.vp == 3) = true := by decide

/-- R200: the redirect no run reaches. -/
theorem test_hextet_select_unreachable :
    faults (exec .hextetSelect { running .hextetSelect 12#32 1#32 with
      col := 6, src := 16, lineEnd := 31 }) .unreachableRedirect = true := by decide

/-- The samples of the frame in the slot at these places. -/
def samples (s : State) (l : List (Plane × Int × Int)) : List (Option Sample) :=
  l.map fun e => sampleAt s e.1 e.2.1 e.2.2

/-- V21 step 5. -/
theorem test_unpack_w1 :
    after (exec .unpackW1 (running .word1 6#32 1#32)) (fun t =>
      t.fsm == .word2 && t.src == 4 && t.yp == 1 && t.up == 1 && t.vp == 1 &&
        samples t [(.u, 0, 0), (.y, 0, 0), (.v, 0, 0)] ==
          [some 0xFFC0#16, some 0x0040#16, some 0x4000#16]) = true := by decide

/-- V32, WIDTH = 7: the guard fires at once. -/
theorem test_unpack_w1_guard :
    after (exec .unpackW1 { running .word1 7#32 1#32 with
      col := 6, src := 16, lineEnd := 18, dest := .scratch }) (fun t =>
      t.fsm == .merge && t.src == 16 && t.yp == 0 && t.up == 0 && t.vp == 0) = true := by decide

/-- V21 step 6. -/
theorem test_unpack_w2 :
    after (exec .unpackW2 { running .word2 6#32 1#32 with src := 4, yp := 1, up := 1, vp := 1 })
      (fun t => t.fsm == .word3 && t.src == 8 && t.yp == 3 && t.up == 2 && t.vp == 1 &&
        samples t [(.y, 0, 1), (.u, 0, 1), (.y, 0, 2)] ==
          [some 0x0080#16, some 0x0000#16, some 0x00C0#16]) = true := by decide

/-- V21 step 7. -/
theorem test_unpack_w3 :
    after (exec .unpackW3 { running .word3 6#32 1#32 with src := 8, yp := 3, up := 2, vp := 1 })
      (fun t => t.fsm == .word4 && t.src == 12 && t.yp == 4 && t.up == 3 && t.vp == 2 &&
        samples t [(.v, 0, 1), (.y, 0, 3), (.u, 0, 2)] ==
          [some 0x3FC0#16, some 0xFFC0#16, some 0xAA80#16]) = true := by decide

/-- V21 step 8. -/
theorem test_unpack_w4 :
    after (exec .unpackW4 { running .word4 6#32 1#32 with src := 12, yp := 4, up := 3, vp := 2 })
      (fun t => t.fsm == .merge && t.src == 16 && t.col == 6 &&
        samples t [(.y, 0, 4), (.v, 0, 2), (.y, 0, 5)] ==
          [some 0x8000#16, some 0x0040#16, some 0x5540#16]) = true := by decide

/-- R188: with columns left after a full hextet the row goes on. -/
theorem test_unpack_w4_next_hextet :
    after (exec .unpackW4 { running .word4 12#32 1#32 with src := 12, yp := 4, up := 3, vp := 2 })
      (fun t => t.fsm == .hextetSelect && t.col == 6) = true := by decide

/-- V31, row 0: the scratch buffers after the words. -/
def v31 : State :=
  { running .merge 4#32 2#32 with
    dest := .scratch
    ys := #v[0xB340#16, 0xA940#16, 0x5380#16, 0x8000#16, 0x8000#16, 0x8000#16]
    us := #v[0x8440#16, 0xFC80#16, 0x8000#16]
    vs := #v[0x0140#16, 0x8000#16, 0x8000#16] }

/-- V31, row 0: the merge-back. -/
theorem test_merge_back :
    after (exec .mergeBack v31) (fun t => t.fsm == .rowEnd &&
      samples t [(.y, 0, 0), (.y, 0, 1), (.y, 0, 2), (.y, 0, 3), (.u, 0, 0), (.u, 0, 1),
          (.v, 0, 0), (.v, 0, 1)] ==
        [some 0xB340#16, some 0xA940#16, some 0x5380#16, some 0x8000#16, some 0x8440#16,
          some 0xFC80#16, some 0x0140#16, some 0x8000#16]) = true := by decide

/-- V33, WIDTH = 6: nothing to copy; and R205's stop. -/
theorem test_merge_back_edges :
    after (exec .mergeBack { running .merge 6#32 1#32 with col := 6 }) (fun t =>
        t.fsm == .rowEnd && t.slot == some (frame 6 1)) = true ∧
      faults (exec .mergeBack { v31 with dest := .real }) .unreachableMerge = true := by decide

/-- R225, HEIGHT = 2: from row 0 to row 1, and from row 1 to COMPLETING. -/
theorem test_row_end :
    after (exec .rowEnd (running .rowEnd 8#32 2#32)) (fun t => t.fsm == .rowBegin && t.row == 1) = true ∧
      after (exec .rowEnd { running .rowEnd 8#32 2#32 with row := 1 }) (fun t =>
        t.fsm == .completing && t.row == 2) = true := by decide

/-- V42: CONSUMED is PKT_LEN, not the bytes of the rows. -/
theorem test_complete :
    after (exec .complete { running .completing 6#32 2#32 with pktLen := 40#32 }) (fun t =>
      t.consumed == 40#32 && statusWord t == 0x000000EC#32) = true := by decide

/-- R106. -/
theorem test_reserved_state :
    faults (exec .reservedFsm { State.reset with fsm := .reserved }) .badState = true ∧
      faults (step { State.reset with fsm := .reserved }) .badState = true := by decide

/-! The step and the assembler. -/

/-- R131: the engine first without a schedule, the host where it is named, and rest. -/
theorem test_step_order :
    after (step (running .validating 6#32 1#32)) (fun t => t.fsm == .allocating) = true ∧
      after (step { running .validating 6#32 1#32 with
        program := [.op (.regRead 0x04#32)], sched := [.host] })
        (fun t => t.fsm == .validating && t.program == [] && t.sched == []) = true ∧
      after (step State.reset) (fun t => t == State.reset) = true := by decide

/-- R112: `wait` polls until BUSY is 0. -/
theorem test_wait :
    after (step { running .validating 6#32 1#32 with program := [.wait], sched := [.host] })
        (fun t => t.program == [.wait] && t.responses.length == 1) = true ∧
      after (step { finished with program := [.wait] })
        (fun t => t.program == [] && t.responses == [.word 0x000000EC#32]) = true := by decide

/-- Statement 4 of program P1 (its first word), statement 5, and statement 9, as the table of P1
expands them. -/
theorem test_assemble_p1 :
    assembleLine ['p', 'k', 't', 'w', ' ', '0', ',', ' ', '0', 'x', '1', '0', '0', '0', '0', '7',
        'F', 'F', ' ', ';', ' ', 'f', 'i', 'r', 's', 't', ' ', 'w', 'o', 'r', 'd'] = some
        [.op (.pktWrite 0 0xFF#8), .op (.pktWrite 1 0x07#8), .op (.pktWrite 2 0x00#8),
          .op (.pktWrite 3 0x10#8)] ∧
      assembleLine ['c', 'm', 'd', ' ', 'D', 'E', 'C', 'O', 'D',
          'E'] = some [.op (.regWrite 0x00#32 0x00000001#32)] ∧
      assembleLine ['f', 'r', 'd', ' ', '0', 'x', '1', '1', ',', ' ', 'Y', ',', ' ', '0', ',',
          ' ', '3'] = some [.op (.frameRead 0x11#32 0 0 3)] := by decide

/-- R111, R112: `wr`, `rd`, `.pack` (the example of section 2.1), a comment, and no statement. -/
theorem test_assemble_forms :
    assembleLine ['w', 'r', ' ', 'P', 'K', 'T', '_', 'L', 'E', 'N', ',', ' ', '1',
        '6'] = some [.op (.regWrite 0x14#32 0x00000010#32)] ∧
      assembleLine ['r', 'd', ' ', 'C', 'O', 'N', 'S', 'U', 'M', 'E',
          'D'] = some [.op (.regRead 0x18#32)] ∧
      assembleLine ['p', 'k', 't', 'w', ' ', '4', ',', ' ', '.', 'p', 'a', 'c', 'k', ' ', '0',
          'x', '3', 'F', 'F', ',', ' ', '0', 'x', '0', '0', '1', ',', ' ', '0', 'x', '1', '0',
          '0'] = some
        [.op (.pktWrite 4 0xFF#8), .op (.pktWrite 5 0x07#8), .op (.pktWrite 6 0x00#8),
          .op (.pktWrite 7 0x10#8)] ∧
      assembleLine [';', ' ', 'a', ' ', 'c', 'o', 'm', 'm', 'e', 'n',
          't'] = some [] ∧ assembleLine ['j', 'u', 'm', 'p', ' ', '3'] = none := by decide

/-! Witnesses: for every statement with hypotheses, states and operands that meet them, clause by clause
and at the ends of each clause's range. -/

/-- A state in WORD2 of V21: the samples of word 1 written, the history that led here. -/
def midRow : State :=
  { running .word2 6#32 1#32 with
    slot := some ((((frame 6 1).write .u 0 0 0xFFC0#16).write .y 0 0 0x0040#16).write .v 0 0 0x4000#16)
    src := 4, yp := 1, up := 1, vp := 1
    ys := #v[neutral, neutral, neutral, neutral, neutral, neutral]
    us := #v[neutral, neutral, neutral]
    vs := #v[neutral, neutral, neutral]
    history := [.acquire 6 1 (.ok 5#32)] }

/-- A word step at the ends of its ranges: the last four bytes of PKT and the last places of a frame of
6 columns and one row. -/
def lastWord (f : Fsm) (d : Dest) (y u v : Int) : State :=
  { running f 6#32 1#32 with src := 60, lineEnd := 64, dest := d, yp := y, up := u, vp := v }

theorem test_witness_RegisterWriteByOffset :
    busy (running .validating 6#32 1#32) = true ∧ busy (running .completing 6#32 1#32) = true ∧
      busy finished = false ∧ busy State.reset = false ∧
      (0x00#32 ≠ 0x00000001#32 ∧ 0x00#32 ≠ 0x00000002#32) ∧
      (0x03#32 ≠ 0x00000001#32 ∧ 0x03#32 ≠ 0x00000002#32) ∧
      (0x01#32 % 4#32 ≠ 0#32) ∧ (0x1F#32 % 4#32 ≠ 0#32) ∧ 0x20#32 ≤ 0x20#32 ∧
      0x20#32 ≤ 0xFFFFFFFC#32 ∧ ¬(0x1C#32 % 4#32 ≠ 0#32 ∨ 0x20#32 ≤ 0x1C#32) ∧
      ¬(0x00#32 % 4#32 ≠ 0#32 ∨ 0x20#32 ≤ 0x00#32) := by decide

theorem test_witness_RegisterReadByOffset :
    busy midRow = true ∧ (0x08#32 ≠ 0x04#32 ∧ 0x08#32 ≠ 0x18#32 ∧ 0x08#32 ≠ 0x1C#32) ∧
      (0x20#32 ≠ 0x04#32 ∧ 0x20#32 ≠ 0x18#32 ∧ 0x20#32 ≠ 0x1C#32) ∧
      busy finished = false ∧ finished.wrW = true ∧ finished.wrH = true ∧ finished.wrT = false ∧
      finished.wrL = true ∧ State.reset.wrW = false ∧ 0x06#32 % 4#32 ≠ 0#32 ∧
      0x20#32 ≤ 0x20#32 := by decide

theorem test_witness_DecodeCommandAcceptance :
    busy midRow = true ∧ { State.reset with fsm := .closed }.fsm = .closed ∧
      { State.reset with fsm := .reserved }.fsm = .reserved ∧ State.reset.fsm = .idle ∧
      State.reset.wrW = false ∧
      (let s := configured 6#32 1#32 65#32
       s.fsm = .idle ∧ s.wrW = true ∧ s.wrH = true ∧ s.wrL = true ∧ s.pktCap < s.pktLen.toNat) ∧
      (let s := { configured 6#32 1#32 64#32 with fsm := .failed }
       s.fsm = .failed ∧ s.wrW = true ∧ s.wrH = true ∧ s.wrL = true ∧
         s.pktLen.toNat ≤ s.pktCap) := by decide

theorem test_witness_ShutdownCommandAcceptance :
    busy midRow = true ∧ { State.reset with fsm := .closed }.fsm = .closed ∧
      { State.reset with fsm := .reserved }.fsm = .reserved ∧ State.reset.fsm = .idle ∧
      finished.fsm = .done ∧ finished.slot.isSome = true := by decide

theorem test_witness_PacketWriteStoresOneByte :
    busy midRow = true ∧ busy State.reset = false ∧ (-1 : Int) < 0 ∧
      (State.reset.pktCap : Int) ≤ 64 ∧ (0 : Int) ≤ 0 ∧ (0 : Int) < State.reset.pktCap ∧
      (0 : Int) ≤ 63 ∧ (63 : Int) < State.reset.pktCap ∧ ¬(64 : Int) < State.reset.pktCap ∧
      (0 : Nat) ≠ (63 : Int).toNat := by decide

/-- A held frame with its last luma sample written. -/
def held : State := { finished with slot := some ((frame 6 1).write .y 0 5 0x5540#16) }

theorem test_witness_FrameReadReturnsTheSample :
    busy midRow = true ∧ busy held = false ∧
      held.slot = some ((frame 6 1).write .y 0 5 0x5540#16) ∧
      ((frame 6 1).write .y 0 5 0x5540#16).handle = 5#32 ∧ sampleAt held .y 0 5 = some 0x5540#16 ∧
      sampleAt held .y 0 6 = none ∧ sampleAt held .u 0 3 = none ∧ sampleAt held .y 1 0 = none ∧
      sampleAt held .y (-1) 0 = none ∧ sampleAt held .y 0 (-1) = none := by decide

theorem test_witness_FrameReadReturnsTheSample_handle :
    (∀ f, held.slot = some f → f.handle ≠ 6#32) ∧
      ∀ f, State.reset.slot = some f → f.handle ≠ 0#32 := by
  constructor
  · intro f h
    cases h
    decide
  · intro f h
    cases h

theorem test_witness_BusyHazard :
    busy midRow = true ∧ isEngineStep (.regWrite 0x08#32 8#32) = false ∧
      allowedBusy (.regWrite 0x08#32 8#32) = false ∧ isEngineStep .shutdown = false ∧
      allowedBusy .shutdown = false ∧ isEngineStep (.regRead 0x1C#32) = false ∧
      allowedBusy (.regRead 0x1C#32) = true ∧ allowedBusy (.regRead 0x14#32) = false ∧
      isEngineStep .reset = false ∧ allowedBusy .reset = true := by decide

theorem test_witness_EngineStepsDoNotSeeHostReads :
    isEngineStep .validate = true ∧ isEngineStep .reservedFsm = true ∧ isEngineStep .unpackW2 = true ∧
      busy midRow = true := by decide

theorem test_witness_TagHasNoEffect :
    .regRead 0x14#32 ≠ Instr.regRead 0x10#32 ∧ .regRead 0x14#32 ≠ Instr.reset ∧
      (∀ x, .regRead 0x14#32 ≠ Instr.regWrite 0x10#32 x) ∧
      ∀ x, .regWrite 0x0C#32 1#32 ≠ Instr.regWrite 0x10#32 x := by
  refine ⟨by decide, by decide, fun x h => ?_, fun x h => ?_⟩ <;> simp at h

theorem test_witness_ValidateChecksGeometryThenLength :
    widthOf (configured 1#32 1#32 5#32) ≤ 1 ∧ heightOf (configured 2#32 0#32 5#32) ≤ 0 ∧
      (let s := configured 2#32 1#32 4#32
       1 < widthOf s ∧ 0 < heightOf s ∧ lengthOf s < heightOf s * (widthOf s * 8 / 3)) ∧
      (let s := configured 2#32 1#32 5#32
       1 < widthOf s ∧ 0 < heightOf s ∧ heightOf s * (widthOf s * 8 / 3) ≤ lengthOf s) := by decide

theorem test_witness_AcquireReleasesThenTakesTheAnswer :
    { running .allocating 6#32 1#32 with answers := [.fail] }.answers = .fail :: [] ∧
      { running .allocating 6#32 1#32 with answers := [.ok 5#32, .fail] }.answers =
        .ok 5#32 :: [.fail] ∧ 5#32 ≠ 0#32 ∧ 5#32 ∉ (running .allocating 6#32 1#32).dropped := by
  decide

theorem test_witness_AcquireCompletesOnAnyDraw :
    (running .allocating 6#32 1#32).answers = [] ∧
      { running .allocating 6#32 1#32 with answers := [.ok 0#32] }.answers = .ok 0#32 :: [] ∧
      (let s := { running .allocating 6#32 1#32 with answers := [.ok 9#32], dropped := [9#32] }
       s.answers = .ok 9#32 :: [] ∧ 9#32 ∈ s.dropped) := by decide

theorem test_witness_HextetSelectChoosesTheDestination :
    (let s := { running .hextetSelect 11#32 1#32 with col := 6 }
     widthOf s - s.col < 6) ∧
      (let s := { running .hextetSelect 12#32 1#32 with col := 6, src := 16, lineEnd := 31 }
       6 ≤ widthOf s - s.col ∧ s.lineEnd - s.src < 16) ∧
      (let s := { running .hextetSelect 12#32 1#32 with col := 6, src := 16, lineEnd := 32 }
       6 ≤ widthOf s - s.col ∧ 16 ≤ s.lineEnd - s.src) := by decide

theorem test_witness_WordGuardStopsTheRow :
    let s := { running .word2 2#32 1#32 with src := 4, lineEnd := 7 }
    s.lineEnd - s.src < 4 := by decide

theorem test_witness_Word1EmitsUYV :
    (let s := { running .word1 2#32 1#32 with src := 4, lineEnd := 7 }
     s.lineEnd - s.src < 4) ∧
      (let s := lastWord .word1 .real 5 2 2
       4 ≤ s.lineEnd - s.src ∧ 0 ≤ s.src ∧ s.src + 4 ≤ s.pktCap ∧ s.dest = .real ∧
        s.slot = some (frame 6 1) ∧ (frame 6 1).inRange .u s.row s.up ∧
        (frame 6 1).inRange .y s.row s.yp ∧ (frame 6 1).inRange .v s.row s.vp) ∧
      (let s := lastWord .word1 .scratch 5 2 2
       4 ≤ s.lineEnd - s.src ∧ 0 ≤ s.src ∧ s.src + 4 ≤ s.pktCap ∧ s.dest = .scratch ∧
        (0 ≤ s.up ∧ s.up < 3) ∧ (0 ≤ s.yp ∧ s.yp < 6) ∧ 0 ≤ s.vp ∧ s.vp < 3) := by decide

theorem test_witness_Word2EmitsYUY :
    (let s := { running .word2 2#32 1#32 with src := 4, lineEnd := 7 }
     s.lineEnd - s.src < 4) ∧
      (let s := lastWord .word2 .real 4 2 2
       4 ≤ s.lineEnd - s.src ∧ 0 ≤ s.src ∧ s.src + 4 ≤ s.pktCap ∧ s.dest = .real ∧
        s.slot = some (frame 6 1) ∧ (frame 6 1).inRange .y s.row s.yp ∧
        (frame 6 1).inRange .u s.row s.up ∧ (frame 6 1).inRange .y s.row (s.yp + 1)) ∧
      (let s := lastWord .word2 .scratch 4 2 2
       4 ≤ s.lineEnd - s.src ∧ 0 ≤ s.src ∧ s.src + 4 ≤ s.pktCap ∧ s.dest = .scratch ∧
        (0 ≤ s.yp ∧ s.yp + 1 < 6) ∧ 0 ≤ s.up ∧ s.up < 3) := by decide

theorem test_witness_Word3EmitsVYU :
    (let s := { running .word3 2#32 1#32 with src := 4, lineEnd := 7 }
     s.lineEnd - s.src < 4) ∧
      (let s := lastWord .word3 .real 5 2 2
       4 ≤ s.lineEnd - s.src ∧ 0 ≤ s.src ∧ s.src + 4 ≤ s.pktCap ∧ s.dest = .real ∧
        s.slot = some (frame 6 1) ∧ (frame 6 1).inRange .v s.row s.vp ∧
        (frame 6 1).inRange .y s.row s.yp ∧ (frame 6 1).inRange .u s.row s.up) ∧
      (let s := lastWord .word3 .scratch 5 2 2
       4 ≤ s.lineEnd - s.src ∧ 0 ≤ s.src ∧ s.src + 4 ≤ s.pktCap ∧ s.dest = .scratch ∧
        (0 ≤ s.vp ∧ s.vp < 3) ∧ (0 ≤ s.yp ∧ s.yp < 6) ∧ 0 ≤ s.up ∧ s.up < 3) := by decide

theorem test_witness_Word4EmitsYVY :
    (let s := { running .word4 2#32 1#32 with src := 4, lineEnd := 7 }
     s.lineEnd - s.src < 4) ∧
      (let s := lastWord .word4 .real 4 2 2
       4 ≤ s.lineEnd - s.src ∧ 0 ≤ s.src ∧ s.src + 4 ≤ s.pktCap ∧ s.dest = .real ∧
        s.slot = some (frame 6 1) ∧ (frame 6 1).inRange .y s.row s.yp ∧
        (frame 6 1).inRange .v s.row s.vp ∧ (frame 6 1).inRange .y s.row (s.yp + 1)) ∧
      (let s := lastWord .word4 .scratch 4 2 2
       4 ≤ s.lineEnd - s.src ∧ 0 ≤ s.src ∧ s.src + 4 ≤ s.pktCap ∧ s.dest = .scratch ∧
        (0 ≤ s.yp ∧ s.yp + 1 < 6) ∧ 0 ≤ s.vp ∧ s.vp < 3) := by decide

theorem test_witness_PlaneWriteSetsOneSample :
    finished.slot = some (frame 6 1) ∧ (frame 6 1).inRange .y 0 5 ∧ (frame 6 1).inRange .v 0 2 ∧
      ¬(Plane.u = .y ∧ (0 : Int) = 0 ∧ (0 : Int) = 5) := by decide

/-- A partial hextet of `n` columns after one full hextet. -/
def partialMerge (n : Word) : State :=
  { running .merge (6#32 + n) 1#32 with
    col := 6, dest := .scratch, slot := some (frame (6 + n.toInt) 1) }

theorem test_witness_MergeBackCopiesTheValidPrefix :
    (let s := { running .merge 6#32 1#32 with col := 6 }
     widthOf s ≤ s.col) ∧
      (let s := { running .merge 6#32 1#32 with col := 5, dest := .real }
       s.col < widthOf s ∧ s.dest = .real) ∧
      (let s := { running .merge 12#32 1#32 with col := 6, dest := .scratch }
       s.col < widthOf s ∧ 6 ≤ widthOf s - s.col) ∧
      (let s := partialMerge 1#32
       let f := frame 7 1
       s.slot = some f ∧ f.w = widthOf s ∧ 0 ≤ s.row ∧ s.row < f.h ∧ s.col % 2 = 0 ∧ 0 ≤ s.col ∧
         s.col < widthOf s ∧ s.dest = .scratch ∧ widthOf s - s.col < 6) ∧
      (let s := partialMerge 5#32
       let f := frame 11 1
       s.slot = some f ∧ f.w = widthOf s ∧ 0 ≤ s.row ∧ s.row < f.h ∧ s.col % 2 = 0 ∧ 0 ≤ s.col ∧
         s.col < widthOf s ∧ s.dest = .scratch ∧ widthOf s - s.col < 6) := by decide

theorem test_witness_ReservedStateStops :
    finished.fsm ≠ .reserved ∧ exec .complete finished =
      .next { finished with keyFrame := true, gotFrame := true, consumed := 16#32, fsm := .done } :=
  ⟨by decide, rfl⟩

theorem test_witness_FieldExtractionProperties :
    0xC0000000#32 ∈ [0x00000000#32, 0xC0000000#32] ∧
      0xFFFFFFFF#32 ∈ [0x3FFFFFFF#32, 0xFFFFFFFF#32] := by decide

theorem test_witness_PacketWordRoundTrip :
    busy State.reset = false ∧ 0 + 4 ≤ State.reset.pktCap ∧ 60 + 4 ≤ State.reset.pktCap := by decide

theorem test_witness_FullHextetNetEffect :
    let s := running .word1 6#32 1#32
    let f := frame 6 1
    s.dest = .real ∧ s.slot = some f ∧ s.col % 6 = 0 ∧ 0 ≤ s.col ∧ s.yp = s.col ∧
      s.up = s.col / 2 ∧ s.vp = s.col / 2 ∧ f.w = widthOf s ∧ 6 ≤ widthOf s - s.col ∧ 0 ≤ s.row ∧
      s.row < f.h ∧ 16 ≤ s.lineEnd - s.src ∧ 0 ≤ s.src ∧ s.src + 16 ≤ s.pktCap ∧
      ∀ k : Nat, k < 16 → (pktAt s (s.src.toNat + k)).isSome := by decide

theorem test_witness_PartialHextetOutcome :
    (2 : Int) ≤ 7 ∧ (7 : Int) % 6 = 1 ∧ (2 : Int) ≤ 2 ∧ (2 : Int) % 6 = 2 ∧ (2 : Int) ≤ 3 ∧
      (3 : Int) % 6 = 3 ∧ (2 : Int) ≤ 4 ∧ (4 : Int) % 6 = 4 ∧ (2 : Int) ≤ 5 ∧ (5 : Int) % 6 = 5 ∧
      (0 : Int) ≤ 0 := by decide

/-- Two packets of width 2 that differ in the byte after the row's only word. -/
theorem test_witness_RowsDependOnTheirSliceAlone :
    let pkt := packet 0 [0x11#8, 0x36#8, 0x5B#8, 0x80#8, 0xA5#8]
    let pkt' := packet 0 [0x11#8, 0x36#8, 0x5B#8, 0x80#8, 0xAA#8]
    pkt ≠ pkt' ∧ (0 : Int) ≤ 0 ∧ (1 : Int) < planeColumns .y 2 ∧
      ∀ o : Nat, (0 : Int) * rowStride 2 ≤ o →
        (o : Int) < 0 * rowStride 2 + 16 * (2 / 6) + 4 * (8 * (2 % 6) / 3 / 4) →
        Memory.read (n := 8) pkt o = Memory.read (n := 8) pkt' o := by
  have h : ∀ o < 4, Memory.read (n := 8) (packet 0 [0x11#8, 0x36#8, 0x5B#8, 0x80#8, 0xA5#8]) o =
      Memory.read (n := 8) (packet 0 [0x11#8, 0x36#8, 0x5B#8, 0x80#8, 0xAA#8]) o := by decide
  refine ⟨by decide, by decide, by decide, fun o _ ho => h o ?_⟩
  have : (0 : Int) * rowStride 2 + 16 * (2 / 6) + 4 * (8 * (2 % 6) / 3 / 4) = 4 := by decide
  omega

/-! The invariants, at `midRow`. -/

theorem test_witness_StepKeepsStorageCanonical :
    StorageInv midRow ∧ after (step midRow) (fun _ => true) = true := by
  refine ⟨⟨by decide, by decide, fun f h p => ?_⟩, by decide⟩
  cases h
  cases p <;> exact ⟨by decide, by decide⟩

/-- Every scratch entry of `midRow` is neutral. -/
theorem midRow_scratch (p : Plane) : ∀ v ∈ scratchList p midRow, v = neutral := by
  cases p <;> simp [scratchList, midRow]

theorem test_witness_StepKeepsLowBitsClear :
    LowBitsInv midRow ∧ after (step midRow) (fun _ => true) = true := by
  refine ⟨⟨fun f h p => ?_, fun _ p x hx => ?_⟩, by decide⟩
  · cases h
    cases p <;> unfold LowBitsClear <;> decide
  · rw [midRow_scratch p x hx]
    unfold LowBitsClear
    decide

/-- R169 item 2: a second release is out of order; and the history at the end of program P2. -/
theorem test_history_order :
    outstanding [.acquire 6 1 (.ok 5#32), .release 5#32, .release 5#32] = none ∧
      outstanding [.acquire 8 2 (.ok 0x21#32), .release 0x21#32, .acquire 2 1 (.ok 0x22#32)] =
        some [0x22#32] := by decide

theorem test_witness_StepKeepsFrameOwnership :
    OwnershipInv midRow ∧ after (step midRow) (fun _ => true) = true := by
  unfold OwnershipInv
  decide

theorem test_witness_StepKeepsStatusConsistent :
    StatusInv midRow ∧ StatusInv { finished with fsm := .done } ∧
      after (step midRow) (fun _ => true) = true := by
  unfold StatusInv
  decide

/-- `midRow` meets the engine invariant. -/
theorem midRow_engine : EngineInv midRow :=
  ⟨⟨⟨⟨⟨⟨by decide, by decide, by decide, by decide⟩, by decide, by decide, by decide, by decide⟩,
    ⟨_, rfl, by decide, by decide⟩⟩, by decide, by decide⟩, by decide, by decide, by decide,
    by decide⟩, by decide, by decide, by decide, by decide⟩

theorem test_witness_StepKeepsEngineInvariant :
    EngineInv midRow ∧ after (step midRow) (fun _ => true) = true := ⟨midRow_engine, by decide⟩

/-- The host's turn in WORD2, with a write that the busy check stops. -/
theorem test_witness_NoEngineFaultUnderInvariant :
    EngineInv { midRow with program := [.op (.regWrite 0x08#32 8#32)], sched := [.host] } ∧
      faults (step { midRow with program := [.op (.regWrite 0x08#32 8#32)], sched := [.host] })
        .busyAccess = true := ⟨midRow_engine, by decide⟩

/-- A place of `midRow` that counts as filled is column 0. -/
theorem midRow_filled {p : Plane} {r c : Int} (h0 : 0 ≤ r ∧ 0 ≤ c)
    (h : r < midRow.row ∨ r = midRow.row ∧ c < columnsDone midRow p) : r = 0 ∧ c = 0 := by
  have h1 : midRow.row = 0 := rfl
  have h2 : columnsDone midRow p = 1 := by cases p <;> decide
  omega

theorem test_witness_StepKeepsFramesFilled :
    EngineInv midRow ∧ FilledInv midRow ∧ after (step midRow) (fun _ => true) = true := by
  refine ⟨midRow_engine, fun f h p r c hr hd => ?_, by decide⟩
  have hp : 0 ≤ r ∧ 0 ≤ c := by
    simp only [Frame.inRange, decide_eq_true_eq] at hr
    exact ⟨hr.1, hr.2.2.1⟩
  obtain ⟨rfl, rfl⟩ := midRow_filled hp (hd (by decide))
  cases h
  unfold SampleWritten
  cases p <;> decide

theorem test_witness_StepKeepsDecodedContent :
    EngineInv midRow ∧ ContentInv midRow ∧ holdsFrame midRow.fsm = true ∧
      (∀ o < 16, (pktAt midRow o).isSome) ∧ after (step midRow) (fun _ => true) = true := by
  refine ⟨midRow_engine, fun _ _ => ⟨fun f h p r c hr hd => ?_, fun p i v hv => ?_⟩, by decide,
    by decide, by decide⟩
  · have hp : 0 ≤ r ∧ 0 ≤ c := by
      simp only [Frame.inRange, decide_eq_true_eq] at hr
      exact ⟨hr.1, hr.2.2.1⟩
    obtain ⟨rfl, rfl⟩ := midRow_filled hp hd
    cases h
    cases p <;> decide
  · have hl : v ∈ scratchList p midRow := List.mem_of_getElem? hv
    show v = _
    rw [if_neg (by intro hd; exact absurd hd.1 (by decide))]
    exact midRow_scratch p v hl

/-! Counting and whole runs. -/

theorem test_witness_EngineStepsCountDown :
    EngineInv midRow ∧ holdsFrame midRow.fsm = true ∧ decode (.fsm midRow.fsm.code) = .ok .unpackW2 ∧
      remainingSteps midRow = 6 := ⟨midRow_engine, by decide⟩

theorem test_witness_EngineStepsFollowTheTable :
    decode (.fsm midRow.fsm.code) = .ok .unpackW2 ∧
      after (exec .unpackW2 midRow) (fun _ => true) = true ∧
      decode (.fsm (Fsm.code .completing)) = .ok .complete ∧
      after (exec .complete { midRow with fsm := .completing }) (fun _ => true) = true := by decide

theorem test_witness_EngineStepsLeaveTheHostSide :
    isEngineStep .unpackW2 = true ∧ after (exec .unpackW2 midRow) (fun _ => true) = true := by decide

theorem test_witness_HostOperationsLeaveTheFrame :
    isEngineStep (.regWrite 0x08#32 2#32) = false ∧ .regWrite 0x08#32 2#32 ≠ Instr.shutdown ∧
      .regWrite 0x08#32 2#32 ≠ Instr.regWrite 0x00#32 0x00000002#32 ∧
      .regWrite 0x08#32 2#32 ≠ Instr.reset ∧
      after (exec (.regWrite 0x08#32 2#32) finished) (fun _ => true) = true := by decide

/-- V15b: the smallest decode, WIDTH = 2 and HEIGHT = 1. -/
def smallest : State :=
  { configured 2#32 1#32 5#32 with
    fsm := .validating, answers := [.ok 0x31#32]
    pkt := packet 0 [0x11#8, 0x36#8, 0x5B#8, 0x80#8, 0xA5#8] }

theorem test_witness_DecodeRunsToDone :
    EngineInv smallest ∧ StatusInv smallest ∧ smallest.fsm = .validating ∧ smallest.sched = [] ∧
      2 ≤ widthOf smallest ∧ 1 ≤ heightOf smallest ∧
      heightOf smallest * rowStride (widthOf smallest) ≤ lengthOf smallest ∧
      PacketWritten smallest ∧ smallest.answers = .ok 0x31#32 :: [] ∧ 0x31#32 ≠ 0#32 ∧
      0x31#32 ∉ smallest.dropped := by
  have hw : ∀ o < 5, (pktAt smallest o).isSome := by decide
  refine ⟨⟨by decide, by decide, by decide, by decide⟩, by unfold StatusInv; decide, by decide,
    by decide, by decide, by decide, by decide, fun o ho => hw o ?_, by decide, by decide, by decide⟩
  have : heightOf smallest * rowStride (widthOf smallest) = 5 := by decide
  omega

theorem test_witness_StepRunsTheFetchedOperation :
    (decode (.fsm midRow.fsm.code) = .ok .unpackW2 ∧ midRow.sched.head? ≠ some .host) ∧
      (let s := { midRow with sched := [.host] }
       decode (.fsm s.fsm.code) = .ok .unpackW2 ∧ s.program = []) ∧
      (let s := { midRow with program := [.op (.regRead 0x04#32), .wait], sched := [.host] }
       s.program = .op (.regRead 0x04#32) :: [.wait] ∧
        decode (.bus (.regRead 0x04#32)) = .ok (.regRead 0x04#32) ∧ s.sched.head? = some .host) ∧
      (decode (.fsm (Fsm.code finished.fsm)) = .error (.noStep 0xC#4)) ∧
      (decode (.bus (.frameRead 5#32 3 0 0)) = .error (.badPlane 3)) ∧
      { midRow with program := [.wait], sched := [.host] }.program = .wait :: [] ∧
      finished.program = [] := by decide

theorem test_witness_DecodeEncodeAgree :
    (Instr.regWrite 0x00#32 0x00000003#32).wf = true ∧ (Instr.pktWrite (-1) 0#8).wf = true ∧
      decode (.fsm 0xB#4) = .ok .complete ∧
      decode (.bus (.regWrite 0x00#32 0x00000001#32)) = .ok .decode := by decide

theorem test_witness_PlaneRowBytes :
    (((2 : Nat) : Int) < (frame 5 1).columns .u) ∧
      2 * ((frame 5 1).columns .u).toNat ≤ 6 := by decide

end Sys2Proof.Tests
end

section
/-! PROOF. Engine steps inverted once: which step ran, in which state. -/

namespace Sys2Proof.Machine

open Sys2Proof.Safety

/-- The word steps by state: the planes of the word's fields a, b, c and the continuation (R185 to
R188). -/
inductive WordRow : Fsm → Plane → Plane → Plane → (State → State) → Prop
  | word1 : WordRow .word1 .u .y .v fun t => { t with fsm := .word2 }
  | word2 : WordRow .word2 .y .u .y fun t => { t with fsm := .word3 }
  | word3 : WordRow .word3 .v .y .u fun t => { t with fsm := .word4 }
  | word4 : WordRow .word4 .y .v .y endHextet

section

variable {f : Fsm} {pa pb pc : Plane} {k : State → State}

theorem wordRow_scratchLive (h : WordRow f pa pb pc k) : scratchLive f := by cases h <;> rfl

theorem wordRow_holdsFrame (h : WordRow f pa pb pc k) : holdsFrame f := by cases h <;> rfl

/-- The continuation of a word step writes x at most, and stays in the row (R185 to R188). -/
theorem wordRow_continues (h : WordRow f pa pb pc k) (u : State) :
    ∃ g c, k u = { u with fsm := g, col := c } ∧ holdsFrame g := by
  cases h with
  | word4 => exact ⟨_, _, endHextet_eq u, by split_ifs <;> rfl⟩
  | _ => exact ⟨_, u.col, rfl, rfl⟩

end

/-- The engine step that ran in `s` and answered `t`, with the state code that selects it (R105). -/
inductive EngineRan (s t : State) : Prop
  | validate (hf : s.fsm = .validating) (h : execValidate s = .next t)
  | acquire (hf : s.fsm = .allocating) (h : execAcquire s = .next t)
  | rowBegin (hf : s.fsm = .rowBegin) (h : execRowBegin s = .next t)
  | hextetSelect (hf : s.fsm = .hextetSelect) (h : execHextetSelect s = .next t)
  | word (pa pb pc : Plane) (k : State → State) (hrow : WordRow s.fsm pa pb pc k)
      (h : wordStep pa pb pc k s = .next t)
  | mergeBack (hf : s.fsm = .merge) (h : execMergeBack s = .next t)
  | rowEnd (hf : s.fsm = .rowEnd) (h : execRowEnd s = .next t)
  | complete (hf : s.fsm = .completing) (h : execComplete s = .next t)

/-- The operation a state code selects, when it answers, is the engine step of that code. -/
theorem exec_engine {i : Instr} {s t : State} (hd : decode (.fsm s.fsm.code) = .ok i)
    (h : exec i s = .next t) : EngineRan s t := by
  rw [decode_fsm_eq] at hd
  cases hf : s.fsm <;> rw [hf] at hd <;> cases hd
  case validating => exact .validate hf h
  case allocating => exact .acquire hf h
  case rowBegin => exact .rowBegin hf h
  case hextetSelect => exact .hextetSelect hf h
  case word1 => exact .word _ _ _ _ (hf ▸ .word1) h
  case word2 => exact .word _ _ _ _ (hf ▸ .word2) h
  case word3 => exact .word _ _ _ _ (hf ▸ .word3) h
  case word4 => exact .word _ _ _ _ (hf ▸ .word4) h
  case merge => exact .mergeBack hf h
  case rowEnd => exact .rowEnd hf h
  case completing => exact .complete hf h
  case reserved => cases h

/-- A property blind to the turn and the program, and kept by what a host operation does and by what the
engine's own step does, is kept by every step. -/
theorem step_keeps_of_parts {P : State → Prop} (hturn : ∀ s, P s → P (useTurn s))
    (hpop : ∀ s, P s → P (popProgram s)) (hhost : ∀ s t, P s → HostDone s t → P t)
    (hengine : ∀ s t, P s → EngineRan s t → P t) {s t : State} (hs : P s)
    (h : step s = .next t) : P t :=
  step_keeps hturn hpop
    (fun _ s t hs hi he => hi.elim (fun hd => hengine s t hs (exec_engine hd he))
      fun hh => hhost s t hs (exec_host hh he)) hs h

end Sys2Proof.Machine
end

section
/-! PROOF. Bits 5:0 of written samples and scratch entries (R31, R236). -/

namespace Sys2Proof.Machine

open Sys2Proof.Safety

/-- Bits 5:0 of a sample are 0 exactly when each of the six bits is. -/
theorem lowBitsClear_iff {v : Sample} : LowBitsClear v ↔ ∀ i < 6, v.getLsbD i = false := by
  have hmask : ∀ i < 16, (0x003F#16).getLsbD i = decide (i < 6) := by decide
  constructor
  · intro h i hi
    have hb := congrArg (·.getLsbD i) h
    simpa [hmask i (by omega), hi] using hb
  · intro h
    apply BitVec.eq_of_getLsbD_eq
    intro i hi
    by_cases h6 : i < 6
    · simp [h i h6]
    · simp [hmask i hi, h6]

theorem lowBitsClear_neutral : LowBitsClear neutral := by rw [LowBitsClear]; decide

/-- The fields of a word are left-justified (R183). -/
theorem lowBitsClear_field {t : Word} {v : Sample}
    (h : v = fieldA t ∨ v = fieldB t ∨ v = fieldC t) : LowBitsClear v := by
  rw [lowBitsClear_iff]
  intro i hi
  have h6 : ¬ 6 ≤ i := by omega
  rcases h with rfl | rfl | rfl
  · simp [getLsbD_fieldA t (show i < 16 by omega), h6]
  · simp [getLsbD_fieldB t (show i < 16 by omega), h6]
  · simp [getLsbD_fieldC t (show i < 16 by omega), h6]

/-- Every sample written to a frame has bits 5:0 equal to 0. -/
def FrameClear (f : Frame) : Prop := ∀ p, ∀ e ∈ f.storage p, LowBitsClear e.2

/-- Every sample written to the frame in the slot has bits 5:0 equal to 0. -/
def SlotClear (s : State) : Prop := ∀ f, s.slot = some f → FrameClear f

/-- Every scratch entry has bits 5:0 equal to 0. -/
def ScratchClear (s : State) : Prop := ∀ p, ∀ v ∈ scratchList p s, LowBitsClear v

theorem lowBitsInv_iff {s : State} :
    LowBitsInv s ↔ SlotClear s ∧ (scratchLive s.fsm → ScratchClear s) := Iff.rfl

theorem slotClear_of_empty {s : State} (h : s.slot = none) : SlotClear s := by
  intro f hf
  rw [h] at hf
  cases hf

theorem frameClear_newFrame (h : Word) (w hgt : Int) (fill : Nat) :
    FrameClear (newFrame h w hgt fill) := by
  intro p
  cases p <;> simp [newFrame, Frame.storage]

theorem frameClear_write {f : Frame} {v : Sample} (hf : FrameClear f) (hv : LowBitsClear v)
    (p : Plane) (r c : Int) : FrameClear (f.write p r c v) := by
  intro q e he
  rw [write_storage] at he
  split at he
  · rcases memory_mem_write he with rfl | he
    · exact hv
    · exact hf p e he
  · exact hf q e he

theorem frameClear_writeRun {f : Frame} {l : List Sample} (hf : FrameClear f)
    (hl : ∀ v ∈ l, LowBitsClear v) (p : Plane) (r c : Int) : FrameClear (f.writeRun p r c l) := by
  induction l generalizing f c with
  | nil => exact hf
  | cons v rest ih =>
    rw [List.forall_mem_cons] at hl
    exact ih (frameClear_write hf hl.1 p r c) hl.2 (c + 1)

theorem scratchClear_withScratch {s : State} {v : Sample} (hs : ScratchClear s)
    (hv : LowBitsClear v) (p : Plane) (i : Nat) : ScratchClear (withScratch p i v s) := by
  intro q w hw
  rw [withScratch_list] at hw
  split at hw
  · rcases List.mem_or_eq_of_mem_set hw with hw | rfl
    · exact hs p w hw
    · exact hv
  · exact hs q w hw

/-- WriteY, WriteU and WriteV of a sample with clear low bits (R182). -/
theorem clear_writeSample {p : Plane} {v : Sample} {s t : State} (hv : LowBitsClear v)
    (hs : SlotClear s ∧ ScratchClear s) (h : writeSample p v s = .next t) :
    SlotClear t ∧ ScratchClear t := by
  obtain ⟨hslot, hscratch⟩ := hs
  have hadv : ∀ u, SlotClear u ∧ ScratchClear u →
      SlotClear (advance p u) ∧ ScratchClear (advance p u) := by
    intro u hu
    cases p <;> exact hu
  rcases writeSample_next.mp h with ⟨-, f, hf, -, rfl⟩ | ⟨-, -, -, rfl⟩
  · refine hadv _ ⟨?_, hscratch⟩
    rintro g hg
    cases hg
    exact frameClear_write (hslot f hf) hv p _ _
  · refine hadv _ ⟨?_, scratchClear_withScratch hscratch hv p _⟩
    cases p <;> exact hslot

/-- The word steps keep the low bits of samples and scratch entries at 0 (R183, R185 to R188). -/
theorem clear_wordStep {pa pb pc : Plane} {k : State → State} {s t : State}
    (hrow : WordRow s.fsm pa pb pc k) (hs : SlotClear s ∧ ScratchClear s)
    (h : wordStep pa pb pc k s = .next t) :
    SlotClear t ∧ ScratchClear t := by
  refine wordStep_keeps (P := fun u => SlotClear u ∧ ScratchClear u) (fun _ hu => hu)
    (fun _ _ hu => hu) (fun p w u u' hu v hv hw => clear_writeSample (lowBitsClear_field hv) hu hw)
    ?_ hs h
  intro u hu
  obtain ⟨f, c, e, -⟩ := wordRow_continues hrow u
  rw [e]
  exact hu

/-- MERGE_BACK copies scratch entries only (R205). -/
theorem clear_mergeBack {s t : State} (hs : SlotClear s ∧ ScratchClear s)
    (h : execMergeBack s = .next t) : SlotClear t ∧ ScratchClear t := by
  obtain ⟨hslot, hscratch⟩ := hs
  rcases mergeBack_next h with ⟨-, rfl⟩ | ⟨-, -, -, ly, lu, lv, hy, hu, hv, rfl, -⟩
  · exact ⟨hslot, hscratch⟩
  · refine ⟨?_, hscratch⟩
    have htake : ∀ {p n l}, l = (scratchList p s).take n → ∀ v ∈ l, LowBitsClear v := by
      rintro p n _ rfl v hv
      exact hscratch p v (List.mem_of_mem_take hv)
    intro g hg
    obtain ⟨f, hf, rfl⟩ := Option.map_eq_some_iff.mp hg
    exact frameClear_writeRun (frameClear_writeRun (frameClear_writeRun (hslot f hf)
      (htake hy) _ _ _) (htake hu) _ _ _) (htake hv) _ _ _

/-- ROW_BEGIN refills the scratch buffers with the neutral value (R220). -/
theorem scratchClear_rowBegin {s t : State} (h : execRowBegin s = .next t) : ScratchClear t := by
  cases h
  intro p v hv
  have : v = neutral := by
    cases p <;> simpa [scratchList] using hv
  rw [this]
  exact lowBitsClear_neutral

/-- No host operation but RESET writes a sample or a scratch entry, and RESET leaves neither a frame nor
live scratch buffers (R280). -/
theorem lowBitsInv_host {s t : State} (hs : LowBitsInv s) (h : HostDone s t) : LowBitsInv t := by
  cases h with
  | start => exact ⟨hs.1, nofun⟩
  | close => exact ⟨slotClear_of_empty (by rw [closeBlock_eq]), nofun⟩
  | reset _ h => cases h; exact ⟨slotClear_of_empty rfl, nofun⟩
  | _ => exact hs

theorem lowBitsInv_engine {s t : State} (hs : LowBitsInv s) (h : EngineRan s t) :
    LowBitsInv t := by
  obtain ⟨hslot, hscratch⟩ := lowBitsInv_iff.mp hs
  cases h with
  | validate hf h =>
    rcases validate_next h with ⟨-, rfl⟩ | ⟨-, -, ⟨-, rfl⟩ | ⟨-, rfl⟩⟩ <;> exact ⟨hslot, nofun⟩
  | acquire hf h =>
    cases h
    obtain ⟨d, e | ⟨h, -, -, e⟩⟩ := acquireFrame_spec s <;> rw [e]
    · exact ⟨slotClear_of_empty rfl, nofun⟩
    · refine ⟨?_, nofun⟩
      rintro f ⟨⟩
      exact frameClear_newFrame _ _ _ _
  | rowBegin hf h =>
    have := scratchClear_rowBegin h
    cases h
    exact ⟨hslot, fun _ => this⟩
  | hextetSelect hf h =>
    have hlive := hscratch (by rw [hf]; rfl)
    rcases hextetSelect_next h with ⟨-, rfl⟩ | ⟨-, -, rfl⟩ <;> exact ⟨hslot, fun _ => hlive⟩
  | word pa pb pc k hrow h =>
    have hlive := hscratch (wordRow_scratchLive hrow)
    obtain ⟨ht, hst⟩ := clear_wordStep hrow ⟨hslot, hlive⟩ h
    exact ⟨ht, fun _ => hst⟩
  | mergeBack hf h =>
    obtain ⟨ht, hst⟩ := clear_mergeBack ⟨hslot, hscratch (by rw [hf]; rfl)⟩ h
    exact ⟨ht, fun _ => hst⟩
  | rowEnd hf h =>
    have hlive := hscratch (by rw [hf]; rfl)
    cases h
    exact ⟨hslot, fun _ => hlive⟩
  | complete hf h =>
    cases h
    exact ⟨hslot, nofun⟩

/-- Settles O36: every operation keeps the invariant, the word steps because a field is left-justified
and MERGE_BACK because it copies entries of live scratch buffers. -/
theorem stepKeepsLowBitsClear : Obligations.StepKeepsLowBitsClear := by
  intro s t hs h
  exact step_keeps_of_parts (fun _ hu => hu) (fun _ hu => hu) (fun _ _ => lowBitsInv_host)
    (fun _ _ => lowBitsInv_engine) hs h

end Sys2Proof.Machine
end

section
/-! PROOF. The status fields and the slot agree with the engine state (R51, R148, R255). -/

namespace Sys2Proof.Machine

open Sys2Proof.Safety

/-- No frame is reported and no byte consumed (R144). -/
def NothingReported (s : State) : Prop :=
  s.gotFrame = false ∧ s.keyFrame = false ∧ s.consumed = 0x00000000#32

/-- The status fields while a decode has no outcome: nothing reported, and no cause (R51, R144). -/
def StatusCleared (s : State) : Prop := NothingReported s ∧ s.cause = .none

/-- In every state but DONE and FAILED the status fields are clear (R51, R144). -/
theorem statusCleared_of_inv {s : State} (hs : StatusInv s) (hd : s.fsm ≠ .done)
    (hf : s.fsm ≠ .failed) : StatusCleared s := by
  obtain ⟨-, hgot, hkey, hcause, hconsumed, -, -⟩ := hs
  rw [decide_eq_false hd] at hgot
  exact ⟨⟨hgot, hkey.trans hgot, hconsumed hd⟩, hcause.mpr hf⟩

/-- A frame being filled is in the slot (R235). -/
theorem slot_of_inv {s : State} (hs : StatusInv s) (h : holdsFrame s.fsm) : s.slot.isSome := by
  obtain ⟨-, -, -, -, -, -, hslot⟩ := hs
  exact hslot (.inr h)

/-- With the status fields clear, the invariant is about the slot: empty in IDLE and CLOSED, full
while a frame is being filled. -/
theorem statusInv_of_cleared {s : State} (hs : StatusCleared s) (hr : s.fsm ≠ .reserved)
    (hd : s.fsm ≠ .done) (hf : s.fsm ≠ .failed)
    (hempty : s.fsm = .idle ∨ s.fsm = .closed → s.slot = none)
    (hfull : holdsFrame s.fsm → s.slot.isSome) : StatusInv s := by
  obtain ⟨⟨hgot, hkey, hconsumed⟩, hcause⟩ := hs
  refine ⟨hr, by simp [hgot, hd], hkey.trans hgot.symm, by simp [hcause, hf], fun _ => hconsumed, ?_,
    fun h => hfull (h.resolve_left hd)⟩
  rintro (h | h | h)
  · exact hempty (.inl h)
  · exact hempty (.inr h)
  · rw [hcause] at h; cases h

/-- A failed decode: nothing reported, a cause, and an empty slot where the pool gave no frame (R148,
R162, R255). -/
theorem statusInv_of_failed {s : State} (hf : s.fsm = .failed) (hs : NothingReported s)
    (hc : s.cause ≠ .none) (hempty : s.cause = .allocFailed → s.slot = none) : StatusInv s := by
  obtain ⟨hgot, hkey, hconsumed⟩ := hs
  refine ⟨by simp [hf], by simp [hf, hgot], hkey.trans hgot.symm, by simp [hc, hf],
    fun _ => hconsumed, ?_, by simp [hf, holdsFrame]⟩
  rintro (h | h | h)
  · rw [hf] at h; cases h
  · rw [hf] at h; cases h
  · exact hempty h

/-- A frame is being filled: it is in the slot, and the status fields are clear (R230). -/
def Filling (s : State) : Prop :=
  StatusCleared s ∧ s.slot.isSome ∧ holdsFrame s.fsm

theorem filling_of_inv {s : State} (hs : StatusInv s) (h : holdsFrame s.fsm) : Filling s := by
  refine ⟨statusCleared_of_inv hs ?_ ?_, slot_of_inv hs h, h⟩ <;>
  · intro e
    rw [e] at h
    cases h

theorem statusInv_of_filling {s : State} (h : Filling s) : StatusInv s := by
  obtain ⟨hs, hslot, hf⟩ := h
  have hne : ∀ f, holdsFrame f = false → s.fsm ≠ f := by
    rintro f h rfl
    rw [h] at hf
    cases hf
  refine statusInv_of_cleared hs (hne _ rfl) (hne _ rfl) (hne _ rfl) ?_ fun _ => hslot
  rintro (h | h)
  · exact absurd h (hne _ rfl)
  · exact absurd h (hne _ rfl)

/-- A word step writes no status field and stays in the row (R182, R185 to R188). -/
theorem filling_wordStep {pa pb pc : Plane} {k : State → State} {s t : State}
    (hrow : WordRow s.fsm pa pb pc k) (hs : Filling s) (h : wordStep pa pb pc k s = .next t) :
    Filling t := by
  refine wordStep_keeps (P := Filling) (fun u hu => ⟨hu.1, hu.2.1, rfl⟩) (fun _ _ hu => hu)
    ?_ ?_ hs h
  · rintro p w u u' ⟨⟨⟨hgot, hkey, hconsumed⟩, hcause⟩, hslot, hf⟩ v - hw
    have e := writeSample_frame hw
    exact ⟨⟨⟨e.gotFrame.trans hgot, e.keyFrame.trans hkey, e.consumed.trans hconsumed⟩,
      e.cause.trans hcause⟩, e.slotSome.trans hslot, by rw [e.fsm]; exact hf⟩
  · rintro u ⟨hu, hslot, -⟩
    obtain ⟨f, c, e, hf⟩ := wordRow_continues hrow u
    rw [e]
    exact ⟨hu, hslot, hf⟩

/-- MERGE_BACK writes no status field and keeps the frame in the slot (R205). -/
theorem filling_mergeBack {s t : State} (hs : Filling s) (h : execMergeBack s = .next t) :
    Filling t := by
  obtain ⟨hclear, hslot, -⟩ := hs
  rcases mergeBack_next h with ⟨-, rfl⟩ | ⟨-, -, -, _, _, _, -, -, -, rfl, -⟩
  · exact ⟨hclear, hslot, rfl⟩
  · exact ⟨hclear, by simpa using hslot, rfl⟩

theorem statusInv_host {s t : State} (hs : StatusInv s) (h : HostDone s t) : StatusInv t := by
  have hclear : StatusCleared (acceptCommand s) := ⟨⟨rfl, rfl, rfl⟩, rfl⟩
  cases h with
  | start => exact statusInv_of_cleared hclear nofun nofun nofun (by simp) nofun
  | close =>
    rw [closeBlock_eq]
    exact statusInv_of_cleared hclear nofun nofun nofun (fun _ => rfl) nofun
  | reset _ h =>
    cases h
    exact statusInv_of_cleared ⟨⟨rfl, rfl, rfl⟩, rfl⟩ nofun nofun nofun (fun _ => rfl) nofun
  | _ => exact hs

theorem statusInv_engine {s t : State} (hs : StatusInv s) (h : EngineRan s t) : StatusInv t := by
  cases h with
  | validate hf h =>
    have hclear := statusCleared_of_inv hs (by simp [hf]) (by simp [hf])
    rcases validate_next h with ⟨-, rfl⟩ | ⟨-, -, ⟨-, rfl⟩ | ⟨-, rfl⟩⟩
    · exact statusInv_of_failed rfl hclear.1 nofun nofun
    · exact statusInv_of_failed rfl hclear.1 nofun nofun
    · exact statusInv_of_cleared hclear nofun nofun nofun (by simp) nofun
  | acquire hf h =>
    have hclear := statusCleared_of_inv hs (by simp [hf]) (by simp [hf])
    cases h
    obtain ⟨d, e | ⟨hnd, -, -, e⟩⟩ := acquireFrame_spec s <;> rw [e]
    · exact statusInv_of_failed rfl hclear.1 nofun fun _ => rfl
    · exact statusInv_of_filling ⟨hclear, rfl, rfl⟩
  | rowBegin hf h =>
    obtain ⟨hclear, hslot, -⟩ := filling_of_inv hs (by rw [hf]; rfl)
    cases h
    exact statusInv_of_filling ⟨hclear, hslot, by dsimp only; split <;> rfl⟩
  | hextetSelect hf h =>
    obtain ⟨hclear, hslot, -⟩ := filling_of_inv hs (by rw [hf]; rfl)
    rcases hextetSelect_next h with ⟨-, rfl⟩ | ⟨-, -, rfl⟩ <;>
      exact statusInv_of_filling ⟨hclear, hslot, rfl⟩
  | word pa pb pc k hrow h =>
    have hfill := filling_of_inv hs (wordRow_holdsFrame hrow)
    exact statusInv_of_filling (filling_wordStep hrow hfill h)
  | mergeBack hf h =>
    exact statusInv_of_filling (filling_mergeBack (filling_of_inv hs (by rw [hf]; rfl)) h)
  | rowEnd hf h =>
    obtain ⟨hclear, hslot, -⟩ := filling_of_inv hs (by rw [hf]; rfl)
    cases h
    exact statusInv_of_filling ⟨hclear, hslot, by dsimp only; split <;> rfl⟩
  | complete hf h =>
    obtain ⟨⟨-, hcause⟩, hslot, -⟩ := filling_of_inv hs (by rw [hf]; rfl)
    cases h
    exact ⟨nofun, rfl, rfl, by simp [hcause], by simp, by simp [hcause], fun _ => hslot⟩

/-- Settles O38: in every state but DONE and FAILED the status fields are clear, and each operation that
enters another state sets the fields and the slot as that state demands. -/
theorem stepKeepsStatusConsistent : Obligations.StepKeepsStatusConsistent := by
  intro s t hs h
  exact step_keeps_of_parts (fun _ hu => hu) (fun _ hu => hu) (fun _ _ => statusInv_host)
    (fun _ _ => statusInv_engine) hs h

end Sys2Proof.Machine
end

section
/-! PROOF. The STATUS word bit by bit (R34). -/

namespace Sys2Proof.Machine

theorem getLsbD_flagBit (b : Bool) {n : Nat} (hn : n < 32) (i : Nat) :
    (flagBit b n).getLsbD i = (decide (i = n) && b) := by
  have hbit : (decide (i < 32) && !decide (i < n) && (decide (i - n < 32) && decide (i - n = 0))) =
      decide (i = n) := by
    simp only [← decide_not, ← Bool.decide_and, decide_eq_decide]
    omega
  simp [flagBit, ← hbit, Bool.and_assoc]

/-- Bit `i` of STATUS is a bit of the state code, one of the four flags, or a bit of the cause code. -/
theorem getLsbD_statusWord (s : State) {i : Nat} (hi : i < 32) :
    (statusWord s).getLsbD i =
      (s.fsm.code.getLsbD i || decide (i = 4) && busy s || decide (i = 5) && s.gotFrame ||
        decide (i = 6) && s.keyFrame || decide (i = 7) && slotValid s ||
        decide (8 ≤ i) && s.cause.code.getLsbD (i - 8)) := by
  have h8 : (!decide (i < 8)) = decide (8 ≤ i) := by simp [← decide_not]
  simp only [statusWord, BitVec.getLsbD_or, BitVec.getLsbD_setWidth, BitVec.getLsbD_shiftLeft, hi,
    show i - 8 < 32 by omega, h8, decide_true, Bool.true_and,
    getLsbD_flagBit _ (show 4 < 32 by decide), getLsbD_flagBit _ (show 5 < 32 by decide),
    getLsbD_flagBit _ (show 6 < 32 by decide), getLsbD_flagBit _ (show 7 < 32 by decide)]

/-- BUSY is 1 exactly in the state codes 0x1 to 0xB (R34, R105). -/
theorem busyState_iff (f : Fsm) : busyState f = true ↔ 1 ≤ f.code.toNat ∧ f.code.toNat ≤ 0xB := by
  cases f <;> decide

/-- The four flags of STATUS stand above the state code and below the cause code. -/
theorem getLsbD_statusWord_flag (s : State) {i : Nat} (h4 : 4 ≤ i) (h8 : i < 8) :
    (statusWord s).getLsbD i = (decide (i = 4) && busy s || decide (i = 5) && s.gotFrame ||
      decide (i = 6) && s.keyFrame || decide (i = 7) && slotValid s) := by
  rw [getLsbD_statusWord s (by omega), BitVec.getLsbD_of_ge _ i h4, decide_eq_false (not_le.mpr h8)]
  simp

/-- From bit 8 on STATUS is the cause code (R34). -/
theorem getLsbD_statusWord_cause (s : State) {i : Nat} (h : 8 + i < 32) :
    (statusWord s).getLsbD (8 + i) = s.cause.code.getLsbD i := by
  rw [getLsbD_statusWord s h, BitVec.getLsbD_of_ge _ (8 + i) (by omega)]
  simp [show 8 + i ≠ 4 by omega, show 8 + i ≠ 5 by omega, show 8 + i ≠ 6 by omega,
    show 8 + i ≠ 7 by omega]

/-- Below bit 4 STATUS is the state code (R34). -/
theorem getLsbD_statusWord_fsm (s : State) {i : Nat} (h : i < 4) :
    (statusWord s).getLsbD i = s.fsm.code.getLsbD i := by
  rw [getLsbD_statusWord s (by omega)]
  simp [show i ≠ 4 by omega, show i ≠ 5 by omega, show i ≠ 6 by omega, show i ≠ 7 by omega,
    show ¬ 8 ≤ i by omega]

/-- Settles O5, from the three ranges of bits of the STATUS word. -/
theorem statusWordFields : Obligations.StatusWordFields := by
  intro s
  refine ⟨?_, ?_, ?_, ?_, ?_, ?_, ?_⟩
  · apply BitVec.eq_of_getLsbD_eq
    intro i hi
    rw [BitVec.getLsbD_extractLsb', Nat.zero_add, getLsbD_statusWord_fsm s hi, decide_eq_true hi,
      Bool.true_and]
  · rw [getLsbD_statusWord_flag s (by decide) (by decide), ← busyState_iff]
    simp [busy]
  · rw [getLsbD_statusWord_flag s (by decide) (by decide)]
    simp
  · rw [getLsbD_statusWord_flag s (by decide) (by decide)]
    simp
  · rw [getLsbD_statusWord_flag s (by decide) (by decide)]
    simp [slotValid]
  · apply BitVec.eq_of_getLsbD_eq
    intro i hi
    rw [BitVec.getLsbD_extractLsb', getLsbD_statusWord_cause s (by omega), decide_eq_true hi,
      Bool.true_and]
  · apply BitVec.eq_of_getLsbD_eq
    intro i hi
    rw [BitVec.getLsbD_extractLsb', show 12 + i = 8 + (4 + i) by omega,
      getLsbD_statusWord_cause s (by omega), BitVec.getLsbD_of_ge _ _ (by omega), Bool.and_false,
      BitVec.getLsbD_zero]

end Sys2Proof.Machine
end

section
/-! PROOF. The reset state (R52, R281). -/

namespace Sys2Proof.Machine

open Sys2Proof.Safety

/-- Settles O1. -/
theorem resetGivesTheSpecifiedValues : Obligations.ResetGivesTheSpecifiedValues := by
  exact ⟨rfl, rfl, rfl, rfl, rfl, by decide, rfl, rfl, rfl, rfl, rfl, rfl, rfl, fun _ => rfl⟩

/-- Settles O34: PKT, the slot and the history are empty after power-on, and the engine rests. -/
theorem resetMeetsTheInvariants : Obligations.ResetMeetsTheInvariants := by
  have storage : StorageInv State.reset := ⟨reset_pkt_wf, nofun, nofun⟩
  have lowBits : LowBitsInv State.reset := ⟨nofun, nofun⟩
  have ownership : OwnershipInv State.reset := ⟨rfl, List.nodup_nil, List.not_mem_nil⟩
  have status : StatusInv State.reset :=
    ⟨nofun, rfl, rfl, by decide, fun _ => rfl, fun _ => rfl, by decide⟩
  exact ⟨storage, lowBits, ownership, status, trivial, nofun, nofun⟩

end Sys2Proof.Machine
end

section
/-! PROOF. TAG is stored and read back and has no other effect (R37, R142). -/

namespace Sys2Proof.Machine

open Sys2Proof.Safety

/-- An operation that neither reads nor writes TAG and its mark: run in the state with that TAG, it
gives its result in the original state with that TAG. -/
def TagBlind (v : Word) (w : Bool) (m : State → Result) : Prop :=
  ∀ s, m (withTag v w s) = andThen (m s) fun t => .next (withTag v w t)

section Parts

variable {v : Word} {w : Bool}

/-! How blind parts are put together. -/

theorem tagBlind_fault (f : Fault) : TagBlind v w fun _ => .fault f := fun _ => rfl

/-- An update that does not depend on TAG. -/
theorem tagBlind_next {g : State → State} (h : ∀ s, g (withTag v w s) = withTag v w (g s)) :
    TagBlind v w fun s => .next (g s) := fun s => congrArg Host.Outcome.next (h s)

theorem tagBlind_ite {c : State → Prop} [DecidablePred c] {m m' : State → Result}
    (hc : ∀ s, c (withTag v w s) = c s) (h : TagBlind v w m) (h' : TagBlind v w m') :
    TagBlind v w fun s => if c s then m s else m' s := by
  intro s
  by_cases hs : c s
  · simp only [hc, hs, if_true, h s]
  · simp only [hc, hs, if_false, h' s]

theorem tagBlind_andThen {m k : State → Result} (h : TagBlind v w m) (hk : TagBlind v w k) :
    TagBlind v w fun s => andThen (m s) k := by
  intro s
  dsimp only
  rw [h s]
  cases m s with
  | next t => exact hk t
  | fault f => rfl
  | refused r => rfl

/-! The shared operations. -/

@[simp] theorem withTag_fsm (s : State) : (withTag v w s).fsm = s.fsm := rfl
@[simp] theorem withTag_slot (s : State) : (withTag v w s).slot = s.slot := rfl
@[simp] theorem withTag_dest (s : State) : (withTag v w s).dest = s.dest := rfl
@[simp] theorem withTag_pkt (s : State) : (withTag v w s).pkt = s.pkt := rfl
@[simp] theorem withTag_answers (s : State) : (withTag v w s).answers = s.answers := rfl

theorem tagBlind_planeWrite (p : Plane) (r c : Int) (x : Sample) :
    TagBlind v w (planeWrite p r c x) := by
  intro s
  unfold planeWrite
  rw [withTag_slot]
  cases s.slot with
  | none => rfl
  | some f => dsimp only; split <;> rfl

theorem tagBlind_copySamples (p : Plane) (r c : Int) (l : List Sample) :
    TagBlind v w (copySamples p r c l) := by
  induction l generalizing c with
  | nil => exact tagBlind_next fun _ => rfl
  | cons x rest ih => exact tagBlind_andThen (tagBlind_planeWrite p r c x) (ih (c + 1))

theorem tagBlind_scratchWrite (p : Plane) (i : Int) (x : Sample) :
    TagBlind v w (scratchWrite p i x) := by
  cases p <;>
    exact tagBlind_ite (fun _ => rfl) (tagBlind_next fun _ => rfl) (tagBlind_fault _)

theorem tagBlind_advance (p : Plane) : TagBlind v w fun s => .next (advance p s) :=
  tagBlind_next fun _ => by cases p <;> rfl

theorem tagBlind_writeSample (p : Plane) (x : Sample) : TagBlind v w (writeSample p x) := by
  refine tagBlind_andThen ?_ (tagBlind_advance p)
  intro s
  dsimp only [withTag_dest]
  have hp : pointer p (withTag v w s) = pointer p s := by cases p <;> rfl
  cases s.dest with
  | real => rw [hp]; exact tagBlind_planeWrite p s.row _ x s
  | scratch => rw [hp]; exact tagBlind_scratchWrite p _ x s

theorem readByte_withTag (s : State) (o : Nat) :
    readByte (withTag v w s) o = ((readByte s o).1, withTag v w (readByte s o).2) := by
  unfold readByte
  rw [withTag_pkt]
  cases Memory.read s.pkt o <;> rfl

theorem readLe32_withTag (s : State) (o : Nat) :
    readLe32 (withTag v w s) o = ((readLe32 s o).1, withTag v w (readLe32 s o).2) := by
  simp only [readLe32, readByte_withTag]

theorem tagBlind_wordStep (pa pb pc : Plane) {k : State → State}
    (hk : ∀ s, k (withTag v w s) = withTag v w (k s)) : TagBlind v w (wordStep pa pb pc k) := by
  refine tagBlind_ite (fun _ => rfl) (tagBlind_next fun _ => rfl)
    (tagBlind_ite (fun _ => rfl) ?_ (tagBlind_fault _))
  have emit (t : Word) := tagBlind_andThen (tagBlind_writeSample pa (fieldA t))
    (tagBlind_andThen (tagBlind_writeSample pb (fieldB t))
      (tagBlind_andThen (tagBlind_writeSample pc (fieldC t)) (tagBlind_next hk)))
  intro s
  dsimp only
  rw [show (withTag v w s).src = s.src from rfl, readLe32_withTag]
  exact emit (readLe32 s s.src.toNat).1
    { (readLe32 s s.src.toNat).2 with src := (readLe32 s s.src.toNat).2.src + 4 }

/-! The pool. -/

theorem releaseSlot_withTag (s : State) :
    releaseSlot (withTag v w s) = withTag v w (releaseSlot s) := by
  simp only [releaseSlot_eq]
  rfl

theorem drawAnswer_withTag (s : State) :
    drawAnswer (withTag v w s) = ((drawAnswer s).1, withTag v w (drawAnswer s).2) := by
  unfold drawAnswer
  rw [withTag_answers]
  cases s.answers <;> rfl

theorem acquireFrame_withTag (s : State) :
    acquireFrame (withTag v w s) = withTag v w (acquireFrame s) := by
  unfold acquireFrame
  rw [releaseSlot_withTag, drawAnswer_withTag]
  cases (drawAnswer (releaseSlot s)).1 <;> rfl

/-! Commands and registers. -/

theorem tagBlind_startDecode : TagBlind v w startDecode :=
  tagBlind_ite (fun _ => rfl)
    (tagBlind_ite (fun _ => rfl) (tagBlind_fault _) (tagBlind_next fun _ => rfl)) (tagBlind_fault _)

theorem tagBlind_issueDecode : TagBlind v w issueDecode := by
  refine tagBlind_ite (fun _ => rfl) (tagBlind_fault _) ?_
  intro s
  dsimp only [withTag_fsm]
  cases s.fsm with
  | closed => rfl
  | reserved => rfl
  | _ => exact tagBlind_startDecode (acceptCommand s)

theorem tagBlind_issueShutdown : TagBlind v w issueShutdown := by
  refine tagBlind_ite (fun _ => rfl) (tagBlind_fault _) ?_
  intro s
  dsimp only [withTag_fsm]
  cases s.fsm with
  | closed => rfl
  | reserved => rfl
  | _ =>
    have h : closeBlock (acceptCommand (withTag v w s)) =
        withTag v w (closeBlock (acceptCommand s)) := by
      simp only [closeBlock_eq]
      rfl
    exact congrArg Host.Outcome.next h

theorem tagBlind_issueCommand (x : Word) : TagBlind v w (issueCommand x) := by
  unfold issueCommand
  refine tagBlind_ite (fun _ => rfl) (tagBlind_fault _) ?_
  cases decodeCommand x with
  | none => exact tagBlind_fault _
  | some c =>
    cases c with
    | decode => exact tagBlind_issueDecode
    | shutdown => exact tagBlind_issueShutdown

/-- A write to any register but TAG (R132). -/
theorem tagBlind_writeReg {r : Option Reg} (hr : r ≠ some .tag) (x : Word) :
    TagBlind v w (writeReg r x) := by
  cases r with
  | none => exact tagBlind_fault _
  | some r =>
    cases r with
    | cmd => exact tagBlind_issueCommand x
    | tag => exact absurd rfl hr
    | width | height | pktLen => exact tagBlind_next fun _ => rfl
    | status | consumed | frameHandle => exact tagBlind_fault _

/-- A read of any register but TAG (R133). -/
theorem tagBlind_readReg {r : Option Reg} (hr : r ≠ some .tag) : TagBlind v w (readReg r) := by
  cases r with
  | none => exact tagBlind_fault _
  | some r =>
    cases r with
    | tag => exact absurd rfl hr
    | width | height | pktLen =>
      exact tagBlind_ite (fun _ => rfl) (tagBlind_next fun _ => rfl) (tagBlind_fault _)
    | cmd | status | consumed | frameHandle => exact tagBlind_next fun _ => rfl

/-- Offset 0x10 is the only one of TAG (R32). -/
theorem ofOffset_eq_tag {off : Word} (h : Reg.ofOffset off = some .tag) : off = 0x10#32 := by
  unfold Reg.ofOffset at h
  split_ifs at h with _ _ _ _ h4 <;> first | exact h4 | cases h

/-! The operations. -/

theorem tagBlind_regWrite {off : Word} (h : off ≠ 0x10#32) (x : Word) :
    TagBlind v w (execRegWrite off x) :=
  tagBlind_ite (fun _ => rfl) (tagBlind_fault _)
    (tagBlind_writeReg (fun e => h (ofOffset_eq_tag e)) x)

theorem tagBlind_regRead {off : Word} (h : off ≠ 0x10#32) : TagBlind v w (execRegRead off) :=
  tagBlind_ite (fun _ => rfl) (tagBlind_fault _) (tagBlind_readReg fun e => h (ofOffset_eq_tag e))

theorem tagBlind_pktWrite (off : Int) (x : Byte) : TagBlind v w (execPktWrite off x) :=
  tagBlind_ite (fun _ => rfl) (tagBlind_fault _)
    (tagBlind_ite (fun _ => rfl) (tagBlind_next fun _ => rfl) (tagBlind_fault _))

theorem tagBlind_frameRead (hd : Word) (p : Plane) (r c : Int) :
    TagBlind v w (execFrameRead hd p r c) := by
  refine tagBlind_ite (fun _ => rfl) (tagBlind_fault _) ?_
  intro s
  dsimp only [withTag_slot]
  cases s.slot with
  | none => rfl
  | some f => dsimp only; split <;> rfl

theorem tagBlind_validate : TagBlind v w execValidate :=
  tagBlind_ite (fun _ => rfl) (tagBlind_next fun _ => rfl)
    (tagBlind_ite (fun _ => rfl) (tagBlind_next fun _ => rfl) (tagBlind_next fun _ => rfl))

theorem tagBlind_hextetSelect : TagBlind v w execHextetSelect :=
  tagBlind_ite (fun _ => rfl)
    (tagBlind_ite (fun _ => rfl) (tagBlind_fault _) (tagBlind_next fun _ => rfl))
    (tagBlind_next fun _ => rfl)

theorem tagBlind_mergeBack : TagBlind v w execMergeBack := by
  refine tagBlind_ite (fun _ => rfl) (tagBlind_ite (fun _ => rfl) ?_ (tagBlind_fault _))
    (tagBlind_next fun _ => rfl)
  have copy (r c c' : Int) (ly lu lv : List Sample) :=
    tagBlind_andThen (tagBlind_copySamples (v := v) (w := w) .y r c ly)
      (tagBlind_andThen (tagBlind_copySamples .u r c' lu)
        (tagBlind_andThen (tagBlind_copySamples .v r c' lv)
          (tagBlind_next (g := fun t => { t with fsm := .rowEnd }) fun _ => rfl)))
  exact fun s => copy s.row s.col (s.col / 2) _ _ _ s

theorem endHextet_withTag (s : State) : endHextet (withTag v w s) = withTag v w (endHextet s) := by
  simp only [endHextet_eq]
  rfl

end Parts

/-- Settles O12: every operation but RESET and the TAG accesses is put together of blind parts. -/
theorem tagHasNoEffect : Obligations.TagHasNoEffect := by
  intro s i v w hread hreset hwrite
  suffices TagBlind v w (exec i) from this s
  cases i with
  | decode => exact tagBlind_issueDecode
  | shutdown => exact tagBlind_issueShutdown
  | regWrite off x => exact tagBlind_regWrite (fun e => hwrite x (by rw [e])) x
  | regRead off => exact tagBlind_regRead fun e => hread (by rw [e])
  | pktWrite off x => exact tagBlind_pktWrite off x
  | frameRead hd p r c => exact tagBlind_frameRead hd p r c
  | reset => exact absurd rfl hreset
  | validate => exact tagBlind_validate
  | acquire => exact tagBlind_next acquireFrame_withTag
  | rowBegin | rowEnd | complete => exact tagBlind_next fun _ => rfl
  | hextetSelect => exact tagBlind_hextetSelect
  | unpackW1 | unpackW2 | unpackW3 => exact tagBlind_wordStep _ _ _ fun _ => rfl
  | unpackW4 => exact tagBlind_wordStep _ _ _ endHextet_withTag
  | mergeBack => exact tagBlind_mergeBack
  | reservedFsm => exact tagBlind_fault _

end Sys2Proof.Machine
end

section
/-! PROOF. What engine steps leave alone: the configuration, the packet and the host's side (R43, R85,
R87). -/

namespace Sys2Proof.Machine

open Sys2Proof.Safety

/-- A word step writes samples, pointers and the engine's own state only (R182, R185 to R188). -/
theorem sameHostSide_wordStep {f : Fsm} {pa pb pc : Plane} {k : State → State} {s t : State}
    (hrow : WordRow f pa pb pc k) (h : wordStep pa pb pc k s = .next t) : SameHostSide s t := by
  refine wordStep_keeps (P := SameHostSide s) ?_ ?_ ?_ ?_ (sameHostSide_refl s) h
  · exact fun u hu => sameHostSide_trans hu (by constructor <;> rfl)
  · exact fun u d hu => sameHostSide_trans hu (by constructor <;> rfl)
  · exact fun p w u u' hu v _ hw => sameHostSide_trans hu (writeSample_frame hw).toSameHostSide
  · intro u hu
    obtain ⟨g, c, e, -⟩ := wordRow_continues hrow u
    rw [e]
    exact sameHostSide_trans hu (by constructor <;> rfl)

/-- Settles O45: the result of each engine step is its start state with fields of the engine, the slot,
the pool and the draw counter written. -/
theorem engineStepsLeaveTheHostSide : Obligations.EngineStepsLeaveTheHostSide := by
  intro s t i hi h
  cases i with
  | validate =>
    rcases validate_next h with ⟨-, rfl⟩ | ⟨-, -, ⟨-, rfl⟩ | ⟨-, rfl⟩⟩ <;> constructor <;> rfl
  | acquire =>
    cases h
    obtain ⟨d, e | ⟨hnd, -, -, e⟩⟩ := acquireFrame_spec s <;> rw [e] <;> constructor <;> rfl
  | hextetSelect =>
    rcases hextetSelect_next h with ⟨-, rfl⟩ | ⟨-, -, rfl⟩ <;> constructor <;> rfl
  | unpackW1 => exact sameHostSide_wordStep .word1 h
  | unpackW2 => exact sameHostSide_wordStep .word2 h
  | unpackW3 => exact sameHostSide_wordStep .word3 h
  | unpackW4 => exact sameHostSide_wordStep .word4 h
  | mergeBack =>
    rcases mergeBack_next h with ⟨-, rfl⟩ | ⟨-, -, -, _, _, _, -, -, -, rfl, -⟩ <;>
      constructor <;> rfl
  | rowBegin | rowEnd | complete => cases h; constructor <;> rfl
  | reservedFsm => cases h
  | _ => cases hi

/-- A state code selects engine steps only (R105). -/
theorem decode_fsm_engine {f : Fsm} {i : Instr} (h : decode (.fsm f.code) = .ok i) :
    isEngineStep i = true := by
  rw [decode_fsm_eq] at h
  cases f <;> cases h <;> rfl

end Sys2Proof.Machine
end

section
/-! PROOF. PKT and the planes stay in canonical form and inside their address spaces (R70, R75, R80). -/

namespace Sys2Proof.Machine

open Sys2Proof.Safety

/-- PKT is in canonical form and holds nothing outside its address space (R70, R80). -/
def PktStored (s : State) : Prop := Memory.wf (n := 8) s.pkt ∧ ∀ e ∈ s.pkt, e.1 < s.pktCap

/-- Every plane of a frame is in canonical form and holds nothing outside the plane (R75). -/
def FrameStored (f : Frame) : Prop := ∀ p, PlaneStored f p

/-- The frame in the slot, if any, is stored so. -/
def SlotStored (s : State) : Prop := ∀ f, s.slot = some f → FrameStored f

theorem storageInv_iff {s : State} : StorageInv s ↔ PktStored s ∧ SlotStored s :=
  (and_assoc (b := ∀ e ∈ s.pkt, e.1 < s.pktCap)).symm

theorem slotStored_of_empty {s : State} (h : s.slot = none) : SlotStored s := by
  intro f hf
  rw [h] at hf
  cases hf

/-- A new frame lists no sample (R168). -/
theorem frameStored_newFrame (h : Word) (w hgt : Int) (fill : Nat) :
    FrameStored (newFrame h w hgt fill) := by
  intro p
  cases p <;> exact ⟨memory_wf_nil, by simp [newFrame, Frame.storage]⟩

/-- A sample write inside the geometry lists one address inside the plane (R75). -/
theorem frameStored_write {f : Frame} {p : Plane} {r c : Int} (hf : FrameStored f)
    (hr : f.inRange p r c) (v : Sample) : FrameStored (f.write p r c v) := by
  intro q
  rw [PlaneStored, write_storage, write_h, write_columns]
  split
  · subst q
    obtain ⟨hwf, hlt⟩ := hf p
    refine ⟨memory_wf_write hwf _ v, fun e he => ?_⟩
    rcases memory_mem_write he with rfl | he
    · exact index_lt hr
    · exact hlt e he
  · exact hf q

theorem frameStored_writeRun {f : Frame} {p : Plane} {r c : Int} {l : List Sample}
    (hf : FrameStored f) (hr : ∀ i : Nat, i < l.length → f.inRange p r (c + i)) :
    FrameStored (f.writeRun p r c l) := by
  induction l generalizing f c with
  | nil => exact hf
  | cons v rest ih =>
    have h0 : f.inRange p r c := by simpa using hr 0 (by simp)
    refine ih (frameStored_write hf h0 v) fun i hi => ?_
    rw [write_inRange, add_assoc, add_comm 1]
    exact_mod_cast hr (i + 1) (Nat.succ_lt_succ hi)

/-- WriteY, WriteU and WriteV write inside the plane or into a scratch buffer (R182). -/
theorem slotStored_writeSample {p : Plane} {v : Sample} {s t : State} (hs : SlotStored s)
    (h : writeSample p v s = .next t) : SlotStored t := by
  rcases writeSample_next.mp h with ⟨-, f, hf, hr, rfl⟩ | ⟨-, -, -, rfl⟩
  · have hw : SlotStored { s with slot := some (f.write p s.row (pointer p s) v) } := by
      rintro g ⟨⟩
      exact frameStored_write (hs f hf) hr v
    cases p <;> exact hw
  · cases p <;> exact hs

theorem slotStored_wordStep {f : Fsm} {pa pb pc : Plane} {k : State → State} {s t : State}
    (hrow : WordRow f pa pb pc k) (hs : SlotStored s) (h : wordStep pa pb pc k s = .next t) :
    SlotStored t := by
  refine wordStep_keeps (P := SlotStored) (fun _ hu => hu) (fun _ _ hu => hu)
    (fun _ _ _ _ hu _ _ hw => slotStored_writeSample hu hw) ?_ hs h
  intro u hu
  obtain ⟨g, c, e, -⟩ := wordRow_continues hrow u
  rw [e]
  exact hu

/-- MERGE_BACK copies into columns of the planes (R205). -/
theorem slotStored_mergeBack {s t : State} (hs : SlotStored s) (h : execMergeBack s = .next t) :
    SlotStored t := by
  rcases mergeBack_next h with ⟨-, rfl⟩ | ⟨-, -, -, ly, lu, lv, -, -, -, rfl, hr⟩
  · exact hs
  · intro g hg
    obtain ⟨f, hf, rfl⟩ := Option.map_eq_some_iff.mp hg
    obtain ⟨hy, hu, hv⟩ := hr f hf
    have storedY := frameStored_writeRun (hs f hf) hy
    have storedU := frameStored_writeRun storedY (by simpa using hu)
    exact frameStored_writeRun storedU (by simpa using hv)

theorem slotStored_engine {s t : State} (hs : SlotStored s) (h : EngineRan s t) :
    SlotStored t := by
  cases h with
  | validate hf h =>
    rcases validate_next h with ⟨-, rfl⟩ | ⟨-, -, ⟨-, rfl⟩ | ⟨-, rfl⟩⟩ <;> exact hs
  | acquire hf h =>
    cases h
    obtain ⟨d, e | ⟨hnd, -, -, e⟩⟩ := acquireFrame_spec s <;> rw [e]
    · exact slotStored_of_empty rfl
    · rintro f ⟨⟩
      exact frameStored_newFrame _ _ _ _
  | hextetSelect hf h =>
    rcases hextetSelect_next h with ⟨-, rfl⟩ | ⟨-, -, rfl⟩ <;> exact hs
  | word pa pb pc k hrow h => exact slotStored_wordStep hrow hs h
  | mergeBack hf h => exact slotStored_mergeBack hs h
  | rowBegin hf h | rowEnd hf h | complete hf h => cases h; exact hs

/-- No engine step writes PKT (R87), and what it writes into a plane lies inside it. -/
theorem storageInv_engine {s t : State} {i : Instr} (hs : StorageInv s)
    (hd : decode (.fsm s.fsm.code) = .ok i) (h : exec i s = .next t) : StorageInv t := by
  obtain ⟨hpkt, hslot⟩ := storageInv_iff.mp hs
  have same := engineStepsLeaveTheHostSide s t i (decode_fsm_engine hd) h
  refine storageInv_iff.mpr ⟨?_, slotStored_engine hslot (exec_engine hd h)⟩
  rwa [PktStored, same.pkt, same.pktCap]

/-- A byte written inside the capacity keeps PKT stored so (R135). -/
theorem pktStored_write {s : State} {o : Nat} (hs : PktStored s) (ho : o < s.pktCap) (v : Byte) :
    PktStored { s with pkt := Memory.write (n := 8) s.pkt o v } := by
  obtain ⟨hwf, hlt⟩ := hs
  refine ⟨memory_wf_write hwf o v, fun e he => ?_⟩
  rcases memory_mem_write he with rfl | he
  · exact ho
  · exact hlt e he

theorem storageInv_host {s t : State} (hs : StorageInv s) (h : HostDone s t) : StorageInv t := by
  obtain ⟨hpkt, hslot⟩ := storageInv_iff.mp hs
  cases h with
  | pkt o v _ ho => exact storageInv_iff.mpr ⟨pktStored_write hpkt ho v, hslot⟩
  | close =>
    rw [closeBlock_eq]
    exact storageInv_iff.mpr ⟨hpkt, slotStored_of_empty rfl⟩
  | reset _ h =>
    cases h
    exact storageInv_iff.mpr ⟨⟨reset_pkt_wf, nofun⟩, slotStored_of_empty rfl⟩
  | _ => exact hs

/-- Settles O35: a PKT_WRITE is guarded by the capacity and a sample write by the geometry, and every
other operation leaves PKT and the planes alone or empties them. -/
theorem stepKeepsStorageCanonical : Obligations.StepKeepsStorageCanonical := by
  intro s t hs h
  refine step_keeps (P := StorageInv) (fun _ hu => hu) (fun _ hu => hu) ?_ hs h
  rintro i u t hu (hd | hi) he
  · exact storageInv_engine hu hd he
  · exact storageInv_host hu (exec_host hi he)

end Sys2Proof.Machine
end

section
/-! PROOF. A plane write, sample by sample and byte by byte (R75, R77). -/

namespace Sys2Proof.Machine

open Sys2Proof.Safety

theorem sampleAt_eq {s : State} {f : Frame} (hs : s.slot = some f) (p : Plane) (r c : Int) :
    sampleAt s p r c = if f.inRange p r c then some (f.sample p r c) else none := by
  simp only [sampleAt, hs]

/-- Settles O23: two places inside a geometry share no index, so the write meets its own place only. -/
theorem planeWriteSetsOneSample : Obligations.PlaneWriteSetsOneSample := by
  intro s f p r c v hs hr
  refine ⟨_, f.write p r c v, planeWrite_eq v hs hr, rfl, write_handle .., write_w .., write_h ..,
    ?_, ?_⟩
  · rw [sampleAt_eq rfl, write_inRange, if_pos hr, sample_write v hr hr, if_pos ⟨rfl, rfl, rfl⟩]
  · intro q r' c' hne
    rw [sampleAt_eq rfl, sampleAt_eq hs, write_inRange]
    by_cases hq : f.inRange q r' c'
    · rw [if_pos hq, if_pos hq, sample_write v hr hq, if_neg hne]
    · rw [if_neg hq, if_neg hq]

/-- A byte of a row before the padding is the half of its sample that the byte order puts there (R77). -/
theorem rowByte_sample {f : Frame} {p : Plane} {k : Nat} (hk : k < 2 * (f.columns p).toNat)
    (row : Nat) :
    f.rowByte p row k =
      if (k % 2 == 0) = Config.planeLittleEndian
      then (f.sample p row (k / 2 : Nat)).extractLsb' 0 8
      else (f.sample p row (k / 2 : Nat)).extractLsb' 8 8 := by
  simp only [Frame.rowByte, if_pos hk, beq_iff_eq]

theorem rowByte_padding {f : Frame} {p : Plane} {k : Nat} (hk : 2 * (f.columns p).toNat ≤ k)
    (row : Nat) : f.rowByte p row k = Config.paddingByte f.fill p row k := by
  rw [Frame.rowByte, if_neg (by omega)]

/-- Settles O51: the even byte of a sample holds its low half exactly when the low byte is stored first,
the odd byte the other half; padding depends on the pool's draw alone, which no write changes. -/
theorem planeRowBytes : Obligations.PlaneRowBytes := by
  constructor
  · intro f p r c hc
    have even : (2 * c) / 2 = c ∧ (2 * c) % 2 = 0 := by omega
    have odd : (2 * c + 1) / 2 = c ∧ (2 * c + 1) % 2 = 1 := by omega
    rw [rowByte_sample (by omega), rowByte_sample (by omega), even.1, even.2, odd.1, odd.2]
    cases Config.planeLittleEndian <;> rfl
  · intro f p q row k r c v hk
    rw [rowByte_padding hk, rowByte_padding (by rwa [write_columns]), write_fill]

end Sys2Proof.Machine
end

section
/-! PROOF. The held frame and the pool history through host operations (R75, R163, R169, R291). -/

namespace Sys2Proof.Machine

open Sys2Proof.Safety

/-- The slot, the pool history and the dropped handles are the same in two states. -/
structure SameFrame (s t : State) : Prop where
  slot : t.slot = s.slot
  history : t.history = s.history
  dropped : t.dropped = s.dropped

theorem sameFrame_issueDecode {s t : State} (h : issueDecode s = .next t) : SameFrame s t := by
  obtain ⟨-, -, -, -, -, rfl⟩ := issueDecode_next h
  exact ⟨rfl, rfl, rfl⟩

/-- The one command but SHUTDOWN is DECODE (R101, R137). -/
theorem issueCommand_next_of_ne {v : Word} {s t : State} (hv : v ≠ Command.code .shutdown)
    (h : issueCommand v s = .next t) : issueDecode s = .next t := by
  unfold issueCommand at h
  split at h
  · cases h
  · split at h
    · cases h
    · exact h
    · rename_i hc
      unfold decodeCommand at hc
      split_ifs at hc with h1 h2
      · cases hc
      · exact absurd h2 hv

/-- A mapped offset is that of its register (R32). -/
theorem ofOffset_eq_some {off : Word} {r : Reg} (h : Reg.ofOffset off = some r) :
    off = r.offset := by
  unfold Reg.ofOffset at h
  split_ifs at h <;> cases h <;> assumption

theorem sameFrame_writeReg {r : Option Reg} {v : Word} {s t : State}
    (hv : r = some .cmd → v ≠ Command.code .shutdown) (h : writeReg r v s = .next t) :
    SameFrame s t := by
  cases r with
  | none => cases h
  | some r =>
    cases r with
    | cmd => exact sameFrame_issueDecode (issueCommand_next_of_ne (hv rfl) h)
    | _ => cases h <;> exact ⟨rfl, rfl, rfl⟩

/-- A read is free of effects on the block (R78). -/
theorem sameFrame_respond (d : Response) (s : State) : SameFrame s (respond d s) := ⟨rfl, rfl, rfl⟩

/-- Settles O46: SHUTDOWN apart, in either spelling, a command is DECODE, which writes flags only; the
other operations write one register or one byte of PKT, or hand data to the host. -/
theorem hostOperationsLeaveTheFrame : Obligations.HostOperationsLeaveTheFrame := by
  intro s t i hi hshut hcmd hreset h
  suffices SameFrame s t from ⟨this.slot, this.history, this.dropped⟩
  cases i with
  | decode => exact sameFrame_issueDecode h
  | shutdown => exact absurd rfl hshut
  | regWrite off v =>
    simp only [exec, execRegWrite] at h
    split at h
    · cases h
    · refine sameFrame_writeReg (fun hr hv => hcmd ?_) h
      rw [ofOffset_eq_some hr, hv]
      rfl
  | regRead off =>
    simp only [exec, execRegRead] at h
    split at h
    · cases h
    · obtain ⟨v, rfl⟩ := readReg_next h
      exact sameFrame_respond _ s
  | pktWrite off b =>
    simp only [exec, execPktWrite] at h
    split_ifs at h
    cases h
    exact ⟨rfl, rfl, rfl⟩
  | frameRead hd p r c =>
    simp only [exec, execFrameRead] at h
    split at h
    · cases h
    · split at h
      · cases h
      · split at h
        · cases h
          exact sameFrame_respond _ s
        · cases h
  | reset => exact absurd rfl hreset
  | _ => cases hi

end Sys2Proof.Machine
end

section
/-! PROOF. The codes of file 30: tables and inverses, and the decoder against the encoder (R32, R101,
R105, R110). -/

namespace Sys2Proof.Machine

open Sys2Proof.Safety

/-- A CMD value that selects a command is the code of that command (R101). -/
theorem decodeCommand_eq_some {v : Word} {c : Command} (h : decodeCommand v = some c) :
    v = c.code := by
  unfold decodeCommand at h
  split_ifs at h <;> cases h <;> assumption

/-- The plane numbers are 0, 1 and 2 (R110). -/
theorem ofNumber_eq_some {n : Nat} {p : Plane} (h : Plane.ofNumber n = some p) : p.number = n := by
  unfold Plane.ofNumber at h
  split at h <;> cases h <;> rfl

theorem ofNumber_number (p : Plane) : Plane.ofNumber p.number = some p := by cases p <;> rfl

/-- The sixteen state codes name sixteen states (R105, R106). -/
theorem code_ofCode (c : BitVec 4) : (Fsm.ofCode c).code = c := by
  revert c
  decide

/-- A register write that spells no command decodes to itself (R101, R110). -/
theorem decode_regWrite {off v : Word} (h : (Instr.regWrite off v).wf = true) :
    decode (.bus (.regWrite off v)) = .ok (.regWrite off v) := by
  simp only [decode, decodeBus]
  split
  · rename_i hoff
    cases hc : decodeCommand v with
    | none => rfl
    | some c =>
      rw [hoff, decodeCommand_eq_some hc] at h
      cases c <;> cases h
  · rfl

theorem decode_encode {i : Instr} (h : i.wf = true) : decode (encode i) = .ok i := by
  cases i with
  | regWrite off v => exact decode_regWrite h
  | frameRead hd p r c => simp only [encode, decode, decodeBus, ofNumber_number]
  | _ => rfl

/-- A register write that decodes to a command is of the command's code to CMD (R101). -/
theorem encode_of_decode_regWrite {off v : Word} {i : Instr}
    (h : decode (.bus (.regWrite off v)) = .ok i) : encode i = .bus (.regWrite off v) := by
  simp only [decode, decodeBus] at h
  split at h
  · rename_i hoff
    subst hoff
    split at h <;> rename_i hc <;> cases h
    · rw [decodeCommand_eq_some hc]; rfl
    · rw [decodeCommand_eq_some hc]; rfl
    · rfl
  · cases h; rfl

theorem encode_of_decode_bus {o : BusOp} {i : Instr} (h : decode (.bus o) = .ok i) :
    encode i = .bus o := by
  cases o with
  | regWrite off v => exact encode_of_decode_regWrite h
  | frameRead hd n r c =>
    simp only [decode, decodeBus] at h
    split at h <;> cases h
    rename_i hp
    rw [encode, ofNumber_eq_some hp]
  | _ => cases h; rfl

theorem encode_of_decode_fsm {f : Fsm} {i : Instr} (h : decode (.fsm f.code) = .ok i) :
    encode i = .fsm f.code := by
  rw [decode_fsm_eq] at h
  cases f <;> cases h <;> rfl

theorem encode_of_decode {c : Code} {i : Instr} (h : decode c = .ok i) : encode i = c := by
  cases c with
  | bus o => exact encode_of_decode_bus h
  | fsm code =>
    rw [← code_ofCode code] at h ⊢
    exact encode_of_decode_fsm h

/-- Settles O49: each table of codes is the inverse of the table the encoder uses, and a register write
spells a command only where `wf` leaves it out. -/
theorem decodeEncodeAgree : Obligations.DecodeEncodeAgree :=
  ⟨fun _ => decode_encode, fun _ _ => encode_of_decode⟩

/-- Settles O50: the decoder evaluated at the words of the tables, each read at its own width
(log 18). -/
theorem tableWordsDecode : Obligations.TableWordsDecode := by
  unfold Obligations.TableWordsDecode
  decide

end Sys2Proof.Machine
end

section
/-! PROOF. No operation enters the reserved state code (R106). -/

namespace Sys2Proof.Machine

open Sys2Proof.Safety

theorem holdsFrame_ne_reserved {f : Fsm} (h : holdsFrame f = true) : f ≠ .reserved := by
  rintro rfl
  cases h

/-- A host operation keeps the state code, starts a decode, closes the block, or resets it. -/
theorem hostDone_ne_reserved {s t : State} (hs : s.fsm ≠ .reserved) (h : HostDone s t) :
    t.fsm ≠ .reserved := by
  cases h with
  | start | close => exact nofun
  | reset _ h => cases h; exact nofun
  | _ => exact hs

/-- A word step goes on in the row (R185 to R188). -/
theorem wordStep_ne_reserved {f : Fsm} {pa pb pc : Plane} {k : State → State} {s t : State}
    (hrow : WordRow f pa pb pc k) (hs : s.fsm ≠ .reserved) (h : wordStep pa pb pc k s = .next t) :
    t.fsm ≠ .reserved := by
  refine wordStep_keeps (P := fun u => u.fsm ≠ .reserved) (fun _ _ => nofun) (fun _ _ hu => hu)
    ?_ ?_ hs h
  · intro p w u u' hu v _ hw
    rwa [(writeSample_frame hw).fsm]
  · intro u _
    obtain ⟨g, c, e, hg⟩ := wordRow_continues hrow u
    rw [e]
    exact holdsFrame_ne_reserved hg

/-- An engine step, run in any state, writes one of the named successor codes of its rule (R230). -/
theorem engineStep_ne_reserved {i : Instr} {s t : State} (hi : isEngineStep i = true)
    (hs : s.fsm ≠ .reserved) (h : exec i s = .next t) : t.fsm ≠ .reserved := by
  cases i with
  | validate =>
    rcases validate_next h with ⟨-, rfl⟩ | ⟨-, -, ⟨-, rfl⟩ | ⟨-, rfl⟩⟩ <;> exact nofun
  | acquire =>
    cases h
    obtain ⟨d, e | ⟨hnd, -, -, e⟩⟩ := acquireFrame_spec s <;> rw [e] <;> exact nofun
  | rowBegin | rowEnd =>
    cases h
    dsimp only
    split <;> exact nofun
  | hextetSelect =>
    rcases hextetSelect_next h with ⟨-, rfl⟩ | ⟨-, -, rfl⟩ <;> exact nofun
  | unpackW1 => exact wordStep_ne_reserved .word1 hs h
  | unpackW2 => exact wordStep_ne_reserved .word2 hs h
  | unpackW3 => exact wordStep_ne_reserved .word3 hs h
  | unpackW4 => exact wordStep_ne_reserved .word4 hs h
  | mergeBack =>
    rcases mergeBack_next h with ⟨-, rfl⟩ | ⟨-, -, -, _, _, _, -, -, -, rfl, -⟩ <;> exact nofun
  | complete => cases h; exact nofun
  | reservedFsm => cases h
  | _ => cases hi

/-- Settles O27: the reserved code has one meaning in every state, and the results of the host
operations and of the engine steps are in other codes. -/
theorem reservedStateStops : Obligations.ReservedStateStops := by
  refine ⟨fun _ => rfl, fun s t i hs h => ?_⟩
  cases hi : isEngineStep i with
  | false => exact hostDone_ne_reserved hs (exec_host hi h)
  | true => exact engineStep_ne_reserved hi hs h

end Sys2Proof.Machine
end

section
/-! PROOF. Packet bytes written one after the other, and the word read back (R72, R74, R112). -/

namespace Sys2Proof.Machine

open Sys2Proof.Safety

/-- One more host bus operation after what came before (R110, R130). -/
def runBusOp (acc : Result) (b : BusOp) : Result :=
  andThen acc fun u =>
    match decode (.bus b) with
    | .ok i => exec i u
    | .error _ => .fault .unmapped

/-- The bytes `l` stand from offset `o` on, and nothing else of the state has changed. -/
structure BytesWritten (o : Nat) (l : List Byte) (s t : State) : Prop where
  onlyPkt : t = { s with pkt := t.pkt }
  written : ∀ k, k < l.length → pktAt t (o + k) = l[k]?
  kept : ∀ a, a < o ∨ o + l.length ≤ a → pktAt t a = pktAt s a

/-- PKT_WRITE inside PKT while BUSY = 0 (R135). -/
theorem runBusOp_pktWrite {s : State} {o : Nat} (b : Byte) (hb : busy s = false)
    (ho : o < s.pktCap) :
    runBusOp (.next s) (.pktWrite o b) =
      .next { s with pkt := Memory.write (n := 8) s.pkt o b } := by
  simp [runBusOp, decode, decodeBus, exec, execPktWrite, hb, ho]

/-- One byte written, then the bytes after it. -/
theorem bytesWritten_cons {s t : State} {o : Nat} {b : Byte} {l : List Byte}
    (h : BytesWritten (o + 1) l { s with pkt := Memory.write (n := 8) s.pkt o b } t) :
    BytesWritten o (b :: l) s t := by
  obtain ⟨honly, hwritten, hkept⟩ := h
  refine ⟨honly, fun k hk => ?_, fun a ha => ?_⟩
  · cases k with
    | zero => exact (hkept o (.inl o.lt_succ_self)).trans (memory_read_write_same _ _ _)
    | succ k =>
      rw [show o + (k + 1) = o + 1 + k by omega, List.getElem?_cons_succ]
      exact hwritten k (Nat.lt_of_succ_lt_succ hk)
  · rw [List.length_cons] at ha
    exact (hkept a (by omega)).trans (memory_read_write_other _ (by omega) b)

/-- The operations of a `pkt` statement complete and write its bytes (R74, R111). -/
theorem pktItems_run {s : State} {o : Nat} {l : List Byte} (hb : busy s = false)
    (hl : o + l.length ≤ s.pktCap) :
    ∃ ops : List BusOp, pktItems o l = ops.map .op ∧
      ∃ t, ops.foldl runBusOp (.next s) = .next t ∧ BytesWritten o l s t := by
  induction l generalizing s o with
  | nil => exact ⟨[], rfl, s, rfl, rfl, nofun, fun _ _ => rfl⟩
  | cons b rest ih =>
    rw [List.length_cons] at hl
    obtain ⟨ops, hops, t, hrun, hw⟩ :=
      ih (s := { s with pkt := Memory.write (n := 8) s.pkt o b }) (o := o + 1) hb
        (by dsimp only; omega)
    refine ⟨.pktWrite o b :: ops, by rw [pktItems, hops, List.map_cons], t, ?_, bytesWritten_cons hw⟩
    rw [List.foldl_cons, runBusOp_pktWrite b hb (by omega), hrun]

/-- A written byte is read without a draw (R74, R283). -/
theorem readByte_written {s : State} {o : Nat} {b : Byte} (h : pktAt s o = some b) :
    readByte s o = (b, s) := by
  rw [pktAt] at h
  simp only [readByte, h]

/-- Where the bytes of a word were written, the word is read without a draw (R72). -/
theorem readLe32_written {s t : State} {o : Nat} {w : Word}
    (h : BytesWritten o (wordsBytes [w]) s t) : readLe32 t o = (w, t) := by
  have byte (k : Nat) (hk : k < 4) : readByte t (o + k) = (wordByte w k, t) := by
    refine readByte_written ((h.written k hk).trans ?_)
    interval_cases k <;> rfl
  have first := byte 0 (by omega)
  rw [Nat.add_zero] at first
  simp only [readLe32, first, byte, Nat.reduceLT, le32_wordByte]

/-- Settles O30: the statement stands for four byte writes inside PKT, and the four bytes make the word
again. -/
theorem packetWordRoundTrip : Obligations.PacketWordRoundTrip := by
  intro s o w hb ho
  obtain ⟨ops, hops, t, hrun, hw⟩ := pktItems_run (l := wordsBytes [w]) hb ho
  exact ⟨ops, hops, t, hrun, hw.onlyPkt, readLe32_written hw, hw.kept⟩

end Sys2Proof.Machine
end

section
/-! PROOF. The register window by offset: writes and reads (R32, R132 to R134). -/

namespace Sys2Proof.Machine

open Sys2Proof.Safety

@[simp] theorem ofOffset_offset (r : Reg) : Reg.ofOffset r.offset = some r := by cases r <;> rfl

/-- An offset that is not word-aligned, or lies past the window, is unmapped (R32, R42). -/
theorem ofOffset_eq_none {off : Word} (h : off % 4#32 ≠ 0#32 ∨ 0x20#32 ≤ off) :
    Reg.ofOffset off = none := by
  cases hr : Reg.ofOffset off with
  | none => rfl
  | some r =>
    rw [ofOffset_eq_some hr] at h
    revert h
    cases r <;> decide

theorem decodeCommand_code (c : Command) : decodeCommand c.code = some c := by cases c <;> rfl

/-! Writes. -/

theorem regWrite_busy {s : State} (off v : Word) (hb : busy s = true) :
    exec (.regWrite off v) s = .fault .busyAccess := by
  simp only [exec, execRegWrite, hb, if_true]

theorem regWrite_free {s : State} (off v : Word) (hb : busy s = false) :
    exec (.regWrite off v) s = writeReg (Reg.ofOffset off) v s := by
  simp only [exec, execRegWrite, hb, Bool.false_eq_true, if_false]

/-- A write to the register at its own offset (R132). -/
theorem regWrite_reg {s : State} (r : Reg) (v : Word) (hb : busy s = false) :
    exec (.regWrite r.offset v) s = writeReg (some r) v s := by
  rw [regWrite_free _ _ hb, ofOffset_offset]

/-- The code of a command written to CMD issues it (R101, R137). -/
theorem issueCommand_code {s : State} (c : Command) (hb : busy s = false) :
    issueCommand c.code s =
      match c with
      | .decode => issueDecode s
      | .shutdown => issueShutdown s := by
  simp only [issueCommand, hb, Bool.false_eq_true, if_false, decodeCommand_code]
  cases c <;> rfl

/-- Any other value written to CMD (R102, R137). -/
theorem issueCommand_reserved {s : State} {v : Word} (h1 : v ≠ 0x00000001#32)
    (h2 : v ≠ 0x00000002#32) (hb : busy s = false) :
    issueCommand v s = .fault .reservedCmd := by
  simp only [issueCommand, hb, Bool.false_eq_true, if_false, decodeCommand, h1, h2]

/-- Settles O3: with BUSY = 0 a write is that of the register at its offset. -/
theorem registerWriteByOffset : Obligations.RegisterWriteByOffset := by
  intro s off v
  refine ⟨regWrite_busy off v, fun hb => ⟨?_, ?_, ?_, ?_, ?_, ?_, ?_, ?_, fun h => ?_⟩⟩
  · rintro ⟨rfl, rfl⟩
    exact (regWrite_reg .cmd _ hb).trans (issueCommand_code .decode hb)
  · rintro ⟨rfl, rfl⟩
    exact (regWrite_reg .cmd _ hb).trans (issueCommand_code .shutdown hb)
  · rintro ⟨rfl, h1, h2⟩
    exact (regWrite_reg .cmd v hb).trans (issueCommand_reserved h1 h2 hb)
  · rintro rfl; exact regWrite_reg .width v hb
  · rintro rfl; exact regWrite_reg .height v hb
  · rintro rfl; exact regWrite_reg .tag v hb
  · rintro rfl; exact regWrite_reg .pktLen v hb
  · rintro (rfl | rfl | rfl)
    · exact regWrite_reg .status v hb
    · exact regWrite_reg .consumed v hb
    · exact regWrite_reg .frameHandle v hb
  · rw [regWrite_free off v hb, ofOffset_eq_none h]
    rfl

/-! Reads. -/

theorem regRead_free {s : State} (off : Word) (hb : busy s = false) :
    exec (.regRead off) s = readReg (Reg.ofOffset off) s := by
  simp only [exec, execRegRead, hb, Bool.false_and, Bool.false_eq_true, if_false]

/-- A read of the register at its own offset, while BUSY = 0 (R133). -/
theorem regRead_reg {s : State} (r : Reg) (hb : busy s = false) :
    exec (.regRead r.offset) s = readReg (some r) s := by
  rw [regRead_free _ hb, ofOffset_offset]

/-- A read of STATUS, CONSUMED or FRAME_HANDLE, in every state (R131). -/
theorem regRead_readable (s : State) {r : Reg} (hr : readableBusy (some r) = true) :
    exec (.regRead r.offset) s = readReg (some r) s := by
  simp only [exec, execRegRead, ofOffset_offset, hr, Bool.not_true, Bool.and_false,
    Bool.false_eq_true, if_false]

/-- The registers readable while BUSY = 1 stand at 0x04, 0x18 and 0x1C (R131). -/
theorem readableBusy_ofOffset {off : Word} (h1 : off ≠ 0x04#32) (h2 : off ≠ 0x18#32)
    (h3 : off ≠ 0x1C#32) : readableBusy (Reg.ofOffset off) = false := by
  cases hr : Reg.ofOffset off with
  | none => rfl
  | some r =>
    have hoff := ofOffset_eq_some hr
    cases r with
    | status => exact absurd hoff h1
    | consumed => exact absurd hoff h2
    | frameHandle => exact absurd hoff h3
    | _ => rfl

theorem regRead_busy {s : State} {off : Word} (hb : busy s = true)
    (hr : readableBusy (Reg.ofOffset off) = false) :
    exec (.regRead off) s = .fault .busyAccess := by
  simp only [exec, execRegRead, hb, hr, Bool.not_false, Bool.and_self, if_true]

/-- What a read of a configuration register answers, by its written mark (R48, R133). -/
theorem readConfig_cases {o : Result} {written : Bool} {v : Word} {s : State}
    (h : o = readConfig written v s) :
    if written then o = .next (respond (.word v) s) else o = .fault .unwrittenConfig := by
  cases written <;> exact h

/-- Settles O4: a read that is allowed is that of the register at its offset. -/
theorem registerReadByOffset : Obligations.RegisterReadByOffset := by
  intro s off
  refine ⟨?_, ?_, ?_, fun hb h1 h2 h3 => regRead_busy hb (readableBusy_ofOffset h1 h2 h3),
    fun hb => ⟨?_, ?_, ?_, ?_, ?_, fun h => ?_⟩⟩
  · rintro rfl; exact regRead_readable s (r := .status) rfl
  · rintro rfl; exact regRead_readable s (r := .consumed) rfl
  · rintro rfl; exact regRead_readable s (r := .frameHandle) rfl
  · rintro rfl; exact regRead_reg .cmd hb
  · rintro rfl; exact readConfig_cases (regRead_reg .width hb)
  · rintro rfl; exact readConfig_cases (regRead_reg .height hb)
  · rintro rfl; exact readConfig_cases (regRead_reg .tag hb)
  · rintro rfl; exact readConfig_cases (regRead_reg .pktLen hb)
  · exact (regRead_free off hb).trans (by rw [ofOffset_eq_none h]; rfl)

end Sys2Proof.Machine
end

section
/-! PROOF. Acceptance of the commands DECODE and SHUTDOWN (R137, R140, R144, R146). -/

namespace Sys2Proof.Machine

open Sys2Proof.Safety

theorem execDecode_busy {s : State} (hb : busy s = true) : exec .decode s = .fault .busyAccess := by
  simp only [exec, execDecode, issueDecode, hb, if_true]

theorem execShutdown_busy {s : State} (hb : busy s = true) :
    exec .shutdown s = .fault .busyAccess := by
  simp only [exec, execShutdown, issueShutdown, hb, if_true]

/-- In the resting states but CLOSED a DECODE is accepted (R137, R144). -/
theorem execDecode_accepted {s : State} (h : s.fsm = .idle ∨ s.fsm = .done ∨ s.fsm = .failed) :
    exec .decode s = startDecode (acceptCommand s) := by
  rcases h with h | h | h <;> simp [exec, execDecode, issueDecode, busy, busyState, h]

/-- In the resting states but CLOSED a SHUTDOWN is accepted (R137, R144). -/
theorem execShutdown_accepted {s : State} (h : s.fsm = .idle ∨ s.fsm = .done ∨ s.fsm = .failed) :
    exec .shutdown s = .next (closeBlock (acceptCommand s)) := by
  rcases h with h | h | h <;> simp [exec, execShutdown, issueShutdown, busy, busyState, h]

/-- Settles O6: an accepted DECODE checks the written marks and then the packet's length. -/
theorem decodeCommandAcceptance : Obligations.DecodeCommandAcceptance := by
  intro s
  refine ⟨execDecode_busy, fun h => ?_, fun h => ?_, fun h => ?_⟩
  · simp [exec, execDecode, issueDecode, busy, busyState, h]
  · simp [exec, execDecode, issueDecode, busy, busyState, h]
  · rw [execDecode_accepted h]
    refine ⟨?_, ?_, ?_⟩
    · rintro (hw | hw | hw) <;> simp [startDecode, hw]
    · rintro ⟨hw, hh, hl, hcap⟩
      simp [startDecode, hw, hh, hl, hcap]
    · rintro ⟨hw, hh, hl, hcap⟩
      simp [startDecode, hw, hh, hl, not_lt.mpr hcap, acceptCommand]

/-- The release events of a slot: one for the frame in it, none when it is empty (R146). -/
theorem releaseEvents_eq (s : State) :
    releaseEvents s =
      match s.slot with
      | some f => [.release f.handle]
      | none => [] := by
  cases h : s.slot <;> simp [releaseEvents, heldHandles, h]

/-- Settles O7: an accepted SHUTDOWN closes the block and releases the frame in the slot. -/
theorem shutdownCommandAcceptance : Obligations.ShutdownCommandAcceptance := by
  intro s
  refine ⟨execShutdown_busy, fun h => ?_, fun h => ?_, fun h => ?_⟩
  · simp [exec, execShutdown, issueShutdown, busy, busyState, h]
  · simp [exec, execShutdown, issueShutdown, busy, busyState, h]
  · rw [execShutdown_accepted h, closeBlock_eq, releaseEvents_eq]
    rfl

end Sys2Proof.Machine
end

section
/-! PROOF. The host's access to packet bytes and frame samples (R74, R76, R135, R136). -/

namespace Sys2Proof.Machine

open Sys2Proof.Safety

/-- Settles O8: inside PKT the byte is stored in the sparse list, which no other address sees. -/
theorem packetWriteStoresOneByte : Obligations.PacketWriteStoresOneByte := by
  intro s o b
  refine ⟨fun hb => ?_, fun hb ho => ?_, fun hb h0 h1 => ?_⟩
  · simp only [exec, execPktWrite, hb, if_true]
  · have hout : ¬(0 ≤ o ∧ o < s.pktCap) := by omega
    simp only [exec, execPktWrite, hb, hout, Bool.false_eq_true, if_false]
  · refine ⟨{ s with pkt := Memory.write (n := 8) s.pkt o.toNat b }, ?_, rfl,
      memory_read_write_same _ _ _, fun a ha => memory_read_write_other _ ha b⟩
    simp only [exec, execPktWrite, hb, h0, h1, Bool.false_eq_true, if_false, and_self, if_true]

/-- A sample is seen exactly at the places of the geometry of the frame in the slot (R75, R76). -/
theorem sampleAt_eq_some {s : State} {f : Frame} (hs : s.slot = some f) {p : Plane} {r c : Int}
    {v : Sample} : sampleAt s p r c = some v ↔ f.inRange p r c ∧ f.sample p r c = v := by
  rw [sampleAt_eq hs]
  split_ifs with h <;> simp [h]

theorem sampleAt_eq_none {s : State} {f : Frame} (hs : s.slot = some f) {p : Plane} {r c : Int} :
    sampleAt s p r c = none ↔ ¬f.inRange p r c := by
  rw [sampleAt_eq hs]
  split_ifs with h <;> simp [h]

/-- FRAME_READ while BUSY = 0 with a frame in the slot (R136). -/
theorem frameRead_held {s : State} {f : Frame} (hb : busy s = false) (hs : s.slot = some f)
    (h : Word) (p : Plane) (r c : Int) :
    exec (.frameRead h p r c) s =
      if f.handle = h ∧ f.inRange p r c then .next (respond (.sample (f.sample p r c)) s)
      else .fault .frameAccess := by
  simp only [exec, execFrameRead, hb, hs, Bool.false_eq_true, if_false]

theorem frameRead_empty {s : State} (hb : busy s = false) (hs : s.slot = none) (h : Word)
    (p : Plane) (r c : Int) : exec (.frameRead h p r c) s = .fault .frameAccess := by
  simp only [exec, execFrameRead, hb, hs, Bool.false_eq_true, if_false]

/-- Settles O9, by what the slot holds. -/
theorem frameReadReturnsTheSample : Obligations.FrameReadReturnsTheSample := by
  intro s h p r c
  refine ⟨fun hb => ?_, fun hb => ⟨fun f v hs hh hv => ?_, fun hstop => ?_⟩⟩
  · simp only [exec, execFrameRead, hb, if_true]
  · obtain ⟨hr, rfl⟩ := (sampleAt_eq_some hs).mp hv
    rw [frameRead_held hb hs, if_pos ⟨hh, hr⟩]
    rfl
  · cases hs : s.slot with
    | none => exact frameRead_empty hb hs h p r c
    | some f =>
      rw [frameRead_held hb hs, if_neg]
      rintro ⟨hh, hr⟩
      rcases hstop with hother | hplace
      · exact hother f hs hh
      · exact (sampleAt_eq_none hs).mp hplace hr

end Sys2Proof.Machine
end

section
/-! PROOF. An engine step does not see the data host reads returned (R78, R131, log 4). -/

namespace Sys2Proof.Machine

open Sys2Proof.Safety

/-- The answer of an operation, with one more piece of read data in the hands of the host. -/
def withResponse (d : Response) (o : Result) : Result := andThen o fun t => .next (respond d t)

@[simp] theorem withResponse_next (d : Response) (s : State) :
    withResponse d (.next s) = .next (respond d s) := rfl

/-- Read data handed over in the first part of a sequence passes to the end where the rest does not
see it. -/
theorem andThen_withResponse {d : Response} {o o' : Result} {k : State → Result}
    (ho : o = withResponse d o') (hk : ∀ t, k (respond d t) = withResponse d (k t)) :
    andThen o k = withResponse d (andThen o' k) := by
  subst ho
  cases o' with
  | next t => exact hk t
  | fault f => rfl
  | refused r => rfl

/-- A branch on a condition that read data does not change. -/
theorem ite_withResponse {d : Response} {c : Prop} [Decidable c] {o o' p p' : Result}
    (h : o = withResponse d p) (h' : o' = withResponse d p') :
    (if c then o else o') = withResponse d (if c then p else p') := by
  split <;> assumption

section

variable (d : Response)

theorem pointer_respond (p : Plane) (s : State) : pointer p (respond d s) = pointer p s := by
  cases p <;> rfl

theorem advance_respond (p : Plane) (s : State) :
    advance p (respond d s) = respond d (advance p s) := by
  cases p <;> rfl

theorem planeWrite_respond (p : Plane) (r c : Int) (v : Sample) (s : State) :
    planeWrite p r c v (respond d s) = withResponse d (planeWrite p r c v s) := by
  unfold planeWrite
  rw [respond_slot]
  cases s.slot with
  | none => rfl
  | some f => dsimp only; split <;> rfl

theorem scratchWrite_respond (p : Plane) (i : Int) (v : Sample) (s : State) :
    scratchWrite p i v (respond d s) = withResponse d (scratchWrite p i v s) := by
  cases p <;> exact ite_withResponse rfl rfl

theorem writeSample_respond (p : Plane) (v : Sample) (s : State) :
    writeSample p v (respond d s) = withResponse d (writeSample p v s) := by
  refine andThen_withResponse ?_ fun t => congrArg Host.Outcome.next (advance_respond d p t)
  rw [respond_dest, respond_row, pointer_respond]
  cases s.dest with
  | real => exact planeWrite_respond d p s.row _ v s
  | scratch => exact scratchWrite_respond d p _ v s

theorem copySamples_respond (p : Plane) (r c : Int) (l : List Sample) (s : State) :
    copySamples p r c l (respond d s) = withResponse d (copySamples p r c l s) := by
  induction l generalizing c s with
  | nil => rfl
  | cons v rest ih => exact andThen_withResponse (planeWrite_respond d p r c v s) (ih (c + 1))

theorem readByte_respond (s : State) (o : Nat) :
    readByte (respond d s) o = ((readByte s o).1, respond d (readByte s o).2) := by
  unfold readByte
  rw [respond_pkt]
  cases Memory.read s.pkt o <;> rfl

theorem readLe32_respond (s : State) (o : Nat) :
    readLe32 (respond d s) o = ((readLe32 s o).1, respond d (readLe32 s o).2) := by
  simp only [readLe32, readByte_respond]

theorem endHextet_respond (s : State) : endHextet (respond d s) = respond d (endHextet s) := by
  simp only [endHextet_eq]
  rfl

/-- A word step, by its state code and its planes (R185 to R188). -/
theorem wordStep_respond {f : Fsm} {pa pb pc : Plane} {k : State → State}
    (hrow : WordRow f pa pb pc k) (s : State) :
    wordStep pa pb pc k (respond d s) = withResponse d (wordStep pa pb pc k s) := by
  have last (t : State) : .next (k (respond d t)) = withResponse d (.next (k t)) := by
    cases hrow with
    | word4 => rw [endHextet_respond, withResponse_next]
    | _ => rfl
  refine ite_withResponse rfl (ite_withResponse ?_ rfl)
  rw [respond_src, readLe32_respond]
  exact andThen_withResponse (writeSample_respond d pa _ { (readLe32 s s.src.toNat).2 with
      src := (readLe32 s s.src.toNat).2.src + 4 }) fun t =>
    andThen_withResponse (writeSample_respond d pb _ t) fun t =>
    andThen_withResponse (writeSample_respond d pc _ t) last

theorem validate_respond (s : State) :
    execValidate (respond d s) = withResponse d (execValidate s) :=
  ite_withResponse rfl (ite_withResponse rfl rfl)

theorem releaseSlot_respond (s : State) :
    releaseSlot (respond d s) = respond d (releaseSlot s) := by
  simp only [releaseSlot_eq]
  rfl

theorem drawAnswer_respond (s : State) :
    drawAnswer (respond d s) = ((drawAnswer s).1, respond d (drawAnswer s).2) := by
  unfold drawAnswer
  rw [respond_answers]
  cases s.answers <;> rfl

theorem acquireFrame_respond (s : State) :
    acquireFrame (respond d s) = respond d (acquireFrame s) := by
  unfold acquireFrame
  rw [releaseSlot_respond, drawAnswer_respond]
  cases (drawAnswer (releaseSlot s)).1 <;> rfl

theorem hextetSelect_respond (s : State) :
    execHextetSelect (respond d s) = withResponse d (execHextetSelect s) :=
  ite_withResponse (ite_withResponse rfl rfl) rfl

theorem mergeBack_respond (s : State) :
    execMergeBack (respond d s) = withResponse d (execMergeBack s) := by
  refine ite_withResponse (ite_withResponse ?_ rfl) rfl
  exact andThen_withResponse (copySamples_respond d .y _ _ _ s) fun t =>
    andThen_withResponse (copySamples_respond d .u _ _ _ t) fun t =>
    andThen_withResponse (copySamples_respond d .v _ _ _ t) fun _ => rfl

/-- Read data handed over before an engine step stands at the end of the data after it (R78). -/
theorem engineStep_respond {i : Instr} (hi : isEngineStep i = true) (s : State) :
    exec i (respond d s) = withResponse d (exec i s) := by
  cases i with
  | validate => exact validate_respond d s
  | acquire => exact congrArg Host.Outcome.next (acquireFrame_respond d s)
  | rowBegin | rowEnd | complete | reservedFsm => rfl
  | hextetSelect => exact hextetSelect_respond d s
  | unpackW1 => exact wordStep_respond d .word1 s
  | unpackW2 => exact wordStep_respond d .word2 s
  | unpackW3 => exact wordStep_respond d .word3 s
  | unpackW4 => exact wordStep_respond d .word4 s
  | mergeBack => exact mergeBack_respond d s
  | _ => cases hi

end

/-- A read of STATUS, CONSUMED or FRAME_HANDLE completes in every state and only hands over its data
(R131, R133). -/
theorem regRead_allowed (s : State) {off : Word}
    (h : off = 0x04#32 ∨ off = 0x18#32 ∨ off = 0x1C#32) :
    ∃ v, exec (.regRead off) s = .next (respond (.word v) s) := by
  rcases h with rfl | rfl | rfl
  · exact ⟨_, regRead_readable s (r := .status) rfl⟩
  · exact ⟨_, regRead_readable s (r := .consumed) rfl⟩
  · exact ⟨_, regRead_readable s (r := .frameHandle) rfl⟩

/-- Settles O11: no part of an engine step looks at the list of read data. -/
theorem engineStepsDoNotSeeHostReads : Obligations.EngineStepsDoNotSeeHostReads := by
  intro s i hi
  refine ⟨fun d => engineStep_respond d hi s, fun off _ hoff => ?_⟩
  obtain ⟨v, hread⟩ := regRead_allowed s hoff
  exact ⟨_, .word v, hread, engineStep_respond _ hi s⟩

end Sys2Proof.Machine
end

section
/-! PROOF. What a step fetches, by the turn, the program and the state code (R105, R112, R131). -/

namespace Sys2Proof.Machine

open Sys2Proof.Safety

theorem engineReady_of_ok {s : State} {i : Instr} (h : decode (.fsm s.fsm.code) = .ok i) :
    engineReady s = true := by
  rw [engineReady, h]; rfl

theorem engineReady_of_error {s : State} {e : DecodeError}
    (h : decode (.fsm s.fsm.code) = .error e) : engineReady s = false := by
  rw [engineReady, h]; rfl

/-- The engine moves when it has a step and the host has not the turn or nothing to do (R131). -/
theorem nextAgent_engine {s : State} (hready : engineReady s = true)
    (h : s.sched.head? ≠ some .host ∨ s.program = []) : nextAgent s = some .engine := by
  unfold nextAgent
  split
  · next hs =>
    have hp : s.program = [] := h.resolve_left (by simp [hs])
    simp [hostReady, hp, hready]
  · simp [hready]
  · simp [hready]

/-- The host moves when it has an operation and has the turn or the engine rests (R131). -/
theorem nextAgent_host {s : State} {item : HostItem} {rest : List HostItem}
    (hp : s.program = item :: rest) (h : s.sched.head? = some .host ∨ engineReady s = false) :
    nextAgent s = some .host := by
  have hhost : hostReady s = true := by simp [hostReady, hp]
  unfold nextAgent
  split
  · simp [hhost]
  · next hs => simp [hhost, h.resolve_left (by simp [hs])]
  · next hs => simp [hhost, h.resolve_left (by simp [hs])]

theorem nextAgent_none {s : State} (hp : s.program = []) (he : engineReady s = false) :
    nextAgent s = none := by
  have hhost : hostReady s = false := by simp [hostReady, hp]
  unfold nextAgent
  split <;> simp [hhost, he]

/-- The engine's step is fetched in the state with the turn used up (R105). -/
theorem fetch_engine {s : State} {i : Instr} (hd : decode (.fsm s.fsm.code) = .ok i)
    (h : s.sched.head? ≠ some .host ∨ s.program = []) : fetch s = .run i (useTurn s) := by
  simp only [fetch, nextAgent_engine (engineReady_of_ok hd) h, fetchEngine, useTurn_fsm, hd]

/-- The host has the turn, or the engine rests. -/
def HostTurn (s : State) : Prop :=
  s.sched.head? = some .host ∨ ∃ e, decode (.fsm s.fsm.code) = .error e

theorem fetch_host {s : State} {item : HostItem} {rest : List HostItem}
    (hp : s.program = item :: rest) (h : HostTurn s) : fetch s = fetchHost (useTurn s) := by
  have hturn : s.sched.head? = some .host ∨ engineReady s = false :=
    h.imp_right fun ⟨_, he⟩ => engineReady_of_error he
  simp only [fetch, nextAgent_host hp hturn]

theorem popProgram_eq {s : State} {item : HostItem} {rest : List HostItem}
    (hp : s.program = item :: rest) : popProgram s = { s with program := rest } := by
  rw [popProgram, hp]; rfl

/-- A bus operation that decodes is run with the turn and its entry used up (R110). -/
theorem fetchHost_op {s : State} {o : BusOp} {rest : List HostItem} {i : Instr}
    (hp : s.program = .op o :: rest) (hd : decode (.bus o) = .ok i) :
    fetchHost s = .run i { s with program := rest } := by
  simp only [fetchHost, hp, hd, popProgram_eq hp]

theorem fetchHost_reject {s : State} {o : BusOp} {rest : List HostItem} {d : DecodeError}
    (hp : s.program = .op o :: rest) (hd : decode (.bus o) = .error d) :
    fetchHost s = .reject (rejectBus s) := by
  simp only [fetchHost, hp, hd]

/-- One poll of `wait` reads STATUS, and uses up its entry only with BUSY = 0 (R112). -/
theorem fetchHost_wait {s : State} {rest : List HostItem} (hp : s.program = .wait :: rest) :
    fetchHost s = .run (.regRead Reg.status.offset)
      { s with program := if busy s then s.program else rest } := by
  have hbit : (statusWord s).getLsbD 4 = busy s := by
    rw [getLsbD_statusWord_flag s (by decide) (by decide)]
    simp
  simp only [fetchHost, hp, hbit, popProgram_eq hp]
  cases busy s with
  | true => simp only [if_true, ← hp]
  | false => rfl

/-- Settles O48, by who moves and what the next entry of the program is. -/
theorem stepRunsTheFetchedOperation : Obligations.StepRunsTheFetchedOperation := by
  intro s
  refine ⟨fun i hd h => ?_, fun o rest i hp hd h => ?_, fun o rest d hp hd h => ?_,
    fun rest hp h => ?_, fun e hp he => ?_⟩
  · simp only [step, fetch_engine hd h]
    rfl
  · simp only [step, fetch_host hp h, fetchHost_op (s := useTurn s) hp hd]
    rfl
  · simp only [step, fetch_host hp h, fetchHost_reject (s := useTurn s) hp hd]
    rfl
  · simp only [step, fetch_host hp h, fetchHost_wait (s := useTurn s) hp]
    exact regRead_readable _ (r := .status) rfl
  · simp only [step, fetch, nextAgent_none hp (engineReady_of_error he)]

end Sys2Proof.Machine
end

section
/-! PROOF. Validation of a packet, and the release and acquire of a frame (R160, R162, R168). -/

namespace Sys2Proof.Machine

open Sys2Proof.Safety

/-! VALIDATE, by what it finds (R160). -/

theorem execValidate_badGeometry {s : State} (h : widthOf s ≤ 1 ∨ heightOf s ≤ 0) :
    execValidate s = .next (raiseFail .invalidGeometry s) := if_pos h

/-- With a good geometry VALIDATE writes S and then checks the packet's length (R160, R163). -/
theorem execValidate_goodGeometry {s : State} (hw : 1 < widthOf s) (hh : 0 < heightOf s) :
    execValidate s =
      if lengthOf s < heightOf s * rowStride (widthOf s) then
        .next (raiseFail .truncatedPacket { s with stride := rowStride (widthOf s) })
      else .next { s with stride := rowStride (widthOf s), fsm := .allocating } :=
  if_neg (by omega)

/-- Settles O13: VALIDATE checks the geometry, then the length against the stride it has written. -/
theorem validateChecksGeometryThenLength : Obligations.ValidateChecksGeometryThenLength := by
  intro s
  refine ⟨execValidate_badGeometry, fun hw hh => ⟨fun hlen => ?_, fun hlen => ?_⟩⟩
  · exact (execValidate_goodGeometry hw hh).trans (if_pos hlen)
  · exact (execValidate_goodGeometry hw hh).trans (if_neg (not_lt.mpr hlen))

/-! ACQUIRE, by the pool's answer (R162). -/

/-- Once the slot is released, the live handles are the dropped ones (R168, R169). -/
theorem liveHandles_releaseSlot (s : State) : liveHandles (releaseSlot s) = s.dropped := by
  rw [liveHandles, heldHandles_releaseSlot, List.append_nil, releaseSlot_eq]

theorem releaseSlot_answers (s : State) : (releaseSlot s).answers = s.answers := by
  rw [releaseSlot_eq]

/-- ACQUIRE with a listed answer that counts as FAIL (R162). -/
theorem acquireFrame_fail {s : State} {rest : List PoolAnswer}
    (h : drawAnswer (releaseSlot s) = (.fail, { releaseSlot s with answers := rest })) :
    acquireFrame s =
      { s with
        slot := none
        history := s.history ++ releaseEvents s ++ [.acquire (widthOf s) (heightOf s) .fail]
        answers := rest, cause := .allocFailed, fsm := .failed } := by
  rw [acquireFrame, h, releaseSlot_eq]
  rfl

/-- ACQUIRE with a listed handle that the contract allows (R162). -/
theorem acquireFrame_ok {s : State} {h : Word} {rest : List PoolAnswer}
    (hd : drawAnswer (releaseSlot s) = (.ok h, { releaseSlot s with answers := rest })) :
    acquireFrame s =
      { s with
        slot := some (newFrame h (widthOf s) (heightOf s) s.draws)
        history := s.history ++ releaseEvents s ++ [.acquire (widthOf s) (heightOf s) (.ok h)]
        answers := rest, draws := s.draws + 1, row := 0, fsm := .rowBegin } := by
  rw [acquireFrame, hd, releaseSlot_eq]
  rfl

/-- A draw of a listed FAIL (R168). -/
theorem drawAnswer_listedFail {s : State} {rest : List PoolAnswer}
    (hl : s.answers = .fail :: rest) : drawAnswer s = (.fail, { s with answers := rest }) := by
  simp [drawAnswer, hl, lawfulAnswer]

/-- Settles O14: the draw is made once the slot is released, so a handle is refused only if it is
zero or was dropped. -/
theorem acquireReleasesThenTakesTheAnswer : Obligations.AcquireReleasesThenTakesTheAnswer := by
  intro s a rest hl
  rw [← releaseSlot_answers] at hl
  constructor
  · rintro rfl
    exact congrArg _ (acquireFrame_fail (drawAnswer_listedFail hl))
  · rintro h rfl h0 hn
    rw [← liveHandles_releaseSlot] at hn
    exact ⟨newFrame h (widthOf s) (heightOf s) s.draws, s.draws + 1,
      congrArg _ (acquireFrame_ok (drawAnswer_listed hl h0 hn)), rfl, rfl, rfl, rfl, rfl, rfl⟩

/-- Settles O15: a free draw made lawful is FAIL or names a handle that is not live; an OK that the
contract does not allow is drawn as FAIL. -/
theorem acquireCompletesOnAnyDraw : Obligations.AcquireCompletesOnAnyDraw := by
  intro s
  refine ⟨fun hl => ?_, fun h rest hl hn => ?_⟩
  · have htail : s.answers.tail = s.answers := by rw [hl, List.tail_nil]
    obtain ⟨d, e | ⟨h, h0, hn, e⟩⟩ := acquireFrame_spec s <;> rw [htail] at e
    · exact ⟨d, .inl (congrArg _ e)⟩
    · exact ⟨d + 1, .inr ⟨newFrame h (widthOf s) (heightOf s) d, h0, hn, rfl, rfl, rfl, rfl, rfl,
        congrArg _ e⟩⟩
  · rw [← releaseSlot_answers] at hl
    rw [← liveHandles_releaseSlot] at hn
    exact congrArg _ (acquireFrame_fail (drawAnswer_unlawful hl hn))

end Sys2Proof.Machine
end

section
/-! PROOF. The pool history stays in order: a release is of the frame in the slot, an acquire of a
handle that is not live (R168, R169). -/

namespace Sys2Proof.Machine

open Sys2Proof.Safety

/-- The invariant speaks of the history and the live handles alone. -/
theorem ownershipInv_congr {s t : State} (hs : OwnershipInv s) (hhist : t.history = s.history)
    (hlive : liveHandles t = liveHandles s) : OwnershipInv t := by
  rw [OwnershipInv, hhist, hlive]
  exact hs

/-- The dropped handles are pairwise different and none is zero (R169). -/
theorem dropped_of_inv {s : State} (hs : OwnershipInv s) :
    s.dropped.Nodup ∧ 0x00000000#32 ∉ s.dropped := by
  obtain ⟨-, hnodup, hzero⟩ := hs
  exact ⟨hnodup.of_append_left, fun h => hzero (List.mem_append_left _ h)⟩

/-- The history with the slot given up leaves the dropped handles alone unreleased: the handle in
the slot is the last live one and no dropped one (R162, R169). -/
theorem outstanding_released {s : State} (hs : OwnershipInv s) :
    outstanding (s.history ++ releaseEvents s) = some s.dropped := by
  obtain ⟨hhist, hnodup, -⟩ := hs
  cases hslot : s.slot with
  | none =>
    have hheld : heldHandles s = [] := by rw [heldHandles, hslot]
    rw [liveHandles, hheld, List.append_nil] at hhist
    rw [releaseEvents, hheld, List.map_nil, List.append_nil, hhist]
  | some f =>
    have hheld : heldHandles s = [f.handle] := by rw [heldHandles, hslot]
    rw [liveHandles, hheld] at hhist hnodup
    have hnew : f.handle ∉ s.dropped := by
      simpa using List.disjoint_of_nodup_append hnodup
    rw [releaseEvents, hheld, List.map_singleton, outstanding_append, hhist, Option.bind_some]
    simp [trackEvent, List.erase_append_right _ hnew]

/-- With an empty slot the unreleased handles are the dropped ones (R169). -/
theorem ownershipInv_of_empty {s t : State} (hs : OwnershipInv s) (hslot : t.slot = none)
    (hdrop : t.dropped = s.dropped) (hhist : outstanding t.history = some s.dropped) :
    OwnershipInv t := by
  have hlive : liveHandles t = s.dropped := by simp [liveHandles, heldHandles, hslot, hdrop]
  rw [OwnershipInv, hlive]
  exact ⟨hhist, dropped_of_inv hs⟩

/-- A failed acquire changes no unreleased handle (R168). -/
theorem outstanding_acquireFail {l : List PoolEvent} {live : List Word} (w h : Int)
    (hl : outstanding l = some live) : outstanding (l ++ [.acquire w h .fail]) = some live := by
  rw [outstanding_append, hl]
  rfl

/-- An acquire of a non-zero handle that is not live makes it the last live one (R168). -/
theorem outstanding_acquireOk {l : List PoolEvent} {live : List Word} {hnd : Word} (w h : Int)
    (hl : outstanding l = some live) (h0 : hnd ≠ 0#32) (hn : hnd ∉ live) :
    outstanding (l ++ [.acquire w h (.ok hnd)]) = some (live ++ [hnd]) := by
  rw [outstanding_append, hl]
  simp [trackEvent, h0, hn]

theorem ownershipInv_acquire {s : State} (hs : OwnershipInv s) : OwnershipInv (acquireFrame s) := by
  have hrel := outstanding_released hs
  obtain ⟨d, e | ⟨hnd, h0, hn, e⟩⟩ := acquireFrame_spec s <;> rw [e]
  · exact ownershipInv_of_empty hs rfl rfl (outstanding_acquireFail _ _ hrel)
  · obtain ⟨hnodup, hzero⟩ := dropped_of_inv hs
    refine ⟨outstanding_acquireOk _ _ hrel h0 hn, ?_, ?_⟩
    · exact hnodup.append (List.nodup_singleton hnd) (List.disjoint_singleton.mpr hn)
    · exact fun h => (List.mem_append.mp h).elim hzero fun h => h0 (List.mem_singleton.mp h).symm

/-- A RESET moves the handle in the slot to the dropped ones (R280). -/
theorem ownershipInv_reset {s t : State} (hs : OwnershipInv s) (h : execReset s = .next t) :
    OwnershipInv t := by
  cases h
  exact ownershipInv_congr hs rfl (List.append_nil _)

/-- A word step writes samples: the frame in the slot keeps its handle (R182, R185 to R188). -/
theorem ownershipInv_wordStep {f : Fsm} {pa pb pc : Plane} {k : State → State} {s t : State}
    (hrow : WordRow f pa pb pc k) (hs : OwnershipInv s) (h : wordStep pa pb pc k s = .next t) :
    OwnershipInv t := by
  refine wordStep_keeps (P := OwnershipInv) (fun _ hu => hu) (fun _ _ hu => hu) ?_ ?_ hs h
  · intro p w u u' hu v _ hw
    have e := writeSample_frame hw
    exact ownershipInv_congr hu e.history (by rw [liveHandles, e.dropped, e.handles, liveHandles])
  · intro u hu
    obtain ⟨g, c, e, -⟩ := wordRow_continues hrow u
    rw [e]
    exact hu

/-- MERGE_BACK copies samples into the frame in the slot, which keeps its handle (R205). -/
theorem ownershipInv_mergeBack {s t : State} (hs : OwnershipInv s)
    (h : execMergeBack s = .next t) : OwnershipInv t := by
  rcases mergeBack_next h with ⟨-, rfl⟩ | ⟨-, -, -, ly, lu, lv, -, -, -, rfl, -⟩
  · exact hs
  · refine ownershipInv_congr hs rfl ?_
    cases hslot : s.slot <;> simp [liveHandles, heldHandles, hslot]

theorem ownershipInv_host {s t : State} (hs : OwnershipInv s) (h : HostDone s t) :
    OwnershipInv t := by
  cases h with
  | close =>
    rw [closeBlock_eq]
    exact ownershipInv_of_empty hs rfl rfl (outstanding_released hs)
  | reset _ h => exact ownershipInv_reset hs h
  | _ => exact hs

theorem ownershipInv_engine {s t : State} (hs : OwnershipInv s) (h : EngineRan s t) :
    OwnershipInv t := by
  cases h with
  | validate _ h =>
    rcases validate_next h with ⟨-, rfl⟩ | ⟨-, -, ⟨-, rfl⟩ | ⟨-, rfl⟩⟩ <;> exact hs
  | acquire _ h =>
    cases h
    exact ownershipInv_acquire hs
  | hextetSelect _ h =>
    rcases hextetSelect_next h with ⟨-, rfl⟩ | ⟨-, -, rfl⟩ <;> exact hs
  | word _ _ _ _ hrow h => exact ownershipInv_wordStep hrow hs h
  | mergeBack _ h => exact ownershipInv_mergeBack hs h
  | rowBegin _ h | rowEnd _ h | complete _ h =>
    cases h
    exact hs

/-- Settles O37: SHUTDOWN and ACQUIRE release the frame in the slot, ACQUIRE takes a handle that is
not live, RESET drops the frame, and no other operation touches the history, the dropped handles or
the handle in the slot. -/
theorem stepKeepsFrameOwnership : Obligations.StepKeepsFrameOwnership := by
  intro s t hs h
  exact step_keeps_of_parts (fun _ hu => hu) (fun _ hu => hu) (fun _ _ => ownershipInv_host)
    (fun _ _ => ownershipInv_engine) hs h

end Sys2Proof.Machine
end

section
/-! PROOF. The word steps, by the word guard and the destination (R182, R185 to R188, R202). -/

namespace Sys2Proof.Machine

open Sys2Proof.Safety

theorem wordStep_guard (pa pb pc : Plane) (k : State → State) {s : State}
    (h : s.lineEnd - s.src < 4) : wordStep pa pb pc k s = .next { s with fsm := .merge } := by
  rw [wordStep, if_pos h]

/-- Settles O19: the word is read and its fields go to U, Y and V in turn. -/
theorem word1EmitsUYV : Obligations.Word1EmitsUYV := by
  refine fun s => ⟨wordStep_guard _ _ _ _, fun hg h0 h1 => ?_⟩
  obtain ⟨b0, b1, b2, b3, d, r0, r1, r2, r3, e⟩ := wordStep_reads .u .y .v _ hg h0 h1
  refine ⟨b0, b1, b2, b3, d, r0, r1, r2, r3, fun f hd hs hu hy hv => e.trans ?_,
    fun hd ⟨u0, u1⟩ ⟨y0, y1⟩ ⟨v0, v1⟩ => e.trans ?_⟩
  · exact andThen_of_next (writeU_real hd hs hu) <|
      andThen_of_next (writeY_real hd rfl (by simpa using hy)) <|
      andThen_of_next (writeV_real hd rfl (by simpa using hv)) rfl
  · exact andThen_of_next (writeU_scratch hd u0 u1) <|
      andThen_of_next (writeY_scratch hd y0 y1) <|
      andThen_of_next (writeV_scratch hd v0 v1) rfl

/-- Settles O20: the word is read and its fields go to Y, U and Y in turn. -/
theorem word2EmitsYUY : Obligations.Word2EmitsYUY := by
  refine fun s => ⟨wordStep_guard _ _ _ _, fun hg h0 h1 => ?_⟩
  obtain ⟨b0, b1, b2, b3, d, r0, r1, r2, r3, e⟩ := wordStep_reads .y .u .y _ hg h0 h1
  refine ⟨b0, b1, b2, b3, d, r0, r1, r2, r3, fun f hd hs hy hu hy' => e.trans ?_,
    fun hd ⟨y0, y1⟩ ⟨u0, u1⟩ => e.trans ?_⟩
  · exact andThen_of_next (writeY_real hd hs hy) <|
      andThen_of_next (writeU_real hd rfl (by simpa using hu)) <|
      andThen_of_next (writeY_real hd rfl (by simpa using hy')) rfl
  · exact andThen_of_next (writeY_scratch hd y0 (by dsimp only; omega)) <|
      andThen_of_next (writeU_scratch hd u0 u1) <|
      andThen_of_next (writeY_scratch hd (by dsimp only; omega) y1) rfl

/-- Settles O21: the word is read and its fields go to V, Y and U in turn. -/
theorem word3EmitsVYU : Obligations.Word3EmitsVYU := by
  refine fun s => ⟨wordStep_guard _ _ _ _, fun hg h0 h1 => ?_⟩
  obtain ⟨b0, b1, b2, b3, d, r0, r1, r2, r3, e⟩ := wordStep_reads .v .y .u _ hg h0 h1
  refine ⟨b0, b1, b2, b3, d, r0, r1, r2, r3, fun f hd hs hv hy hu => e.trans ?_,
    fun hd ⟨v0, v1⟩ ⟨y0, y1⟩ ⟨u0, u1⟩ => e.trans ?_⟩
  · exact andThen_of_next (writeV_real hd hs hv) <|
      andThen_of_next (writeY_real hd rfl (by simpa using hy)) <|
      andThen_of_next (writeU_real hd rfl (by simpa using hu)) rfl
  · exact andThen_of_next (writeV_scratch hd v0 v1) <|
      andThen_of_next (writeY_scratch hd y0 y1) <|
      andThen_of_next (writeU_scratch hd u0 u1) rfl

/-- Settles O22: the word is read, its fields go to Y, V and Y in turn, and the hextet ends. -/
theorem word4EmitsYVY : Obligations.Word4EmitsYVY := by
  refine fun s => ⟨wordStep_guard _ _ _ _, fun hg h0 h1 => ?_⟩
  obtain ⟨b0, b1, b2, b3, d, r0, r1, r2, r3, e⟩ := wordStep_reads .y .v .y endHextet hg h0 h1
  refine ⟨b0, b1, b2, b3, d, r0, r1, r2, r3, fun f hd hs hy hv hy' => e.trans ?_,
    fun hd ⟨y0, y1⟩ ⟨v0, v1⟩ => e.trans ?_⟩
  · exact andThen_of_next (writeY_real hd hs hy) <|
      andThen_of_next (writeV_real hd rfl (by simpa using hv)) <|
      andThen_of_next (writeY_real hd rfl (by simpa using hy')) <|
      congrArg Host.Outcome.next (endHextet_eq _)
  · exact andThen_of_next (writeY_scratch hd y0 (by dsimp only; omega)) <|
      andThen_of_next (writeV_scratch hd v0 v1) <|
      andThen_of_next (writeY_scratch hd (by dsimp only; omega) y1) <|
      congrArg Host.Outcome.next (endHextet_eq _)

end Sys2Proof.Machine
end

section
/-! PROOF. The three fields of a word as groups of ten bits (R183, R184). -/

namespace Sys2Proof.Machine

open Sys2Proof.Safety

/-- The first bit of a field in its word (R183). -/
def fieldStart (f : Field) : Nat :=
  match f with
  | .a => 0
  | .b => 10
  | .c => 20

/-- Bits 15:6 of a field are its ten bits of the word. -/
theorem getLsbD_fieldOf (f : Field) (t : Word) {i : Nat} (hi : i < 16) :
    (fieldOf f t).getLsbD i = (decide (6 ≤ i) && t.getLsbD (fieldStart f + (i - 6))) := by
  by_cases h6 : 6 ≤ i
  · obtain ⟨j, rfl⟩ := Nat.exists_eq_add_of_le' h6
    cases f <;> simp [fieldOf, fieldStart, getLsbD_fieldA t hi, getLsbD_fieldB t hi,
      getLsbD_fieldC t hi, Nat.add_comm, Nat.add_left_comm]
  · cases f <;> simp [fieldOf, getLsbD_fieldA t hi, getLsbD_fieldB t hi, getLsbD_fieldC t hi, h6]

/-- A field is its ten bits of the word, left-justified. -/
theorem fieldOf_eq (f : Field) (t : Word) :
    fieldOf f t = (t.extractLsb' (fieldStart f) 10).setWidth 16 <<< 6 := by
  apply BitVec.eq_of_getLsbD_eq
  intro i hi
  rw [getLsbD_fieldOf f t hi]
  by_cases h6 : 6 ≤ i
  · simp [hi, h6, show i - 6 < 10 by omega, show ¬ i < 6 by omega]
  · simp [h6, show i < 6 by omega]

/-- Settles O28: bit by bit, a field is its ten bits of the word above six zeros. -/
theorem fieldsAreTheThreeBitGroups : Obligations.FieldsAreTheThreeBitGroups := fun t =>
  ⟨fieldOf_eq .a t, fieldOf_eq .b t, fieldOf_eq .c t⟩

theorem fieldOf_mask (f : Field) (t : Word) : fieldOf f t = fieldOf f (t &&& 0x3FFFFFFF#32) := by
  have mask : ∀ j < 30, (0x3FFFFFFF#32).getLsbD j = true := by decide
  apply BitVec.eq_of_getLsbD_eq
  intro i hi
  have hj : fieldStart f + (i - 6) < 30 := by cases f <;> simp only [fieldStart] <;> omega
  rw [getLsbD_fieldOf f _ hi, getLsbD_fieldOf f _ hi, BitVec.getLsbD_and, mask _ hj, Bool.and_true]

/-- The bits of a packed word (R112). -/
theorem getLsbD_pack (a b c : BitVec 10) {i : Nat} (hi : i < 32) :
    (pack a b c).getLsbD i =
      if i < 10 then a.getLsbD i else if i < 20 then b.getLsbD (i - 10)
        else c.getLsbD (i - 20) := by
  simp only [pack, BitVec.getLsbD_or, BitVec.getLsbD_shiftLeft, BitVec.getLsbD_setWidth]
  by_cases h10 : i < 10
  · simp [h10, hi, show i < 20 by omega]
  · have ha : a.getLsbD i = false := BitVec.getLsbD_of_ge a i (by omega)
    by_cases h20 : i < 20
    · simp [h10, h20, hi, ha, show i - 10 < 32 by omega]
    · have hb : b.getLsbD (i - 10) = false := BitVec.getLsbD_of_ge b _ (by omega)
      simp [h10, h20, hi, ha, hb, show i - 20 < 32 by omega]

/-- The word packed from the three bit groups of a word is the word without its bits 31:30. -/
theorem pack_extract (t : Word) :
    pack (t.extractLsb' 0 10) (t.extractLsb' 10 10) (t.extractLsb' 20 10) =
      t &&& 0x3FFFFFFF#32 := by
  have mask : ∀ j < 32, (0x3FFFFFFF#32).getLsbD j = decide (j < 30) := by decide
  apply BitVec.eq_of_getLsbD_eq
  intro i hi
  rw [getLsbD_pack _ _ _ hi, BitVec.getLsbD_and, mask i hi]
  simp only [BitVec.getLsbD_extractLsb']
  by_cases h10 : i < 10
  · simp [h10, show i < 30 by omega]
  · by_cases h20 : i < 20
    · simp [h10, h20, show i - 10 < 10 by omega, show 10 + (i - 10) = i by omega,
        show i < 30 by omega]
    · simp [h10, h20, show i - 20 < 10 ↔ i < 30 by omega, show 20 + (i - 20) = i by omega,
        Bool.and_comm]

/-- A field shifted back is its ten bits of the word. -/
theorem setWidth_fieldOf_shift (f : Field) (t : Word) :
    (fieldOf f t >>> 6).setWidth 32 = (t.extractLsb' (fieldStart f) 10).setWidth 32 := by
  apply BitVec.eq_of_getLsbD_eq
  intro i hi
  rw [fieldOf_eq]
  by_cases h : i < 10
  · simp [hi, h, show 6 + i < 16 by omega, show 6 + i < 32 by omega]
  · simp [h]

theorem fields_inverse (t : Word) :
    (fieldC t >>> 6).setWidth 32 <<< 20 ||| (fieldB t >>> 6).setWidth 32 <<< 10 |||
      (fieldA t >>> 6).setWidth 32 = t &&& 0x3FFFFFFF#32 := by
  have shifted (f : Field) := setWidth_fieldOf_shift f t
  have ha := shifted .a
  have hb := shifted .b
  have hc := shifted .c
  simp only [fieldOf, fieldStart] at ha hb hc
  rw [← pack_extract, pack, ha, hb, hc]

/-- The value packed into a field (R112). -/
def packedValue (a b c : BitVec 10) (f : Field) : BitVec 10 :=
  match f with
  | .a => a
  | .b => b
  | .c => c

/-- A packed word gives each packed value back as its field. -/
theorem fieldOf_pack (a b c : BitVec 10) (f : Field) :
    fieldOf f (pack a b c) = (packedValue a b c f).setWidth 16 <<< 6 := by
  rw [fieldOf_eq]
  congr 2
  apply BitVec.eq_of_getLsbD_eq
  intro i hi
  have hbit : fieldStart f + i < 32 := by cases f <;> simp only [fieldStart] <;> omega
  rw [BitVec.getLsbD_extractLsb', getLsbD_pack _ _ _ hbit]
  cases f <;> simp [fieldStart, packedValue, hi, show ¬ 20 + i < 10 by omega,
    show ¬ 20 + i < 20 by omega, show ¬ 10 + i < 10 by omega, show 10 + i < 20 by omega]

/-- Settles O29: bits 5:0 by the mask of each field, bits 31:30 because no field reaches them, and
the inverse because fields and packing are the same three groups of ten bits. -/
theorem fieldExtractionProperties : Obligations.FieldExtractionProperties := by
  refine ⟨fun t => ⟨lowBitsClear_field (.inl rfl), lowBitsClear_field (.inr (.inl rfl)),
      lowBitsClear_field (.inr (.inr rfl))⟩,
    fun t => ⟨fieldOf_mask .a t, fieldOf_mask .b t, fieldOf_mask .c t⟩, fields_inverse,
    fun a b c => ⟨fieldOf_pack a b c .a, fieldOf_pack a b c .b, fieldOf_pack a b c .c⟩, ?_, ?_, ?_⟩
  · rintro t (_ | ⟨_, _ | ⟨_, ⟨⟩⟩⟩) <;> decide
  · rintro t (_ | ⟨_, _ | ⟨_, ⟨⟩⟩⟩) <;> decide
  · decide

end Sys2Proof.Machine
end

section
/-! PROOF. What the word steps of a hextet emit: which samples, from which words, and nothing else
(R104, R182, R189). -/

namespace Sys2Proof.Machine

open Sys2Proof.Safety

/-- From `s` to `t` the engine has emitted to each plane `p` the samples `F p i` at the indices `i`
from the pointer in `s` up to the pointer in `t`, in the destination of `s`, and has written no
other place of the held frame or of a scratch buffer. -/
structure Emitted (F : Plane → Int → Sample) (s t : State) : Prop where
  row : t.row = s.row
  dest : t.dest = s.dest
  frameWidth : t.slot.map Frame.w = s.slot.map Frame.w
  pointer_le : ∀ p, pointer p s ≤ pointer p t
  sample : ∀ p r c, sampleAt t p r c =
    if (s.dest = .real ∧ r = s.row) ∧ pointer p s ≤ c ∧ c < pointer p t then some (F p c)
    else sampleAt s p r c
  entry : ∀ p (i : Nat), (scratchList p t)[i]? =
    if s.dest = .scratch ∧ pointer p s ≤ i ∧ i < pointer p t then some (F p i)
    else (scratchList p s)[i]?

section

variable {F : Plane → Int → Sample} {s t u : State} {p q : Plane} {v : Sample}

/-- Two ranges that meet, each with the same values, are one range. -/
theorem ite_range_append {α : Type} {P : Prop} [Decidable P] {x y : α} {a b c i : Int} (hab : a ≤ b)
    (hbc : b ≤ c) :
    (if P ∧ b ≤ i ∧ i < c then x else if P ∧ a ≤ i ∧ i < b then x else y) =
      if P ∧ a ≤ i ∧ i < c then x else y := by
  by_cases hP : P
  · simp only [hP, true_and]
    by_cases hi : b ≤ i ∧ i < c
    · rw [if_pos hi, if_pos (by omega)]
    · rw [if_neg hi]
      exact if_congr (by omega) rfl rfl
  · simp only [hP, false_and, if_false]

theorem emitted_trans (h : Emitted F s t) (h' : Emitted F t u) : Emitted F s u where
  row := h'.row.trans h.row
  dest := h'.dest.trans h.dest
  frameWidth := h'.frameWidth.trans h.frameWidth
  pointer_le p := (h.pointer_le p).trans (h'.pointer_le p)
  sample p r c := by
    rw [h'.sample, h.sample, h.dest, h.row]
    exact ite_range_append (h.pointer_le p) (h'.pointer_le p)
  entry p i := by
    rw [h'.entry, h.entry, h.dest]
    exact ite_range_append (h.pointer_le p) (h'.pointer_le p)

/-- The state code and the cursors x and src have no part in what is emitted. -/
theorem emitted_cursor (F : Plane → Int → Sample) (s : State) (f : Fsm) (x o : Int) :
    Emitted F s { s with fsm := f, col := x, src := o } where
  row := rfl
  dest := rfl
  frameWidth := rfl
  pointer_le p := by cases p <;> exact le_rfl
  sample p r c := by
    rw [if_neg]
    · rfl
    · cases p <;> simp only [pointer] <;> omega
  entry p i := by
    rw [if_neg]
    · cases p <;> rfl
    · cases p <;> simp only [pointer] <;> omega

theorem pointer_advance_eq (p q : Plane) (s : State) :
    pointer q (advance p s) = pointer q s + if q = p then 1 else 0 := by
  rw [pointer_advance]
  split_ifs with h
  · rw [h]
  · omega

theorem pointer_withScratch (p q : Plane) (i : Nat) (v : Sample) (s : State) :
    pointer q (withScratch p i v s) = pointer q s := by cases p <;> cases q <;> rfl

theorem pointer_withSlot (q : Plane) (f : Option Frame) (s : State) :
    pointer q { s with slot := f } = pointer q s := by cases q <;> rfl

theorem scratchList_advance (p q : Plane) (s : State) :
    scratchList q (advance p s) = scratchList q s := by cases p <;> cases q <;> rfl

theorem sampleAt_advance (p : Plane) (s : State) : sampleAt (advance p s) = sampleAt s := by
  cases p <;> rfl

theorem sampleAt_withScratch (p : Plane) (i : Nat) (v : Sample) (s : State) :
    sampleAt (withScratch p i v s) = sampleAt s := by cases p <;> rfl

/-- WriteY, WriteU and WriteV move the pointer of their plane (R182). -/
theorem pointer_writeSample (h : writeSample p v s = .next t) (q : Plane) :
    pointer q t = pointer q s + if q = p then 1 else 0 := by
  rcases writeSample_next.mp h with ⟨-, f, -, -, rfl⟩ | ⟨-, -, -, rfl⟩
  · rw [pointer_advance_eq, pointer_withSlot]
  · rw [pointer_advance_eq, pointer_withScratch]

/-- A sample is seen only in a held frame, at a place of its geometry (R76). -/
theorem frame_of_sampleAt {r c : Int} (h : sampleAt s p r c = some v) :
    ∃ f, s.slot = some f ∧ f.inRange p r c ∧ f.sample p r c = v := by
  cases hs : s.slot with
  | none => simp [sampleAt, hs] at h
  | some f => exact ⟨f, rfl, (sampleAt_eq_some hs).mp h⟩

/-- A sample write to the held frame is seen at its place only (R75). -/
theorem sampleAt_write {f : Frame} (hs : s.slot = some f) {r c : Int} (hr : f.inRange p r c)
    (r' c' : Int) :
    sampleAt { s with slot := some (f.write p r c v) } q r' c' =
      if q = p ∧ r' = r ∧ c' = c then some v else sampleAt s q r' c' := by
  rw [sampleAt_eq rfl, sampleAt_eq hs, write_inRange]
  by_cases h' : f.inRange q r' c'
  · rw [if_pos h', if_pos h', sample_write v hr h']
    split_ifs <;> rfl
  · rw [if_neg h', if_neg h', if_neg]
    rintro ⟨rfl, rfl, rfl⟩
    exact h' hr

/-- A range of one index. -/
theorem range_one_iff {p q : Plane} {i : Int} :
    (pointer q s ≤ i ∧ i < pointer q s + if q = p then 1 else 0) ↔ q = p ∧ i = pointer p s := by
  split_ifs with h
  · subst h
    exact ⟨fun h => ⟨rfl, by omega⟩, fun h => by omega⟩
  · exact ⟨fun h => by omega, fun h' => absurd h'.1 h⟩

/-- WriteY, WriteU and WriteV emit one sample (R182). -/
theorem emitted_writeSample (h : writeSample p v s = .next t) (hv : F p (pointer p s) = v) :
    Emitted F s t where
  row := (writeSample_frame h).row
  dest := (writeSample_frame h).dest
  frameWidth := by
    rcases writeSample_next.mp h with ⟨-, f, hf, -, rfl⟩ | ⟨-, -, -, rfl⟩
    · cases p <;> simp [advance, hf]
    · cases p <;> rfl
  pointer_le q := by
    rw [pointer_writeSample h]
    split_ifs <;> omega
  sample q r c := by
    simp only [pointer_writeSample h, range_one_iff]
    rcases writeSample_next.mp h with ⟨hd, f, hf, hr, rfl⟩ | ⟨hd, -, -, rfl⟩
    · rw [sampleAt_advance, sampleAt_write hf hr]
      by_cases hp : q = p ∧ r = s.row ∧ c = pointer p s
      · obtain ⟨rfl, rfl, rfl⟩ := hp
        simp [hd, hv]
      · rw [if_neg hp, if_neg (by tauto)]
    · rw [sampleAt_advance, sampleAt_withScratch, if_neg (by simp [hd])]
  entry q i := by
    simp only [pointer_writeSample h, range_one_iff]
    rcases writeSample_next.mp h with ⟨hd, f, hf, hr, rfl⟩ | ⟨hd, h0, h1, rfl⟩
    · rw [scratchList_advance, if_neg (by simp [hd])]
      cases q <;> rfl
    · rw [scratchList_advance, withScratch_list]
      have hlen : (pointer p s).toNat < (scratchList p s).length := by
        rw [length_scratchList]
        omega
      by_cases hq : q = p
      · subst hq
        rw [if_pos rfl, List.getElem?_set, if_pos hlen]
        by_cases hi : (pointer q s).toNat = i
        · have hi' : (i : Int) = pointer q s := by omega
          rw [if_pos hi, if_pos ⟨hd, rfl, hi'⟩, hi', hv]
        · rw [if_neg hi, if_neg (by omega)]
      · rw [if_neg hq, if_neg (by tauto)]

/-- Where the bytes of a word are written, the engine reads that word without a draw (R72, R283). -/
theorem readLe32_packetWord {o : Int} (h : ∀ j < 4, (pktAt s (o.toNat + j)).isSome) :
    readLe32 s o.toNat = (packetWord s.pkt o, s) := by
  have byte (j : Nat) (hj : j < 4) :
      readByte s (o.toNat + j) = ((Memory.read (n := 8) s.pkt (o.toNat + j)).getD 0x00#8, s) := by
    obtain ⟨b, hb⟩ := Option.isSome_iff_exists.mp (h j hj)
    rw [readByte_written hb]
    rw [pktAt] at hb
    rw [hb, Option.getD_some]
  have first := byte 0 (by omega)
  rw [Nat.add_zero] at first
  simp only [readLe32, packetWord, first, byte, Nat.reduceLT, Nat.add_zero]

/-- How many samples of a plane the words before word `j + 1` of a hextet hold (R104, R189). -/
def samplesBefore (j : Nat) (p : Plane) : Int :=
  match j, p with
  | 0, _ => 0
  | 1, _ => 1
  | 2, .y => 3
  | 2, .u => 2
  | 2, .v => 1
  | 3, .y => 4
  | 3, .u => 3
  | 3, .v => 2
  | _, p => perHextet p

/-- Which word of a hextet, 0 to 3, a word state reads (R185 to R188). -/
def wordIndex (f : Fsm) : Nat :=
  match f with
  | .word2 => 1
  | .word3 => 2
  | .word4 => 3
  | _ => 0

/-- Sample `i` of a plane in a hextet is field `fld` of word `j` (R104, R189). -/
def IsField (p : Plane) (i : Int) (j : Nat) (fld : Field) : Prop :=
  0 ≤ i ∧ i < perHextet p ∧ placeInHextet p i = ((j : Int), fld)

/-- The words of a hextet hold the samples of a plane in order. -/
theorem samplesBefore_le_iff (j : Nat) {i : Int} (h0 : 0 ≤ i) (h1 : i < perHextet p) :
    samplesBefore j p ≤ i ↔ (j : Int) ≤ (placeInHextet p i).1 := by
  match j with
  | 0 | 1 | 2 | 3 =>
    cases p <;> simp only [perHextet] at h1 <;> interval_cases i <;> decide
  | j + 4 =>
    have hlast : (placeInHextet p i).1 ≤ 3 := by
      cases p <;> simp only [placeInHextet] <;> split_ifs <;> decide
    have hall : samplesBefore (j + 4) p = perHextet p := by cases p <;> rfl
    rw [hall]
    omega

section

variable {f : Fsm} {pa pb pc : Plane} {k : State → State}

/-- The fields of a word go to the next samples of their planes (R104, R185 to R188). -/
theorem wordRow_fields (h : WordRow f pa pb pc k) :
    IsField pa (samplesBefore (wordIndex f) pa) (wordIndex f) .a ∧
      IsField pb (samplesBefore (wordIndex f) pb + if pb = pa then 1 else 0) (wordIndex f) .b ∧
      IsField pc (samplesBefore (wordIndex f) pc + (if pc = pa then 1 else 0) +
        if pc = pb then 1 else 0) (wordIndex f) .c := by
  unfold IsField
  cases h <;> decide

theorem wordIndex_lt (h : WordRow f pa pb pc k) : wordIndex f < 4 := by cases h <;> decide

/-- A word step emits as many samples of a plane as its word holds (R185 to R188). -/
theorem wordRow_samples (h : WordRow f pa pb pc k) (q : Plane) :
    samplesBefore (wordIndex f) q + (if q = pa then 1 else 0) + (if q = pb then 1 else 0) +
      (if q = pc then 1 else 0) = samplesBefore (wordIndex f + 1) q := by
  cases h <;> cases q <;> decide

/-- A word step past its guard, in a hextet whose samples start at the indices `start` and whose
word at `src` is written: the word's samples are emitted, then the step continues. -/
theorem emitted_wordStep {start : Plane → Int} (hrow : WordRow f pa pb pc k)
    (hp : ∀ q, pointer q s = start q + samplesBefore (wordIndex f) q)
    (hF : ∀ q i fld, IsField q i (wordIndex f) fld →
      F q (start q + i) = fieldOf fld (packetWord s.pkt s.src))
    (hw : ∀ j < 4, (pktAt s (s.src.toNat + j)).isSome) (hg : 4 ≤ s.lineEnd - s.src)
    (h : wordStep pa pb pc k s = .next t) :
    ∃ u, t = k u ∧ Emitted F s u ∧ SameButSamples { s with src := s.src + 4 } u ∧
      ∀ q, pointer q u = start q + samplesBefore (wordIndex f + 1) q := by
  obtain ⟨ha, hb, hc⟩ := wordRow_fields hrow
  rcases wordStep_next.mp h with ⟨hstop, -⟩ | ⟨-, -, s2, s3, s4, h2, h3, h4, rfl⟩
  · omega
  rw [readLe32_packetWord hw] at h2 h3 h4
  dsimp only at h2 h3 h4
  have start2 : Emitted F s { s with src := s.src + 4 } := emitted_cursor F s s.fsm s.col _
  have p1 (q) : pointer q { s with src := s.src + 4 } = pointer q s := by cases q <;> rfl
  have p2 := pointer_writeSample h2
  have p3 := pointer_writeSample h3
  have p4 := pointer_writeSample h4
  simp only [p1, hp] at p2
  simp only [p2] at p3
  simp only [p3] at p4
  refine ⟨s4, rfl, ?_, ?_, fun q => ?_⟩
  · have e2 := emitted_writeSample (F := F) h2 (by rw [p1, hp]; exact hF _ _ _ ha)
    have e3 := emitted_writeSample (F := F) h3 (by rw [p2, add_assoc]; exact hF _ _ _ hb)
    have e4 := emitted_writeSample (F := F) h4 (by
      rw [p3, add_assoc, add_assoc, ← add_assoc (samplesBefore _ _)]; exact hF _ _ _ hc)
    exact emitted_trans start2 (emitted_trans e2 (emitted_trans e3 e4))
  · exact sameButSamples_trans (writeSample_frame h2)
      (sameButSamples_trans (writeSample_frame h3) (writeSample_frame h4))
  · rw [p4, ← wordRow_samples hrow q]
    omega

end

end

end Sys2Proof.Machine
end

section
/-! PROOF. The four word steps of a full hextet together (R189). -/

namespace Sys2Proof.Machine

open Sys2Proof.Safety

section

variable {F : Plane → Int → Sample} {s t u : State} {p : Plane} {v : Sample}

/-- A place of the held frame stays one. -/
theorem sampleAt_isSome_of_emitted (h : Emitted F s t) {r c : Int}
    (hs : (sampleAt s p r c).isSome) : (sampleAt t p r c).isSome := by
  rw [h.sample]
  split_ifs
  · rfl
  · exact hs

/-- A sample write to a place of the held frame completes (R75, R182). -/
theorem writeSample_completes (v : Sample) (hd : s.dest = .real)
    (h : (sampleAt s p s.row (pointer p s)).isSome) :
    ∃ t, writeSample p v s = .next t ∧ Emitted (fun _ _ => v) s t := by
  obtain ⟨w, hw⟩ := Option.isSome_iff_exists.mp h
  obtain ⟨f, hs, hr, -⟩ := frame_of_sampleAt hw
  have e := writeSample_real (v := v) hd hs hr
  exact ⟨_, e, emitted_writeSample e rfl⟩

variable {f : Fsm} {pa pb pc : Plane} {k : State → State}

/-- A word step past its guard, of a hextet that lies in the held frame, completes. -/
theorem wordStep_completes {start : Plane → Int} (hrow : WordRow f pa pb pc k)
    (hp : ∀ q, pointer q s = start q + samplesBefore (wordIndex f) q) (hd : s.dest = .real)
    (hin : ∀ q i fld, IsField q i (wordIndex f) fld →
      (sampleAt s q s.row (start q + i)).isSome)
    (hg : 4 ≤ s.lineEnd - s.src) (h0 : 0 ≤ s.src) (h1 : s.src + 4 ≤ s.pktCap) :
    ∃ t, wordStep pa pb pc k s = .next t := by
  obtain ⟨ha, hb, hc⟩ := wordRow_fields hrow
  obtain ⟨b0, b1, b2, b3, d, -, -, -, -, e⟩ := wordStep_reads pa pb pc k hg h0 h1
  rw [e]
  have p1 (q) : pointer q { s with draws := d, src := s.src + 4 } = pointer q s := by
    cases q <;> rfl
  obtain ⟨s2, h2, e2⟩ := writeSample_completes (p := pa) (fieldA (le32 b0 b1 b2 b3))
    (s := { s with draws := d, src := s.src + 4 }) hd (by rw [p1, hp]; exact hin _ _ _ ha)
  have p2 := pointer_writeSample h2
  simp only [p1, hp] at p2
  obtain ⟨s3, h3, e3⟩ := writeSample_completes (p := pb) (fieldB (le32 b0 b1 b2 b3))
    (e2.dest.trans hd) (sampleAt_isSome_of_emitted e2 (by
      rw [p2, add_assoc, e2.row]; exact hin _ _ _ hb))
  have p3 := pointer_writeSample h3
  simp only [p2] at p3
  obtain ⟨s4, h4, -⟩ := writeSample_completes (p := pc) (fieldC (le32 b0 b1 b2 b3))
    (e3.dest.trans (e2.dest.trans hd)) (sampleAt_isSome_of_emitted e3
      (sampleAt_isSome_of_emitted e2 (by
        rw [p3, add_assoc, add_assoc, ← add_assoc (samplesBefore _ _), e3.row, e2.row]
        exact hin _ _ _ hc)))
  exact ⟨_, andThen_of_next h2 <| andThen_of_next h3 <| andThen_of_next h4 rfl⟩

/-- Sample (plane, column) of the hextet that starts at `s`: its field of its word (R104, R189). -/
def hextetSample (s : State) (p : Plane) (c : Int) : Sample :=
  let place := placeInHextet p (c - planeColumns p s.col)
  fieldOf place.2 (packetWord s.pkt (s.src + 4 * place.1))

/-- A full hextet of the held frame, all of its bytes written and none of its words read yet (the
premises of R189). -/
structure FullHextet (s : State) : Prop where
  dest : s.dest = .real
  start : ∀ p, pointer p s = planeColumns p s.col
  place : ∀ p i, 0 ≤ i → i < perHextet p →
    (sampleAt s p s.row (planeColumns p s.col + i)).isSome
  inRow : 16 ≤ s.lineEnd - s.src
  src : 0 ≤ s.src
  inPkt : s.src + 16 ≤ s.pktCap
  written : ∀ j < 16, (pktAt s (s.src.toNat + j)).isSome

/-- The state after `j` words of the hextet that starts at `s`. -/
structure AfterWords (s : State) (j : Nat) (t : State) : Prop where
  emitted : Emitted (hextetSample s) s t
  pointer : ∀ p, pointer p t = planeColumns p s.col + samplesBefore j p
  src : t.src = s.src + 4 * j
  lineEnd : t.lineEnd = s.lineEnd
  pkt : t.pkt = s.pkt
  pktCap : t.pktCap = s.pktCap

theorem afterWords_zero (hs : FullHextet s) : AfterWords s 0 s where
  emitted := emitted_cursor _ s s.fsm s.col s.src
  pointer p := (hs.start p).trans (add_zero _).symm
  src := (add_zero _).symm
  lineEnd := rfl
  pkt := rfl
  pktCap := rfl

/-- One more word of a full hextet. -/
theorem afterWords_succ (hrow : WordRow f pa pb pc k) (hs : FullHextet s)
    (h : AfterWords s (wordIndex f) u) :
    ∃ t, wordStep pa pb pc k u = .next t ∧ AfterWords s (wordIndex f + 1) t := by
  have hj := wordIndex_lt hrow
  have := hs.inRow
  have := hs.src
  have := hs.inPkt
  have hsrc := h.src
  have hg : 4 ≤ u.lineEnd - u.src := by rw [h.lineEnd, hsrc]; omega
  have hw : ∀ i < 4, (pktAt u (u.src.toNat + i)).isSome := by
    intro i hi
    rw [pktAt, h.pkt, show u.src.toNat + i = s.src.toNat + (4 * wordIndex f + i) by omega]
    exact hs.written _ (by omega)
  have hF : ∀ q i fld, IsField q i (wordIndex f) fld →
      hextetSample s q (planeColumns q s.col + i) = fieldOf fld (packetWord u.pkt u.src) := by
    rintro q i fld ⟨-, -, hplace⟩
    rw [hextetSample, add_sub_cancel_left, hplace, h.pkt, hsrc]
  obtain ⟨t, ht⟩ := wordStep_completes hrow h.pointer (h.emitted.dest.trans hs.dest)
    (fun q i fld ⟨hi0, hi1, _⟩ => by
      rw [h.emitted.row]
      exact sampleAt_isSome_of_emitted h.emitted (hs.place q i hi0 hi1))
    hg (by omega) (by rw [h.pktCap]; omega)
  obtain ⟨v, rfl, hv, same, hp⟩ := emitted_wordStep hrow h.pointer hF hw hg ht
  obtain ⟨g, c, e, -⟩ := wordRow_continues hrow v
  refine ⟨k v, ht, ?_⟩
  rw [e]
  refine ⟨emitted_trans (emitted_trans h.emitted hv) (emitted_cursor _ v g c v.src), ?_, ?_,
    same.lineEnd.trans h.lineEnd, same.pkt.trans h.pkt, same.pktCap.trans h.pktCap⟩
  · intro q
    rw [← hp q]
    cases q <;> rfl
  · have : v.src = u.src + 4 := same.src
    dsimp only
    omega

/-- The planes of a hextet of six columns (R104). -/
theorem planeColumns_add_six (p : Plane) (x : Int) :
    planeColumns p (x + 6) = planeColumns p x + perHextet p := by
  cases p <;> simp only [planeColumns, perHextet, ceilHalf] <;> omega

theorem samplesBefore_four (p : Plane) : samplesBefore 4 p = perHextet p := by cases p <;> rfl

/-- All four words read, each sample of the hextet is its field of its word. -/
theorem sampleAt_afterWords (hs : FullHextet s) (h : AfterWords s 4 t) {i c : Int}
    (hi : 0 ≤ i ∧ i < perHextet p) (hc : c = planeColumns p s.col + i) :
    sampleAt t p s.row c = some (fieldOf (placeInHextet p i).2
      (packetWord s.pkt (s.src + 4 * (placeInHextet p i).1))) := by
  subst hc
  have := hs.start p
  have := h.pointer p
  rw [samplesBefore_four] at this
  rw [h.emitted.sample, if_pos ⟨⟨hs.dest, rfl⟩, by omega, by omega⟩, hextetSample,
    add_sub_cancel_left]

end

/-- Settles O31: each of the four words is read once and its fields go to their own places of the
hextet, so that the pointers pass over its samples and no others. -/
theorem fullHextetNetEffect : Obligations.FullHextetNetEffect := by
  intro s f hd hslot hcol hcol0 hyp hup hvp hfw hfull hr0 hr1 hend hsrc hcap hw
  have half : ceilHalf s.col = s.col / 2 := by rw [ceilHalf]; omega
  have hs : FullHextet s := by
    refine ⟨hd, ?_, ?_, hend, hsrc, hcap, hw⟩
    · rintro (_ | _ | _) <;> simp only [pointer, planeColumns, half] <;> assumption
    · intro p i h0 h1
      rw [sampleAt_eq hslot, if_pos]
      · rfl
      · rw [inRange_iff]
        refine ⟨hr0, hr1, ?_⟩
        rw [Frame.columns, hfw]
        cases p <;> simp only [planeColumns, perHextet, ceilHalf] at h1 ⊢ <;> omega
  obtain ⟨t1, e1, a1⟩ := afterWords_succ .word1 hs (afterWords_zero hs)
  obtain ⟨t2, e2, a2⟩ := afterWords_succ .word2 hs a1
  obtain ⟨t3, e3, a3⟩ := afterWords_succ .word3 hs a2
  obtain ⟨t4, e4, (a4 : AfterWords s 4 t4)⟩ := afterWords_succ .word4 hs a3
  have sample (p : Plane) (i c : Int) := sampleAt_afterWords (p := p) (i := i) (c := c) hs a4
  have hp := a4.pointer
  refine ⟨t4, andThen_of_next e1 <| andThen_of_next e2 <| andThen_of_next e3 e4, ?_, ?_, a4.src,
    ?_, ?_, ?_⟩
  · have startY : planeColumns .y s.col = s.col := rfl
    have startU : planeColumns .u s.col = s.col / 2 := half
    have startV : planeColumns .v s.col = s.col / 2 := half
    exact ⟨sample .y 0 _ (by decide) (by omega), sample .y 1 _ (by decide) (by omega),
      sample .y 2 _ (by decide) (by omega), sample .y 3 _ (by decide) (by omega),
      sample .y 4 _ (by decide) (by omega), sample .y 5 _ (by decide) (by omega),
      sample .u 0 _ (by decide) (by omega), sample .u 1 _ (by decide) (by omega),
      sample .u 2 _ (by decide) (by omega), sample .v 0 _ (by decide) (by omega),
      sample .v 1 _ (by decide) (by omega), sample .v 2 _ (by decide) (by omega)⟩
  · intro p r c hout
    rw [a4.emitted.sample, if_neg]
    rintro ⟨⟨-, rfl⟩, h1, h2⟩
    rw [hs.start] at h1
    rw [hp, samplesBefore_four, ← planeColumns_add_six] at h2
    omega
  · rw [hyp]; exact hp .y
  · rw [hup, ← half]; exact hp .u
  · rw [hvp, ← half]; exact hp .v

end Sys2Proof.Machine
end

section
/-! PROOF. What a decode in progress has produced is the format's (R180, R189, R206, R239). -/

namespace Sys2Proof.Machine

open Sys2Proof.Safety

/-! The parts of the content invariant. -/

/-- The frame in the slot has the width in progress. -/
def SlotFits (s : State) : Prop := ∀ f, s.slot = some f → f.w = widthOf s

/-- All earlier rows and the first `n p` columns of the current row hold the format's samples. -/
def DecodedTo (s : State) (n : Plane → Int) : Prop :=
  ∀ p r c v, sampleAt s p r c = some v → r < s.row ∨ r = s.row ∧ c < n p →
    v = formatSample s.pkt (widthOf s) p r c

/-- The content of a state that holds a frame. -/
def Content (s : State) : Prop := DecodedTo s (columnsDone s) ∧ ScratchDecoded s

section

variable {s t : State}

theorem contentInv_of_content (hw : SlotFits s) (h : PacketWritten s → Content s) :
    ContentInv s := by
  intro _ hpkt
  obtain ⟨hrows, hscratch⟩ := h hpkt
  refine ⟨fun f hf p r c hr hc => ?_, hscratch⟩
  rw [hw f hf]
  exact hrows p r c _ ((sampleAt_eq_some hf).mpr ⟨hr, rfl⟩) hc

theorem content_of_inv (hw : SlotFits s) (hf : holdsFrame s.fsm) (hpkt : PacketWritten s)
    (h : ContentInv s) : Content s := by
  obtain ⟨hrows, hscratch⟩ := h hf hpkt
  refine ⟨fun p r c v hv hc => ?_, hscratch⟩
  obtain ⟨f, hs, hr, rfl⟩ := frame_of_sampleAt hv
  rw [hrows f hs p r c hr hc, hw f hs]

theorem contentInv_of_noFrame (h : holdsFrame s.fsm = false) : ContentInv s := by
  intro hf
  rw [h] at hf
  cases hf

/-- A place of the held frame has no negative row or column. -/
theorem sampleAt_nonneg {p : Plane} {r c : Int} {v : Sample} (h : sampleAt s p r c = some v) :
    0 ≤ r ∧ 0 ≤ c := by
  obtain ⟨f, -, hr, -⟩ := frame_of_sampleAt h
  obtain ⟨h0, -, h1, -⟩ := inRange_iff.mp hr
  exact ⟨h0, h1⟩

theorem sampleAt_lt_columns (hw : SlotFits s) {p : Plane} {r c : Int} {v : Sample}
    (h : sampleAt s p r c = some v) : c < planeColumns p (widthOf s) := by
  obtain ⟨f, hs, hr, -⟩ := frame_of_sampleAt h
  obtain ⟨-, -, -, hlt⟩ := inRange_iff.mp hr
  rw [← hw f hs]
  exact hlt

/-! What the engine invariant says of the frame and of the hextet. -/

theorem frameReady_of_inv (h : EngineInv s) (hf : holdsFrame s.fsm) : FrameReady s := by
  unfold EngineInv at h
  cases hs : s.fsm <;> rw [hs] at h hf <;> dsimp only at h
  case rowBegin | completing =>
    obtain ⟨hframe, -⟩ := h
    exact hframe
  case hextetSelect | word1 | word2 | word3 | word4 | merge =>
    obtain ⟨⟨⟨hframe, -⟩, -⟩, -⟩ := h
    exact hframe
  case rowEnd =>
    obtain ⟨⟨hframe, -⟩, -⟩ := h
    exact hframe
  all_goals cases hf

theorem slotFits_of_frameReady (h : FrameReady s) : SlotFits s := by
  obtain ⟨-, f, hs, hw, -⟩ := h
  intro g hg
  rw [hs] at hg
  cases hg
  exact hw

/-- In the word states the engine invariant fixes src and the pointers by the words read (R235). -/
theorem wordReady_of_inv {pa pb pc : Plane} {k : State → State} (hrow : WordRow s.fsm pa pb pc k)
    (h : EngineInv s) :
    WordReady s (wordIndex s.fsm) (samplesBefore (wordIndex s.fsm) .y)
      (samplesBefore (wordIndex s.fsm) .u) (samplesBefore (wordIndex s.fsm) .v) := by
  unfold EngineInv at h
  cases hs : s.fsm <;> rw [hs] at h hrow
  case word1 | word2 | word3 | word4 => exact h
  all_goals cases hrow

/-! The content, state by state. -/

/-- Every scratch entry is the sample `F` gives for its buffer and place. -/
def ScratchHolds (s : State) (F : Plane → Int → Sample) : Prop :=
  ∀ p, ∀ i : Nat, ∀ v, (scratchList p s)[i]? = some v → v = F p i

/-- The format's sample at place `i` of the hextet at x (R104, R189). -/
def formatEntry (s : State) (p : Plane) (i : Int) : Sample :=
  formatSample s.pkt (widthOf s) p s.row (planeColumns p s.col + i)

/-- The final columns of the current row inside a hextet (R180). -/
def finalColumns (s : State) (p : Plane) : Int :=
  if s.dest = .real then pointer p s else planeColumns p s.col

/-- The scratch entries inside a hextet: those emitted are the format's, the others neutral
(R201). -/
def partialEntry (s : State) (p : Plane) (i : Int) : Sample :=
  if s.dest = .scratch ∧ i < pointer p s then formatEntry s p i else neutral

/-- The content inside a hextet. -/
def WordContent (s : State) : Prop :=
  DecodedTo s (finalColumns s) ∧ ScratchHolds s (partialEntry s)

theorem content_word_iff {pa pb pc : Plane} {k : State → State}
    (hrow : WordRow s.fsm pa pb pc k) : Content s ↔ WordContent s := by
  unfold Content columnsDone ScratchDecoded
  cases hs : s.fsm <;> rw [hs] at hrow
  case word1 | word2 | word3 | word4 => exact Iff.rfl
  all_goals cases hrow

theorem content_hextetSelect_iff (hf : s.fsm = .hextetSelect) :
    Content s ↔
      DecodedTo s (fun p => planeColumns p s.col) ∧ ScratchHolds s fun _ _ => neutral := by
  unfold Content columnsDone ScratchDecoded
  rw [hf]
  exact Iff.rfl

theorem content_merge_iff (hf : s.fsm = .merge) :
    Content s ↔ DecodedTo s (fun p => planeColumns p s.col) ∧
      (s.col < widthOf s → ScratchHolds s (formatEntry s)) := by
  unfold Content columnsDone ScratchDecoded
  rw [hf]
  exact and_congr_right fun _ =>
    ⟨fun h hc p i v hv => h p i v hv hc, fun h p i v hv hc => h hc p i v hv⟩

theorem content_rowEnd_iff (hf : s.fsm = .rowEnd) :
    Content s ↔ DecodedTo s fun p => planeColumns p (widthOf s) := by
  unfold Content columnsDone ScratchDecoded
  rw [hf]
  exact and_iff_left fun _ _ _ _ => trivial

/-- Between two rows no column of the current row is final. -/
theorem content_betweenRows_iff (hf : s.fsm = .rowBegin ∨ s.fsm = .completing) :
    Content s ↔ DecodedTo s fun _ => 0 := by
  unfold Content columnsDone ScratchDecoded
  rcases hf with hf | hf <;> rw [hf] <;> exact and_iff_left fun _ _ _ _ => trivial

end

end Sys2Proof.Machine
end

section
/-! PROOF. The word steps keep the content: a word emitted is the format's, and the word guard stops
where the format has no word (R189, R202, R206). -/

namespace Sys2Proof.Machine

open Sys2Proof.Safety

/-- The format's sample at a place of the hextet at x: its field, where its word lies in the row
(R104, R206). -/
theorem formatSample_hextet (pkt : List Host.Cell) (w r : Int) {x i : Int} {p : Plane} {j : Nat}
    {fld : Field} (hx : x % 6 = 0) (h : IsField p i j fld) :
    formatSample pkt w p r (planeColumns p x + i) =
      if r * rowStride w + 16 * (x / 6) + 4 * j + 4 ≤ (r + 1) * rowStride w then
        fieldOf fld (packetWord pkt (r * rowStride w + 16 * (x / 6) + 4 * j))
      else neutral := by
  obtain ⟨h0, h1, hplace⟩ := h
  have hpos : (planeColumns p x + i) % perHextet p = i ∧
      (planeColumns p x + i) / perHextet p = x / 6 := by
    cases p <;> simp only [planeColumns, perHextet, ceilHalf] at h1 ⊢ <;> omega
  simp only [formatSample, hpos, hplace]

/-- Every sample of a hextet is a field of a word. -/
theorem exists_isField {p : Plane} {i : Int} (h0 : 0 ≤ i) (h1 : i < perHextet p) :
    ∃ j fld, IsField p i j fld ∧ (placeInHextet p i).1 = (j : Int) := by
  have hj : 0 ≤ (placeInHextet p i).1 := by
    cases p <;> simp only [placeInHextet] <;> split_ifs <;> decide
  obtain ⟨j, hj⟩ := Int.eq_ofNat_of_zero_le hj
  exact ⟨j, (placeInHextet p i).2, ⟨h0, h1, by rw [← hj]⟩, hj⟩

section

variable {s t u : State}

/-- Where in its destination the first sample of a plane's hextet goes (R182, R200). -/
def hextetStart (s : State) (p : Plane) : Int :=
  match s.dest with
  | .real => planeColumns p s.col
  | .scratch => 0

/-- The format's sample at index `i` of the destination. -/
def formatAt (s : State) (p : Plane) (i : Int) : Sample := formatEntry s p (i - hextetStart s p)

/-- Emitting the format's samples keeps the content of a hextet. -/
theorem wordContent_emitted (hs : WordContent s) (h : Emitted (formatAt s) s u)
    (hside : SameHostSide s u) (hcol : u.col = s.col) : WordContent u := by
  obtain ⟨hrows, hscratch⟩ := hs
  have hw : widthOf u = widthOf s := congrArg BitVec.toInt hside.width
  refine ⟨fun p r c v hv hc => ?_, fun p i v hv => ?_⟩
  · rw [hside.pkt, hw]
    rw [h.sample] at hv
    rw [h.row, finalColumns, h.dest, hcol] at hc
    split_ifs at hv with hem
    · obtain ⟨⟨hd, rfl⟩, -, -⟩ := hem
      cases hv
      simp only [formatAt, formatEntry, hextetStart, hd]
      congr 1
      omega
    · refine hrows p r c v hv (hc.imp_right fun hc => ⟨hc.1, ?_⟩)
      rw [finalColumns]
      split_ifs at hc ⊢ with hd
      · by_contra hlt
        exact hem ⟨⟨hd, hc.1⟩, by omega, hc.2⟩
      · exact hc.2
  · rw [h.entry] at hv
    simp only [partialEntry, formatEntry, h.dest, h.row, hside.pkt, hw, hcol]
    split_ifs at hv with hem
    · obtain ⟨hd, -, hlt⟩ := hem
      cases hv
      rw [if_pos ⟨hd, hlt⟩]
      simp only [formatAt, formatEntry, hextetStart, hd, sub_zero]
    · rw [hscratch p i v hv, partialEntry]
      have := h.pointer_le p
      exact if_congr (and_congr_right fun hd => ⟨fun _ => by omega, fun hi => by
        by_contra hlt
        exact hem ⟨hd, by omega, hi⟩⟩) rfl rfl

/-- What the engine invariant says before word `j + 1` of a hextet, plane by plane (R235). -/
structure InHextet (s : State) (j : Nat) : Prop where
  row_nonneg : 0 ≤ s.row
  col_mod : s.col % 6 = 0
  col_nonneg : 0 ≤ s.col
  col_lt : s.col < widthOf s
  lineEnd : s.lineEnd = (s.row + 1) * rowStride (widthOf s)
  lineEnd_le : s.lineEnd ≤ heightOf s * rowStride (widthOf s)
  src : s.src = s.row * rowStride (widthOf s) + 16 * (s.col / 6) + 4 * j
  dest : 6 ≤ widthOf s - s.col ∧ s.dest = .real ∨ widthOf s - s.col < 6 ∧ s.dest = .scratch
  pointer : ∀ p, pointer p s = hextetStart s p + samplesBefore j p

theorem inHextet_of_inv {pa pb pc : Plane} {k : State → State} (hrow : WordRow s.fsm pa pb pc k)
    (h : EngineInv s) : InHextet s (wordIndex s.fsm) := by
  obtain ⟨⟨⟨hframe, hr0, hr1⟩, hend, hmod, hc0, -⟩, hc, hsrc, -, hdest⟩ := wordReady_of_inv hrow h
  obtain ⟨-, hw, -, hstride, -⟩ := hframe.1
  have half : ceilHalf s.col = s.col / 2 := by rw [ceilHalf]; omega
  rw [hstride] at hend hsrc
  refine ⟨hr0, hmod, hc0, hc, hend, ?_, hsrc, hdest.imp
    (fun ⟨hfull, hd, _⟩ => ⟨hfull, hd⟩) (fun ⟨hpart, hd, _⟩ => ⟨hpart, hd⟩), ?_⟩
  · rw [hend]
    exact mul_le_mul_of_nonneg_right (by omega) (by rw [rowStride]; omega)
  · rcases hdest with ⟨-, hd, hy, hu, hv⟩ | ⟨-, hd, hy, hu, hv⟩ <;>
      rintro (_ | _ | _) <;>
      simp only [pointer, hextetStart, hd, planeColumns, half, zero_add] <;> assumption

section

variable {j : Nat} (hj : InHextet s j)

include hj

/-- The bytes left in the row depend on the width alone (R161). -/
theorem bytesLeft_eq : s.lineEnd - s.src = widthOf s * 8 / 3 - 16 * (s.col / 6) - 4 * j := by
  rw [hj.lineEnd, hj.src, add_mul, one_mul, rowStride]
  omega

/-- A full hextet has all of its four words in the row (R203). -/
theorem dest_scratch_of_guard (h4 : j < 4) (hg : s.lineEnd - s.src < 4) : s.dest = .scratch := by
  have hleft := bytesLeft_eq hj
  have hmod := hj.col_mod
  rcases hj.dest with ⟨hfull, -⟩ | ⟨-, hd⟩
  · omega
  · exact hd

/-- A hextet with its fourth word whole in the row is a full one (R203). -/
theorem dest_real_of_fourth (h4 : j = 3) (hg : 4 ≤ s.lineEnd - s.src) :
    6 ≤ widthOf s - s.col ∧ s.dest = .real := by
  have hleft := bytesLeft_eq hj
  have hmod := hj.col_mod
  rcases hj.dest with hreal | ⟨hpart, -⟩
  · exact hreal
  · omega

/-- The samples of the word at src are the format's (R189). -/
theorem formatAt_field (hg : 4 ≤ s.lineEnd - s.src) {p : Plane} {i : Int} {fld : Field}
    (hi : IsField p i j fld) :
    formatAt s p (hextetStart s p + i) = fieldOf fld (packetWord s.pkt s.src) := by
  have hend := hj.lineEnd
  have hsrc := hj.src
  rw [formatAt, add_sub_cancel_left, formatEntry, formatSample_hextet _ _ _ hj.col_mod hi, ← hsrc,
    if_pos (by omega)]

/-- The bytes of the word at src lie in the rows of the packet (R71, R282). -/
theorem word_written (hpkt : PacketWritten s) (hg : 4 ≤ s.lineEnd - s.src) :
    ∀ i < 4, (pktAt s (s.src.toNat + i)).isSome := by
  intro i hi
  have hend := hj.lineEnd_le
  have h0 : 0 ≤ s.src := by
    have hw := hj.col_lt
    have hc := hj.col_nonneg
    have : 0 ≤ s.row * rowStride (widthOf s) :=
      mul_nonneg hj.row_nonneg (by rw [rowStride]; omega)
    rw [hj.src]
    omega
  exact hpkt _ (by push_cast; omega)

/-- Where the word guard fires, the format has no word for the samples not yet emitted, and they are
neutral (R202, R206). -/
theorem partialEntry_of_guard (hd : s.dest = .scratch) (hg : s.lineEnd - s.src < 4) {p : Plane}
    {i : Int} (h0 : 0 ≤ i) (h1 : i < perHextet p) : partialEntry s p i = formatEntry s p i := by
  rw [partialEntry]
  split_ifs with hi
  · rfl
  · obtain ⟨j', fld, hfield, hplace⟩ := exists_isField h0 h1
    have hp := hj.pointer p
    simp only [hextetStart, hd, zero_add] at hp
    have hle : (j : Int) ≤ j' := by
      rw [← hplace, ← samplesBefore_le_iff j h0 h1]
      by_contra hlt
      exact hi ⟨hd, by omega⟩
    have hend := hj.lineEnd
    have hsrc := hj.src
    rw [formatEntry, formatSample_hextet _ _ _ hj.col_mod hfield, if_neg (by omega)]

/-- The word guard keeps the content: MERGE finds every entry that the format puts there (R202). -/
theorem content_of_guard (h4 : j < 4) (hg : s.lineEnd - s.src < 4) (hs : WordContent s) :
    Content { s with fsm := .merge } := by
  have hd := dest_scratch_of_guard hj h4 hg
  obtain ⟨hrows, hscratch⟩ := hs
  refine (content_merge_iff rfl).mpr ⟨fun p r c v hv hc => hrows p r c v hv ?_,
    fun _ p i v hv => ?_⟩
  · simpa only [finalColumns, hd, reduceCtorEq, if_false] using hc
  · have hlen : i < (scratchList p s).length := (List.getElem?_eq_some_iff.mp hv).1
    rw [length_scratchList] at hlen
    refine (hscratch p i v hv).trans (partialEntry_of_guard hj hd hg (Int.natCast_nonneg i) ?_)
    cases p <;> simp only [scratchSize, perHextet] at hlen ⊢ <;> omega

end

/-- The end of a full hextet: its columns are final (R188). -/
theorem content_endHextet (hs : WordContent s) (hd : s.dest = .real)
    (hfull : 6 ≤ widthOf s - s.col)
    (hp : ∀ p, pointer p s = planeColumns p s.col + samplesBefore 4 p) :
    Content (endHextet s) := by
  obtain ⟨hrows, hscratch⟩ := hs
  have decoded : DecodedTo s fun p => planeColumns p (s.col + 6) := by
    intro p r c v hv hc
    refine hrows p r c v hv ?_
    rwa [finalColumns, if_pos hd, hp, samplesBefore_four, ← planeColumns_add_six]
  rw [endHextet, if_neg (by omega)]
  split_ifs with hmore
  · refine (content_hextetSelect_iff rfl).mpr ⟨decoded, fun p i v hv => ?_⟩
    refine (hscratch p i v hv).trans (if_neg ?_)
    simp only [hd, reduceCtorEq, false_and, not_false_eq_true]
  · exact (content_merge_iff rfl).mpr ⟨decoded, fun h => absurd h hmore⟩

/-- A word step keeps the content (R185 to R189, R202). -/
theorem content_wordStep {pa pb pc : Plane} {k : State → State}
    (hrow : WordRow s.fsm pa pb pc k) (hi : EngineInv s) (hpkt : PacketWritten s)
    (hs : Content s) (h : wordStep pa pb pc k s = .next t) : Content t := by
  have hj := inHextet_of_inv hrow hi
  have hword := (content_word_iff hrow).mp hs
  by_cases hg : s.lineEnd - s.src < 4
  · rw [wordStep_guard pa pb pc k hg] at h
    cases h
    exact content_of_guard hj (wordIndex_lt hrow) hg hword
  · have hg : 4 ≤ s.lineEnd - s.src := by omega
    obtain ⟨u, rfl, hem, same, hp⟩ := emitted_wordStep hrow hj.pointer
      (fun q i fld hi => formatAt_field hj hg hi) (word_written hj hpkt hg) hg h
    have hu := wordContent_emitted hword hem
      (sameHostSide_trans (by constructor <;> rfl) same.toSameHostSide) same.col
    generalize hf : s.fsm = f at hrow
    cases hrow with
    | word1 => exact (content_word_iff .word2).mpr hu
    | word2 => exact (content_word_iff .word3).mpr hu
    | word3 => exact (content_word_iff .word4).mpr hu
    | word4 =>
      have hw : widthOf u = widthOf s := congrArg BitVec.toInt same.width
      obtain ⟨hfull, hd⟩ := dest_real_of_fourth hj (by rw [hf]; rfl) hg
      refine content_endHextet hu (hem.dest.trans hd) ?_ fun p => ?_
      · rw [hw, same.col]
        exact hfull
      · rw [hp p, hextetStart, hd, same.col, hf]
        rfl

end

end Sys2Proof.Machine
end

section
/-! PROOF. The steps between the hextets keep the content (R200, R205, R220, R225), and so every
step does (R239). -/

namespace Sys2Proof.Machine

open Sys2Proof.Safety

section

variable {s t : State}

/-- ROW_BEGIN starts a row of which nothing is final, with neutral scratch entries (R220). -/
theorem content_rowBegin (hf : s.fsm = .rowBegin) (hw : 0 < widthOf s) (hs : Content s)
    (h : execRowBegin s = .next t) : Content t := by
  have hrows := (content_betweenRows_iff (.inl hf)).mp hs
  cases h
  refine (content_hextetSelect_iff (if_pos hw)).mpr ⟨fun p r c v hv hc => hrows p r c v hv ?_, ?_⟩
  · cases p <;> exact hc
  · intro p i v hv
    have hmem := List.mem_of_getElem? hv
    cases p <;> simpa [scratchList] using hmem

/-- HEXTET_SELECT writes neither the frame nor a scratch buffer (R200). -/
theorem content_hextetSelect (hf : s.fsm = .hextetSelect) (hcol : s.col % 6 = 0) (hs : Content s)
    (h : execHextetSelect s = .next t) : Content t := by
  have half : ceilHalf s.col = s.col / 2 := by rw [ceilHalf]; omega
  obtain ⟨hrows, hscratch⟩ := (content_hextetSelect_iff hf).mp hs
  rcases hextetSelect_next h with ⟨-, rfl⟩ | ⟨-, -, rfl⟩
  · refine (content_word_iff .word1).mpr ⟨hrows, fun p i v hv => (hscratch p i v hv).trans ?_⟩
    rw [partialEntry, if_neg]
    cases p <;> simp only [pointer] <;> omega
  · refine (content_word_iff .word1).mpr ⟨fun p r c v hv hc => hrows p r c v hv ?_,
      fun p i v hv => (hscratch p i v hv).trans (if_neg nofun).symm⟩
    cases p <;> simpa only [finalColumns, if_true, pointer, planeColumns, half] using hc

/-- ROW_END moves past a row that is final (R225). -/
theorem content_rowEnd (hf : s.fsm = .rowEnd) (hfits : SlotFits s) (hs : Content s)
    (h : execRowEnd s = .next t) : Content t := by
  have hrows := (content_rowEnd_iff hf).mp hs
  cases h
  refine (content_betweenRows_iff ?_).mpr fun p r c v hv hc => hrows p r c v hv ?_
  · dsimp only
    split_ifs
    · exact .inl rfl
    · exact .inr rfl
  · have h0 := sampleAt_nonneg hv
    have hlast := sampleAt_lt_columns (s := s) hfits hv
    dsimp only at hc ⊢
    omega

/-- A new frame has no final row (R162). -/
theorem content_newFrame (hf : s.fsm = .rowBegin) (hr : s.row = 0) : Content s := by
  refine (content_betweenRows_iff (.inl hf)).mpr fun p r c v hv hc => ?_
  have := sampleAt_nonneg hv
  dsimp only at hc
  omega

end

/-! MERGE_BACK. -/

/-- The frame with one run of samples written in a row of each plane. -/
def Frame.writeRuns (f : Frame) (r : Int) (start : Plane → Int) (l : Plane → List Sample) : Frame :=
  ((f.writeRun .y r (start .y) (l .y)).writeRun .u r (start .u) (l .u)).writeRun .v r (start .v)
    (l .v)

theorem writeRuns_inRange (f : Frame) (r : Int) (start : Plane → Int) (l : Plane → List Sample)
    (q : Plane) (r' c' : Int) : (f.writeRuns r start l).inRange q r' c' = f.inRange q r' c' := by
  simp only [Frame.writeRuns, writeRun_inRange]

/-- A plane sees its own run only. -/
theorem sample_writeRuns {f : Frame} {r : Int} {start : Plane → Int} {l : Plane → List Sample}
    (hin : ∀ p, ∀ i : Nat, i < (l p).length → f.inRange p r (start p + i)) {q : Plane} {r' c' : Int}
    (h' : f.inRange q r' c') :
    (f.writeRuns r start l).sample q r' c' =
      if r' = r ∧ start q ≤ c' ∧ c' < start q + (l q).length then
        (l q).getD (c' - start q).toNat 0#16
      else f.sample q r' c' := by
  rw [Frame.writeRuns, sample_writeRun (by simpa using hin .v) (by simpa using h'),
    sample_writeRun (by simpa using hin .u) (by simpa using h'), sample_writeRun (hin .y) h']
  cases q <;> simp

/-- The samples MERGE_BACK copies into a plane: the columns left of the row (R205). -/
def mergeRun (s : State) (p : Plane) : List Sample :=
  (scratchList p s).take (planeColumns p (widthOf s - s.col)).toNat

section

variable {s t : State}

/-- A MERGE_BACK of a partial hextet copies one run into each plane (R205). -/
theorem mergeBack_runs (hcol : s.col % 6 = 0) (hlt : s.col < widthOf s)
    (h : execMergeBack s = .next t) :
    t = { s with
        slot := s.slot.map fun f => f.writeRuns s.row (fun p => planeColumns p s.col) (mergeRun s)
        fsm := .rowEnd } ∧
      ∀ f, s.slot = some f → ∀ p, ∀ i : Nat, i < (mergeRun s p).length →
        f.inRange p s.row (planeColumns p s.col + i) := by
  have half : s.col / 2 = ceilHalf s.col := by rw [ceilHalf]; omega
  rcases mergeBack_next h with ⟨hle, -⟩ | ⟨-, -, -, _, _, _, rfl, rfl, rfl, rfl, hin⟩
  · omega
  · rw [half] at hin ⊢
    refine ⟨rfl, fun f hf p => ?_⟩
    obtain ⟨hy, hu, hv⟩ := hin f hf
    cases p
    · exact hy
    · exact hu
    · exact hv

/-- The columns of a plane before the last hextet and in it. -/
theorem planeColumns_split {x w : Int} (hx : x % 6 = 0) (p : Plane) :
    planeColumns p w = planeColumns p x + planeColumns p (w - x) := by
  cases p <;> simp only [planeColumns, ceilHalf] <;> omega

/-- A partial hextet has fewer columns than a scratch buffer has entries (R46). -/
theorem length_mergeRun (hlt : s.col < widthOf s) (hpart : widthOf s - s.col < 6) (p : Plane) :
    ((mergeRun s p).length : Int) = planeColumns p (widthOf s - s.col) := by
  rw [mergeRun, List.length_take, length_scratchList]
  cases p <;> simp only [planeColumns, scratchSize, ceilHalf] <;> omega

/-- What MERGE_BACK copies are scratch entries. -/
theorem mergeRun_entry {p : Plane} {i : Nat} (hi : i < (mergeRun s p).length) :
    (scratchList p s)[i]? = some ((mergeRun s p).getD i 0#16) := by
  have hi' : i < (scratchList p s).length := lt_of_lt_of_le hi (List.length_take_le' ..)
  rw [List.getD_eq_getElem _ _ hi, List.getElem?_eq_getElem hi']
  exact congrArg some List.getElem_take.symm

/-- MERGE_BACK makes the row final (R205, R206). -/
theorem content_mergeBack (hf : s.fsm = .merge) (hcol : s.col % 6 = 0)
    (hle : s.col ≤ widthOf s) (hpart : s.col < widthOf s → widthOf s - s.col < 6)
    (hs : Content s) (h : execMergeBack s = .next t) : Content t := by
  obtain ⟨hrows, hscratch⟩ := (content_merge_iff hf).mp hs
  by_cases hlt : s.col < widthOf s
  · obtain ⟨rfl, hin⟩ := mergeBack_runs hcol hlt h
    refine (content_rowEnd_iff rfl).mpr fun p r c v hv hc => ?_
    change r < s.row ∨ r = s.row ∧ c < planeColumns p (widthOf s) at hc
    obtain ⟨g, hg, hr, hsample⟩ := frame_of_sampleAt hv
    obtain ⟨f, hslot, rfl⟩ := Option.map_eq_some_iff.mp hg
    rw [writeRuns_inRange] at hr
    rw [sample_writeRuns (hin f hslot) hr] at hsample
    split_ifs at hsample with hrun
    · obtain ⟨rfl, h1, h2⟩ := hrun
      have hentry := mergeRun_entry (s := s) (p := p) (i := (c - planeColumns p s.col).toNat)
        (by omega)
      rw [hsample] at hentry
      rw [hscratch hlt p _ v hentry, formatEntry]
      congr 1
      omega
    · have hlen := length_mergeRun hlt (hpart hlt) p
      have hsplit := planeColumns_split (w := widthOf s) hcol p
      refine hrows p r c v ((sampleAt_eq_some hslot).mpr ⟨hr, hsample⟩) ?_
      dsimp only
      omega
  · rcases mergeBack_next h with ⟨-, rfl⟩ | ⟨hlt', -⟩
    · refine (content_rowEnd_iff rfl).mpr fun p r c v hv hc => hrows p r c v hv ?_
      have hw : s.col = widthOf s := by omega
      rw [hw]
      exact hc
    · exact absurd hlt' hlt

/-! The invariant as a whole. -/

/-- A property `Q` holds after every step from a state with `P`, if `P` is blind to the turn and the
program, and what a host operation does and what the engine's own step does lead from `P` to `Q`. -/
theorem step_leads_of_parts {P Q : State → Prop} (hrest : ∀ s, P s → Q s)
    (hturn : ∀ s, P s → P (useTurn s)) (hpop : ∀ s, P s → P (popProgram s))
    (hhost : ∀ s t, P s → HostDone s t → Q t) (hengine : ∀ s t, P s → EngineRan s t → Q t)
    (hs : P s) (h : step s = .next t) : Q t := by
  rcases step_next h with rfl | ⟨i, u, hf, he⟩
  · exact hrest _ hs
  · rcases fetch_run hf with ⟨hd, rfl⟩ | ⟨hi, rfl | rfl⟩
    · exact hengine _ t (hturn s hs) (exec_engine hd he)
    · exact hhost _ t (hturn s hs) (exec_host hi he)
    · exact hhost _ t (hpop _ (hturn s hs)) (exec_host hi he)

theorem packetWritten_congr (h : SameHostSide s t) (ht : PacketWritten t) : PacketWritten s := by
  intro o ho
  have hw : widthOf t = widthOf s := congrArg BitVec.toInt h.width
  have hh : heightOf t = heightOf s := congrArg BitVec.toInt h.height
  have := ht o (by rwa [hw, hh])
  rwa [pktAt, h.pkt] at this

/-- An engine step in a state that holds a frame keeps the content invariant if it keeps the content
and the width of the frame. -/
theorem contentInv_of_step (hi : EngineInv s) (hf : holdsFrame s.fsm) (hs : ContentInv s)
    (hside : SameHostSide s t) (hframe : t.slot.map Frame.w = s.slot.map Frame.w)
    (hstep : PacketWritten s → Content s → Content t) : ContentInv t := by
  have hfits := slotFits_of_frameReady (frameReady_of_inv hi hf)
  refine contentInv_of_content (fun f hslot => ?_) fun hpkt => ?_
  · rw [hslot] at hframe
    obtain ⟨g, hg, hgw⟩ := Option.map_eq_some_iff.mp hframe.symm
    rw [← hgw, hfits g hg]
    exact (congrArg BitVec.toInt hside.width).symm
  · have hpkt' := packetWritten_congr hside hpkt
    exact hstep hpkt' (content_of_inv hfits hf hpkt' hs)

/-- A word step keeps the geometry of the frame (R75). -/
theorem frameWidth_wordStep {pa pb pc : Plane} {k : State → State} (hrow : WordRow s.fsm pa pb pc k)
    (h : wordStep pa pb pc k s = .next t) : t.slot.map Frame.w = s.slot.map Frame.w := by
  refine wordStep_keeps (P := fun u => u.slot.map Frame.w = s.slot.map Frame.w) (fun _ hu => hu)
    (fun _ _ hu => hu) (fun p w u u' hu v _ hw => ?_) (fun u hu => ?_) rfl h
  · exact (emitted_writeSample (F := fun _ _ => v) hw rfl).frameWidth.trans hu
  · obtain ⟨g, c, e, -⟩ := wordRow_continues hrow u
    rw [e]
    exact hu

theorem contentInv_engine (hi : EngineInv s) (hs : ContentInv s) (h : EngineRan s t) :
    ContentInv t := by
  cases h with
  | validate hf h =>
    rcases validate_next h with ⟨-, rfl⟩ | ⟨-, -, ⟨-, rfl⟩ | ⟨-, rfl⟩⟩ <;>
      exact contentInv_of_noFrame rfl
  | acquire hf h =>
    cases h
    obtain ⟨d, e | ⟨hnd, -, -, e⟩⟩ := acquireFrame_spec s <;> rw [e]
    · exact contentInv_of_noFrame rfl
    · refine contentInv_of_content ?_ fun _ => content_newFrame rfl rfl
      rintro f ⟨⟩
      rfl
  | rowBegin hf h =>
    have hholds : holdsFrame s.fsm := by rw [hf]; rfl
    obtain ⟨⟨-, hw, -⟩, -⟩ := frameReady_of_inv hi hholds
    refine contentInv_of_step hi hholds hs (engineStepsLeaveTheHostSide s t .rowBegin rfl h) ?_
      fun _ hc => content_rowBegin hf (by omega) hc h
    cases h
    rfl
  | hextetSelect hf h =>
    obtain ⟨⟨-, -, hmod, -⟩, -⟩ : HextetReady s ∧ s.col < widthOf s ∧ _ := by
      rw [EngineInv, hf] at hi
      exact hi
    refine contentInv_of_step hi (by rw [hf]; rfl) hs
      (engineStepsLeaveTheHostSide s t .hextetSelect rfl h) ?_
      fun _ hc => content_hextetSelect hf hmod hc h
    rcases hextetSelect_next h with ⟨-, rfl⟩ | ⟨-, -, rfl⟩ <;> rfl
  | word pa pb pc k hrow h =>
    exact contentInv_of_step hi (wordRow_holdsFrame hrow) hs (sameHostSide_wordStep hrow h)
      (frameWidth_wordStep hrow h) fun hpkt hc => content_wordStep hrow hi hpkt hc h
  | mergeBack hf h =>
    obtain ⟨⟨-, -, hmod, -, hle⟩, hpart⟩ :
        HextetReady s ∧ (s.col < widthOf s → s.dest = .scratch ∧ widthOf s - s.col < 6) := by
      rw [EngineInv, hf] at hi
      exact hi
    refine contentInv_of_step hi (by rw [hf]; rfl) hs
      (engineStepsLeaveTheHostSide s t .mergeBack rfl h) ?_
      fun _ hc => content_mergeBack hf hmod hle (fun hlt => (hpart hlt).2) hc h
    rcases mergeBack_next h with ⟨-, rfl⟩ | ⟨-, -, -, _, _, _, -, -, -, rfl, -⟩
    · rfl
    · cases hslot : s.slot <;> simp
  | rowEnd hf h =>
    have hholds : holdsFrame s.fsm := by rw [hf]; rfl
    have hfits := slotFits_of_frameReady (frameReady_of_inv hi hholds)
    refine contentInv_of_step hi hholds hs (engineStepsLeaveTheHostSide s t .rowEnd rfl h) ?_
      fun _ hc => content_rowEnd hf hfits hc h
    cases h
    rfl
  | complete hf h =>
    cases h
    exact contentInv_of_noFrame rfl

/-- While the engine holds a frame the host can only read, or reset the block (R131, R290). -/
theorem contentInv_host (hs : ContentInv s) (h : HostDone s t) : ContentInv t := by
  have free : busy s = false → holdsFrame s.fsm = false := by
    intro hb
    cases hf : s.fsm <;> simp [busy, busyState, hf] at hb <;> rfl
  cases h with
  | read | noop => exact hs
  | width _ hb | height _ hb | tag _ hb | pktLen _ hb | pkt _ _ hb _ =>
    exact contentInv_of_noFrame (free hb)
  | start => exact contentInv_of_noFrame rfl
  | close => exact contentInv_of_noFrame (by rw [closeBlock_eq]; rfl)
  | reset _ h => cases h; exact contentInv_of_noFrame rfl

end

/-- Settles O42: host operations do not touch a decode in progress, and each engine step of a row
adds to the final samples those that the format puts there. -/
theorem stepKeepsDecodedContent : Obligations.StepKeepsDecodedContent := by
  intro s t hi hs h
  exact step_leads_of_parts (P := fun u => EngineInv u ∧ ContentInv u) (Q := ContentInv)
    (fun _ hu => hu.2) (fun _ hu => hu) (fun _ hu => hu) (fun _ _ hu => contentInv_host hu.2)
    (fun _ _ hu => contentInv_engine hu.1 hu.2) ⟨hi, hs⟩ h

end Sys2Proof.Machine
end

section
/-! PROOF. MERGE_BACK copies the valid entries of the scratch buffers into the columns of the partial
hextet (R205). -/

namespace Sys2Proof.Machine

open Sys2Proof.Safety

section

variable {s t : State} {f : Frame}

/-- The columns of a plane before an even column and from it on. -/
theorem planeColumns_split_of_even {x w : Int} (hx : x % 2 = 0) (p : Plane) :
    planeColumns p w = planeColumns p x + planeColumns p (w - x) := by
  cases p <;> simp only [planeColumns, ceilHalf] <;> omega

/-- The frame after a partial hextet's samples are copied into its columns (R205). -/
def mergedFrame (s : State) (f : Frame) : Frame :=
  f.writeRuns s.row (fun p => planeColumns p s.col) (mergeRun s)

/-- The columns a partial hextet is copied to lie in the frame. -/
theorem mergeRun_inRange (hw : f.w = widthOf s) (hr0 : 0 ≤ s.row) (hr1 : s.row < f.h)
    (heven : s.col % 2 = 0) (hc0 : 0 ≤ s.col) (hlt : s.col < widthOf s)
    (hpart : widthOf s - s.col < 6) (p : Plane) (i : Nat) (hi : i < (mergeRun s p).length) :
    f.inRange p s.row (planeColumns p s.col + i) := by
  have hlen := length_mergeRun hlt hpart p
  have hsplit := planeColumns_split_of_even (w := widthOf s) heven p
  have hstart : 0 ≤ planeColumns p s.col := by
    cases p <;> simp only [planeColumns, ceilHalf] <;> omega
  rw [inRange_iff, Frame.columns, hw]
  exact ⟨hr0, hr1, by omega, by omega⟩

/-- A MERGE_BACK of a partial scratch hextet whose columns lie in the held frame (R205). -/
theorem mergeBack_partial (hs : s.slot = some f) (heven : s.col % 2 = 0) (hlt : s.col < widthOf s)
    (hd : s.dest = .scratch) (hpart : widthOf s - s.col < 6)
    (hin : ∀ p, ∀ i : Nat, i < (mergeRun s p).length →
      f.inRange p s.row (planeColumns p s.col + i)) :
    execMergeBack s = .next { s with slot := some (mergedFrame s f), fsm := .rowEnd } := by
  have half : s.col / 2 = ceilHalf s.col := by rw [ceilHalf]; omega
  rw [execMergeBack, if_pos hlt, if_pos ⟨hd, hpart⟩, half]
  exact andThen_of_next (copySamples_eq hs (hin .y)) <|
    andThen_of_next (copySamples_eq rfl fun i hi => writeRun_inRange.trans (hin .u i hi)) <|
    andThen_of_next (copySamples_eq rfl fun i hi =>
      writeRun_inRange.trans (writeRun_inRange.trans (hin .v i hi))) rfl

/-- A sample after the copy: the scratch entry in the partial hextet's columns, the old sample
elsewhere (R205). -/
theorem sampleAt_mergedFrame (hs : s.slot = some f) (ht : t.slot = some (mergedFrame s f))
    (hin : ∀ p, ∀ i : Nat, i < (mergeRun s p).length →
      f.inRange p s.row (planeColumns p s.col + i)) (p : Plane) (r c : Int) :
    sampleAt t p r c =
      if r = s.row ∧ planeColumns p s.col ≤ c ∧ c < planeColumns p s.col + (mergeRun s p).length
      then (scratchList p s)[(c - planeColumns p s.col).toNat]?
      else sampleAt s p r c := by
  rw [sampleAt_eq ht, sampleAt_eq hs, mergedFrame, writeRuns_inRange]
  by_cases hr : f.inRange p r c
  · rw [if_pos hr, if_pos hr, sample_writeRuns hin hr]
    split_ifs with hrun
    · exact (mergeRun_entry (by omega)).symm
    · rfl
  · rw [if_neg hr, if_neg hr, if_neg]
    rintro ⟨rfl, h0, h1⟩
    have := hin p (c - planeColumns p s.col).toNat (by omega)
    rw [Int.toNat_of_nonneg (by omega), add_sub_cancel] at this
    exact hr this

end

/-- Settles O24: each plane gets one run of scratch entries, as long as its columns of the partial
hextet, and no other place is written. -/
theorem mergeBackCopiesTheValidPrefix : Obligations.MergeBackCopiesTheValidPrefix := by
  refine fun s => ⟨fun hle => if_neg (by omega), fun hlt hd => ?_,
    fun f hs hw hr0 hr1 heven hc0 hlt hd hpart => ?_⟩
  · refine (if_pos hlt).trans (if_neg fun ⟨hd', hpart⟩ => ?_)
    rcases hd with hd | hfull
    · exact absurd (hd.symm.trans hd') nofun
    · omega
  · have hin := mergeRun_inRange hw hr0 hr1 heven hc0 hlt hpart
    have hlen := length_mergeRun hlt hpart
    have hsplit := planeColumns_split_of_even (w := widthOf s) heven
    have half : s.col / 2 = ceilHalf s.col := by rw [ceilHalf]; omega
    obtain ⟨t, ht⟩ : ∃ t, t = { s with slot := some (mergedFrame s f), fsm := .rowEnd } := ⟨_, rfl⟩
    have sample := sampleAt_mergedFrame (t := t) hs (by rw [ht]) hin
    have copied (p : Plane) (i : Nat) (hi : i < planeColumns p (widthOf s - s.col)) :
        sampleAt t p s.row (planeColumns p s.col + i) = (scratchList p s)[i]? := by
      have := hlen p
      rw [sample, if_pos ⟨rfl, by omega, by omega⟩, add_sub_cancel_left, Int.toNat_natCast]
    refine ⟨t, _, ht ▸ mergeBack_partial hs heven hlt hd hpart hin, ht, ?_, ?_, ?_,
      fun i hi => ?_, fun i hi => ?_, fun p r c hout => ?_⟩
    · simp only [mergedFrame, Frame.writeRuns, writeRun_handle]
    · simp only [mergedFrame, Frame.writeRuns, writeRun_w]
    · simp only [mergedFrame, Frame.writeRuns, writeRun_h]
    · exact (copied .y i hi).trans Vector.getElem?_toList
    · rw [half]
      exact ⟨(copied .u i hi).trans Vector.getElem?_toList,
        (copied .v i hi).trans Vector.getElem?_toList⟩
    · have := hlen p
      have := hsplit p
      rw [sample, if_neg (by omega)]

end Sys2Proof.Machine
end

section
/-! PROOF. HEXTET_SELECT and the word guard, and what they leave of a row's partial hextet (R200, R202,
R203, R206). -/

namespace Sys2Proof.Machine

open Sys2Proof.Safety

/-- Settles O17: fewer than 6 columns are the only way to SCRATCH. -/
theorem hextetSelectChoosesTheDestination : Obligations.HextetSelectChoosesTheDestination :=
  fun _ => ⟨fun hpart => (if_pos (.inl hpart)).trans (if_neg (by omega)),
    fun hfull hbytes => (if_pos (.inr hbytes)).trans (if_pos hfull),
    fun hfull hbytes => if_neg (by omega)⟩

/-- Settles O18: all four word steps begin with the same guard. -/
theorem wordGuardStopsTheRow : Obligations.WordGuardStopsTheRow := by
  rintro s i (rfl | rfl | rfl | rfl) hg
  · exact wordStep_guard .u .y .v _ hg
  · exact wordStep_guard .y .u .y _ hg
  · exact wordStep_guard .v .y .u _ hg
  · exact wordStep_guard .y .v .y _ hg

/-- A sample of the hextet after the full ones: its field, where its word lies in the bytes that the
columns left give the row's slice (R203, R206). -/
theorem formatSample_partial (pkt : List Host.Cell) (w r : Int) {p : Plane} {i : Int}
    (hi : 0 ≤ i ∧ i < perHextet p) :
    formatSample pkt w p r (planeColumns p (w - w % 6) + i) =
      if 4 * (placeInHextet p i).1 + 4 ≤ 8 * (w % 6) / 3 then
        fieldOf (placeInHextet p i).2 (packetWord pkt
          (r * rowStride w + 16 * ((w - w % 6) / 6) + 4 * (placeInHextet p i).1))
      else neutral := by
  obtain ⟨j, fld, hfield, hj⟩ := exists_isField hi.1 hi.2
  have ⟨_, _, hplace⟩ := hfield
  have hfld : (placeInHextet p i).2 = fld := congrArg Prod.snd hplace
  have hstride : rowStride w = 16 * ((w - w % 6) / 6) + 8 * (w % 6) / 3 := by
    rw [rowStride]; omega
  rw [formatSample_hextet pkt w r (by omega) hfield, hj, hfld, add_mul, one_mul]
  exact if_congr (by omega) rfl rfl

/-- Settles O32: with m columns left the row's slice has 8 m / 3 bytes after the full hextets, so 0, 1,
2, 2, 3 whole words for m from 1 to 5. -/
theorem partialHextetOutcome : Obligations.PartialHextetOutcome := by
  intro pkt w r _ _
  have half : (w - w % 6) / 2 = ceilHalf (w - w % 6) := by rw [ceilHalf]; omega
  have read {m : Int} (hm : w % 6 = m) (p : Plane) (i : Int)
      (h : (0 ≤ i ∧ i < perHextet p) ∧ 4 * (placeInHextet p i).1 + 4 ≤ 8 * m / 3) :=
    (formatSample_partial pkt w r h.1).trans (if_pos (hm ▸ h.2))
  have unread {m : Int} (hm : w % 6 = m) (p : Plane) (i : Int)
      (h : (0 ≤ i ∧ i < perHextet p) ∧ ¬ 4 * (placeInHextet p i).1 + 4 ≤ 8 * m / 3) :=
    (formatSample_partial pkt w r h.1).trans (if_neg (hm ▸ h.2))
  dsimp only
  rw [half]
  refine ⟨fun h => ?_, fun h => ?_, fun h => ?_, fun h => ?_, fun h => ?_⟩
  · exact ⟨unread h .y 0 (by decide), unread h .u 0 (by decide), unread h .v 0 (by decide)⟩
  · exact ⟨read h .y 0 (by decide), unread h .y 1 (by decide), read h .u 0 (by decide),
      read h .v 0 (by decide)⟩
  · exact ⟨read h .y 0 (by decide), read h .y 1 (by decide), read h .y 2 (by decide),
      read h .u 0 (by decide), read h .u 1 (by decide), read h .v 0 (by decide),
      unread h .v 1 (by decide)⟩
  · exact ⟨read h .y 0 (by decide), read h .y 1 (by decide), read h .y 2 (by decide),
      unread h .y 3 (by decide), read h .u 0 (by decide), read h .u 1 (by decide),
      read h .v 0 (by decide), unread h .v 1 (by decide)⟩
  · exact ⟨read h .y 0 (by decide), read h .y 1 (by decide), read h .y 2 (by decide),
      read h .y 3 (by decide), unread h .y 4 (by decide), read h .u 0 (by decide),
      read h .u 1 (by decide), read h .u 2 (by decide), read h .v 0 (by decide),
      read h .v 1 (by decide), unread h .v 2 (by decide)⟩

end Sys2Proof.Machine
end

section
/-! PROOF. ROW_BEGIN, ROW_END and COMPLETE, and the transition table (R220, R225, R227, R230). -/

namespace Sys2Proof.Machine

open Sys2Proof.Safety

/-- Settles O16: ROW_BEGIN has one outcome. -/
theorem rowBeginStartsTheRow : Obligations.RowBeginStartsTheRow := fun _ => rfl

/-- Settles O25: ROW_END has one outcome. -/
theorem rowEndMovesToTheNextRow : Obligations.RowEndMovesToTheNextRow := fun _ => rfl

/-- Settles O26: COMPLETE has one outcome. -/
theorem completeReportsSuccess : Obligations.CompleteReportsSuccess := fun _ => rfl

/-- A word step goes to MERGE by its guard, and otherwise where its continuation goes (R185 to R188,
R230). -/
theorem wordRow_isTransition {f : Fsm} {pa pb pc : Plane} {k : State → State}
    (hrow : WordRow f pa pb pc k) :
    isTransition f .merge = true ∧ ∀ u, isTransition f (k u).fsm = true := by
  cases hrow with
  | word4 =>
    refine ⟨rfl, fun u => ?_⟩
    rw [endHextet_eq]
    dsimp only
    split_ifs <;> rfl
  | _ => exact ⟨rfl, fun _ => rfl⟩

theorem isTransition_of_engineRan {s t : State} (h : EngineRan s t) :
    isTransition s.fsm t.fsm = true := by
  cases h with
  | validate hf h =>
    rw [hf]
    rcases validate_next h with ⟨-, rfl⟩ | ⟨-, -, ⟨-, rfl⟩ | ⟨-, rfl⟩⟩ <;> rfl
  | acquire hf h =>
    rw [hf]
    cases h
    obtain ⟨d, e | ⟨hnd, -, -, e⟩⟩ := acquireFrame_spec s <;> rw [e] <;> rfl
  | rowBegin hf h | rowEnd hf h =>
    rw [hf]
    cases h
    dsimp only
    split_ifs <;> rfl
  | hextetSelect hf h =>
    rw [hf]
    rcases hextetSelect_next h with ⟨-, rfl⟩ | ⟨-, -, rfl⟩ <;> rfl
  | word pa pb pc k hrow h =>
    obtain ⟨hguard, hnext⟩ := wordRow_isTransition hrow
    rcases wordStep_next.mp h with ⟨-, rfl⟩ | ⟨-, -, _, _, u, -, -, -, rfl⟩
    · exact hguard
    · exact hnext u
  | mergeBack hf h =>
    rw [hf]
    rcases mergeBack_next h with ⟨-, rfl⟩ | ⟨-, -, -, _, _, _, -, -, -, rfl, -⟩ <;> rfl
  | complete hf h =>
    rw [hf]
    cases h
    rfl

/-- Settles O44: each engine step that answers writes one of the successor codes of its own state. -/
theorem engineStepsFollowTheTable : Obligations.EngineStepsFollowTheTable :=
  fun _ _ _ hd h => isTransition_of_engineRan (exec_engine hd h)

end Sys2Proof.Machine
end

section
/-! PROOF. A row reads the whole words of its own slice (R238, R239). -/

namespace Sys2Proof.Machine

open Sys2Proof.Safety

/-- A word depends on its own four bytes (R72). -/
theorem packetWord_congr {pkt pkt' : List Host.Cell} {o : Int}
    (h : ∀ j < 4, Memory.read (n := 8) pkt (o.toNat + j) = Memory.read (n := 8) pkt' (o.toNat + j)) :
    packetWord pkt o = packetWord pkt' o := by
  simp only [packetWord, h, Nat.reduceLT]

/-- A slice of `w * 8 div 3` bytes has four whole words for each full hextet, and then as many as the
bytes of the partial one give (R203, R206). -/
theorem word_in_whole_words {w q k : Int} (h : 16 * q + 4 * k + 4 ≤ rowStride w) :
    16 * q + 4 * k + 4 ≤ 16 * (w / 6) + 4 * (8 * (w % 6) / 3 / 4) := by
  have hstride : rowStride w = 16 * (w / 6) + 8 * (w % 6) / 3 := by rw [rowStride]; omega
  omega

/-- Settles O33: a sample is neutral, or a field of a word that lies whole in the row's slice. -/
theorem rowsDependOnTheirSliceAlone : Obligations.RowsDependOnTheirSliceAlone := by
  intro pkt pkt' w r hw hr hagree p c hc _
  have hbase : 0 ≤ r * rowStride w := mul_nonneg hr (by rw [rowStride]; omega)
  have hq : 0 ≤ c / perHextet p := Int.ediv_nonneg hc (by cases p <;> decide)
  have hk : 0 ≤ (placeInHextet p (c % perHextet p)).1 := by
    cases p <;> simp only [placeInHextet] <;> split_ifs <;> decide
  simp only [formatSample, add_mul, one_mul]
  split_ifs with hin
  · have hwhole := word_in_whole_words (w := w) (q := c / perHextet p)
      (k := (placeInHextet p (c % perHextet p)).1) (by omega)
    rw [packetWord_congr fun j hj => hagree _ (by omega) (by omega)]
  · rfl

end Sys2Proof.Machine
end

section
/-! PROOF. What the steps of a row leave alone, and which samples a word step writes (R75, R182, R185 to
R188). -/

namespace Sys2Proof.Machine

open Sys2Proof.Safety

/-- What a frame keeps from its acquire on: its handle and its geometry (R49, R168). -/
def Frame.acquired (f : Frame) : Word × Int × Int := (f.handle, f.w, f.h)

/-- The fields the steps of a decode in progress leave alone: the host's side, the stride, the frame's
handle and geometry, and the pool-visible history. -/
structure SameDecode (s t : State) : Prop extends SameHostSide s t where
  stride : t.stride = s.stride
  frame : t.slot.map Frame.acquired = s.slot.map Frame.acquired
  history : t.history = s.history

/-- A place of the held frame whose initial content is still there (R168). -/
def Unwritten (s : State) (p : Plane) (r c : Int) : Prop :=
  ∃ f, s.slot = some f ∧ f.inRange p r c ∧ ¬ SampleWritten f p r c

/-- The place index `i` of a destination stands for can be written (R45, R46, R75). -/
def CanWrite (s : State) (p : Plane) (i : Int) : Prop :=
  match s.dest with
  | .real => ∃ f, s.slot = some f ∧ f.inRange p s.row i
  | .scratch => 0 ≤ i ∧ i < scratchSize p

/-- From `s` to `t` samples have been written to the destination, each plane from its pointer in `s` up
to its pointer in `t`, and nothing else has changed. -/
structure SamplesWritten (s t : State) : Prop extends SameButSamples s t where
  frame : t.slot.map Frame.acquired = s.slot.map Frame.acquired
  pointer_le : ∀ p, pointer p s ≤ pointer p t
  unwritten : ∀ p r c, Unwritten t p r c → Unwritten s p r c ∧
    ¬ (s.dest = .real ∧ r = s.row ∧ pointer p s ≤ c ∧ c < pointer p t)

theorem sampleWritten_write {f : Frame} {p q : Plane} {r c r' c' : Int} {v : Sample}
    (h : f.inRange p r c) (h' : f.inRange q r' c') :
    SampleWritten (f.write p r c v) q r' c' ↔
      q = p ∧ r' = r ∧ c' = c ∨ SampleWritten f q r' c' := by
  unfold SampleWritten
  rw [write_storage, write_index]
  by_cases hq : q = p
  · subst hq
    rw [if_pos rfl, memory_read_write]
    by_cases e : f.index q r' c' = f.index q r c
    · simp [index_inj h' h e]
    · have : ¬(r' = r ∧ c' = c) := by
        rintro ⟨rfl, rfl⟩
        exact e rfl
      simp [e, this]
  · simp [hq]

section

variable {s t u : State} {p q : Plane} {v : Sample}

theorem sameDecode_trans (h : SameDecode s t) (h' : SameDecode t u) : SameDecode s u where
  toSameHostSide := sameHostSide_trans h.toSameHostSide h'.toSameHostSide
  stride := h'.stride.trans h.stride
  frame := h'.frame.trans h.frame
  history := h'.history.trans h.history

theorem sameDecode_of_samplesWritten (h : SamplesWritten s t) : SameDecode s t where
  toSameHostSide := h.toSameHostSide
  stride := h.stride
  frame := h.frame
  history := h.history

theorem widthOf_congr (h : SameHostSide s t) : widthOf t = widthOf s :=
  congrArg BitVec.toInt h.width

theorem heightOf_congr (h : SameHostSide s t) : heightOf t = heightOf s :=
  congrArg BitVec.toInt h.height

/-- A frame of the same geometry is still in the slot. -/
theorem slot_of_sameDecode (h : SameDecode s t) {f : Frame} (hf : s.slot = some f) :
    ∃ g, t.slot = some g ∧ g.handle = f.handle ∧ g.w = f.w ∧ g.h = f.h := by
  have hframe := h.frame
  rw [hf] at hframe
  obtain ⟨g, hg, e⟩ := Option.map_eq_some_iff.mp hframe
  simp only [Frame.acquired, Prod.mk.injEq] at e
  exact ⟨g, hg, e⟩

theorem frameReady_congr (h : SameDecode s t) (hs : FrameReady s) : FrameReady t := by
  obtain ⟨⟨⟨hwrW, hwrH, hwrL, hcap⟩, hw, hh, hstride, hlen⟩, f, hslot, hfw, hfh⟩ := hs
  obtain ⟨g, hg, -, hgw, hgh⟩ := slot_of_sameDecode h hslot
  have ew := widthOf_congr h.toSameHostSide
  have eh := heightOf_congr h.toSameHostSide
  unfold FrameReady GeometryReady ConfigReady lengthOf
  rw [ew, eh, h.stride, h.wrW, h.wrH, h.wrL, h.pktLen, h.pktCap]
  exact ⟨⟨⟨hwrW, hwrH, hwrL, hcap⟩, hw, hh, hstride, hlen⟩, g, hg, hgw.trans hfw, hgh.trans hfh⟩

theorem samplesWritten_trans (h : SamplesWritten s t) (h' : SamplesWritten t u) :
    SamplesWritten s u where
  toSameButSamples := sameButSamples_trans h.toSameButSamples h'.toSameButSamples
  frame := h'.frame.trans h.frame
  pointer_le p := (h.pointer_le p).trans (h'.pointer_le p)
  unwritten p r c hu := by
    obtain ⟨ht, hout'⟩ := h'.unwritten p r c hu
    obtain ⟨hs, hout⟩ := h.unwritten p r c ht
    rw [h.dest, h.row] at hout'
    refine ⟨hs, fun ⟨hd, hr, h0, h1⟩ => ?_⟩
    by_cases hc : c < pointer p t
    · exact hout ⟨hd, hr, h0, hc⟩
    · exact hout' ⟨hd, hr, by omega, h1⟩

/-- WriteY, WriteU and WriteV write one sample (R182). -/
theorem samplesWritten_writeSample (h : writeSample p v s = .next t) : SamplesWritten s t where
  toSameButSamples := writeSample_frame h
  frame := by
    rcases writeSample_next.mp h with ⟨-, f, hf, -, rfl⟩ | ⟨-, -, -, rfl⟩
    · cases p <;> simp [advance, hf, Frame.acquired]
    · cases p <;> rfl
  pointer_le q := by
    rw [pointer_writeSample h]
    split_ifs <;> omega
  unwritten q r c := by
    simp only [pointer_writeSample h, range_one_iff]
    rcases writeSample_next.mp h with ⟨-, f, hf, hin, rfl⟩ | ⟨hd, -, -, rfl⟩
    · have hslot : (advance p { s with slot := some (f.write p s.row (pointer p s) v) }).slot =
          some (f.write p s.row (pointer p s) v) := by cases p <;> rfl
      rintro ⟨g, hg, hr, hw⟩
      cases hslot.symm.trans hg
      rw [write_inRange] at hr
      rw [sampleWritten_write hin hr, not_or] at hw
      exact ⟨⟨f, hf, hr, hw.2⟩, fun ⟨_, hrow, hq, hc⟩ => hw.1 ⟨hq, hrow, hc⟩⟩
    · intro hu
      refine ⟨?_, fun h => absurd (h.1.symm.trans hd) nofun⟩
      cases p <;> exact hu

/-- A sample is written where its destination has a place for it (R75, R182). -/
theorem writeSample_of_canWrite (v : Sample) (h : CanWrite s p (pointer p s)) :
    ∃ t, writeSample p v s = .next t := by
  unfold CanWrite at h
  split at h
  · next hd =>
    obtain ⟨f, hf, hr⟩ := h
    exact ⟨_, writeSample_real hd hf hr⟩
  · next hd => exact ⟨_, writeSample_scratch hd h.1 h.2⟩

/-- The places that can be written stay so. -/
theorem canWrite_congr (h : SamplesWritten s t) {i : Int} (hs : CanWrite s q i) :
    CanWrite t q i := by
  unfold CanWrite at hs ⊢
  rw [h.dest, h.row]
  split at hs
  · obtain ⟨f, hf, hr⟩ := hs
    obtain ⟨g, hg, -, hw, hh⟩ := slot_of_sameDecode (sameDecode_of_samplesWritten h) hf
    refine ⟨g, hg, ?_⟩
    rwa [inRange_iff, Frame.columns, hw, hh, ← Frame.columns, ← inRange_iff]
  · exact hs

section

variable {f : Fsm} {pa pb pc : Plane} {k : State → State} {start : Plane → Int}

/-- A word step past its guard, in a hextet whose samples start at the indices `start`: a word is read,
its samples are written, and the step continues. -/
theorem wordStep_writes (hrow : WordRow f pa pb pc k)
    (hp : ∀ q, pointer q s = start q + samplesBefore (wordIndex f) q)
    (hg : 4 ≤ s.lineEnd - s.src) (h : wordStep pa pb pc k s = .next t) :
    ∃ d u, t = k u ∧ SamplesWritten { s with draws := d, src := s.src + 4 } u ∧
      ∀ q, pointer q u = start q + samplesBefore (wordIndex f + 1) q := by
  rcases wordStep_next.mp h with ⟨hstop, -⟩ | ⟨-, -, s2, s3, s4, h2, h3, h4, rfl⟩
  · omega
  obtain ⟨d, e⟩ := readLe32_frame s s.src.toNat
  rw [e] at h2
  have p1 (q) : pointer q { s with draws := d, src := s.src + 4 } = pointer q s := by
    cases q <;> rfl
  refine ⟨d, s4, rfl, samplesWritten_trans (samplesWritten_writeSample h2) <|
    samplesWritten_trans (samplesWritten_writeSample h3) (samplesWritten_writeSample h4),
    fun q => ?_⟩
  rw [pointer_writeSample h4, pointer_writeSample h3, pointer_writeSample h2]
  refine Eq.trans ?_ (congrArg (start q + ·) (wordRow_samples hrow q))
  have := (p1 q).trans (hp q)
  dsimp only at this ⊢
  omega

/-- A word step past its guard, all samples of whose hextet have a place, completes. -/
theorem wordStep_of_canWrite (hrow : WordRow f pa pb pc k)
    (hp : ∀ q, pointer q s = start q + samplesBefore (wordIndex f) q)
    (hin : ∀ q i, 0 ≤ i → i < perHextet q → CanWrite s q (start q + i))
    (hg : 4 ≤ s.lineEnd - s.src) (h0 : 0 ≤ s.src) (h1 : s.src + 4 ≤ s.pktCap) :
    ∃ t, wordStep pa pb pc k s = .next t := by
  obtain ⟨⟨a0, a1, -⟩, ⟨b0, b1, -⟩, ⟨c0, c1, -⟩⟩ := wordRow_fields hrow
  obtain ⟨x0, x1, x2, x3, d, -, -, -, -, e⟩ := wordStep_reads pa pb pc k hg h0 h1
  rw [e]
  obtain ⟨s1, hs1⟩ : ∃ s1, s1 = { s with draws := d, src := s.src + 4 } := ⟨_, rfl⟩
  have p1 (q) : pointer q s1 = start q + samplesBefore (wordIndex f) q := by
    rw [← hp q, hs1]
    cases q <;> rfl
  have hin1 (q i) (h0 : 0 ≤ i) (h1 : i < perHextet q) : CanWrite s1 q (start q + i) := by
    rw [hs1]
    exact hin q i h0 h1
  rw [← hs1]
  obtain ⟨s2, h2⟩ := writeSample_of_canWrite (fieldA (le32 x0 x1 x2 x3))
    (p1 pa ▸ hin1 pa _ a0 a1)
  have w2 := samplesWritten_writeSample h2
  have p2 := pointer_writeSample h2 pb
  rw [p1, add_assoc] at p2
  obtain ⟨s3, h3⟩ := writeSample_of_canWrite (fieldB (le32 x0 x1 x2 x3))
    (p2 ▸ canWrite_congr w2 (hin1 pb _ b0 b1))
  have w3 := samplesWritten_trans w2 (samplesWritten_writeSample h3)
  have p3 := pointer_writeSample h3 pc
  rw [pointer_writeSample h2, p1, add_assoc, add_assoc, ← add_assoc (samplesBefore _ _)] at p3
  obtain ⟨s4, h4⟩ := writeSample_of_canWrite (fieldC (le32 x0 x1 x2 x3))
    (p3 ▸ canWrite_congr w3 (hin1 pc _ c0 c1))
  exact ⟨_, andThen_of_next h2 <| andThen_of_next h3 <| andThen_of_next h4 rfl⟩

/-- A word step changes nothing of the decode but samples and the engine's place in the row. -/
theorem sameDecode_wordStep (hrow : WordRow f pa pb pc k) (h : wordStep pa pb pc k s = .next t) :
    SameDecode s t := by
  have cursor (u : State) (g : Fsm) (x o : Int) (d : Nat) :
      SameDecode u { u with fsm := g, col := x, src := o, draws := d } :=
    ⟨by constructor <;> rfl, rfl, rfl, rfl⟩
  refine wordStep_keeps (P := SameDecode s) (fun u hu => ?_) (fun u d hu => ?_)
    (fun p w u u' hu v _ hw => ?_) (fun u hu => ?_) (cursor s s.fsm s.col s.src s.draws) h
  · exact sameDecode_trans hu (cursor u _ u.col u.src u.draws)
  · exact sameDecode_trans hu (cursor u u.fsm u.col _ d)
  · exact sameDecode_trans hu (sameDecode_of_samplesWritten (samplesWritten_writeSample hw))
  · obtain ⟨g, c, e, -⟩ := wordRow_continues hrow u
    rw [e]
    exact sameDecode_trans hu (cursor u g c u.src u.draws)

end

/-- Every step of a decode that holds its frame leaves the geometry in progress alone. -/
theorem sameDecode_engine (hf : holdsFrame s.fsm) (h : EngineRan s t) : SameDecode s t := by
  cases h with
  | validate hf' _ | acquire hf' _ => rw [hf'] at hf; cases hf
  | hextetSelect _ h =>
    rcases hextetSelect_next h with ⟨-, rfl⟩ | ⟨-, -, rfl⟩ <;>
      exact ⟨by constructor <;> rfl, rfl, rfl, rfl⟩
  | word pa pb pc k hrow h => exact sameDecode_wordStep hrow h
  | mergeBack _ h =>
    rcases mergeBack_next h with ⟨-, rfl⟩ | ⟨-, -, -, _, _, _, -, -, -, rfl, -⟩
    · exact ⟨by constructor <;> rfl, rfl, rfl, rfl⟩
    · refine ⟨by constructor <;> rfl, rfl, ?_, rfl⟩
      cases hslot : s.slot <;> simp [Frame.acquired]
  | rowBegin _ h | rowEnd _ h | complete _ h =>
    cases h
    exact ⟨by constructor <;> rfl, rfl, rfl, rfl⟩

end

end Sys2Proof.Machine
end

section
/-! PROOF. Every step keeps the engine invariant (R230, R235). -/

namespace Sys2Proof.Machine

open Sys2Proof.Safety

section

variable {s t u : State} {j : Nat}

theorem rowReady_congr (h : SameDecode s t) (hrow : t.row = s.row) (hs : RowReady s) :
    RowReady t := by
  obtain ⟨hframe, h0, h1⟩ := hs
  rw [RowReady, hrow, heightOf_congr h.toSameHostSide]
  exact ⟨frameReady_congr h hframe, h0, h1⟩

theorem hextetReady_congr (h : SameDecode s t) (hrow : t.row = s.row)
    (hend : t.lineEnd = s.lineEnd) (hcol : t.col = s.col) (hs : HextetReady s) :
    HextetReady t := by
  obtain ⟨hready, hrest⟩ := hs
  rw [HextetReady, hend, hcol, h.stride, hrow, widthOf_congr h.toSameHostSide]
  exact ⟨rowReady_congr h hrow hready, hrest⟩

/-- VALIDATE's stride stands throughout a row (R161). -/
theorem stride_of_hextetReady (h : HextetReady s) : s.stride = rowStride (widthOf s) := by
  obtain ⟨⟨⟨⟨-, -, -, hstride, -⟩, -⟩, -⟩, -⟩ := h
  exact hstride

/-- Reading a word and writing its samples leaves the decode's geometry alone (R87). -/
theorem sameDecode_of_word {d : Nat} {o : Int}
    (h : SamplesWritten { s with draws := d, src := o } u) : SameDecode s u :=
  have read : SameDecode s { s with draws := d, src := o } :=
    ⟨by constructor <;> rfl, rfl, rfl, rfl⟩
  sameDecode_trans read (sameDecode_of_samplesWritten h)

theorem hextetReady_of_word {pa pb pc : Plane} {k : State → State}
    (hrow : WordRow s.fsm pa pb pc k) (h : EngineInv s) :
    HextetReady s ∧ s.src ≤ s.lineEnd := by
  obtain ⟨hready, -, -, hle, -⟩ := wordReady_of_inv hrow h
  exact ⟨hready, hle⟩

/-- Items 3 to 5 of R235, from their form plane by plane. -/
theorem wordReady_of_inHextet (hready : HextetReady s) (hj : InHextet s j)
    (hle : s.src ≤ s.lineEnd) :
    WordReady s j (samplesBefore j .y) (samplesBefore j .u) (samplesBefore j .v) := by
  have hstride := stride_of_hextetReady hready
  have half : ceilHalf s.col = s.col / 2 := by
    have := hj.col_mod
    rw [ceilHalf]
    omega
  have hy := hj.pointer .y
  have hu := hj.pointer .u
  have hv := hj.pointer .v
  refine ⟨hready, hj.col_lt, hstride ▸ hj.src, hle, hj.dest.imp ?_ ?_⟩
  · rintro ⟨hfull, hd⟩
    simp only [pointer, hextetStart, hd, planeColumns, half] at hy hu hv
    exact ⟨hfull, hd, hy, hu, hv⟩
  · rintro ⟨hpart, hd⟩
    simp only [pointer, hextetStart, hd, zero_add] at hy hu hv
    exact ⟨hpart, hd, hy, hu, hv⟩

/-- One more word of a hextet has been read (R185 to R188). -/
theorem inHextet_succ {d : Nat} (hj : InHextet s j)
    (h : SamplesWritten { s with draws := d, src := s.src + 4 } u)
    (hp : ∀ p, pointer p u = hextetStart s p + samplesBefore (j + 1) p) :
    InHextet u (j + 1) := by
  have hrow : u.row = s.row := h.row
  have hcol : u.col = s.col := h.col
  have hdest : u.dest = s.dest := h.dest
  have hend : u.lineEnd = s.lineEnd := h.lineEnd
  have hsrc : u.src = s.src + 4 := h.src
  have hw := widthOf_congr (sameDecode_of_word h).toSameHostSide
  have hh := heightOf_congr (sameDecode_of_word h).toSameHostSide
  obtain ⟨hr0, hmod, hc0, hc, hline, hle, hs, hd, -⟩ := hj
  constructor
  case src =>
    rw [hsrc, hrow, hcol, hw, hs]
    push_cast
    omega
  case pointer =>
    intro p
    rw [hp p, hextetStart, hextetStart, hdest, hcol]
  all_goals
    simp only [hrow, hcol, hdest, hend, hw, hh]
    assumption

theorem engineInv_merge (hf : s.fsm = .merge) (hready : HextetReady s)
    (hd : s.col < widthOf s → s.dest = .scratch ∧ widthOf s - s.col < 6) : EngineInv s := by
  rw [EngineInv, hf]
  exact ⟨hready, hd⟩

/-- The end of a full hextet: the next one starts where its words end, or the row's loop is over
(R188). -/
theorem engineInv_endHextet (hready : HextetReady s) (hj : InHextet s 4)
    (hfull : 6 ≤ widthOf s - s.col) : EngineInv (endHextet s) := by
  have hstride := stride_of_hextetReady hready
  obtain ⟨hrow, hend, hmod, hc0, -⟩ := hready
  have hsrc := hj.src
  have next (f : Fsm) : HextetReady { s with col := s.col + 6, fsm := f } :=
    ⟨hrow, hend, by dsimp only; omega, by dsimp only; omega, by dsimp only [widthOf] at *; omega⟩
  rw [endHextet, if_neg (by omega)]
  split_ifs with hmore
  · refine ⟨next _, hmore, ?_⟩
    dsimp only
    rw [hstride]
    omega
  · exact engineInv_merge rfl (next _) fun hlt => absurd hlt hmore

/-- A word step leads to the next word of its hextet, past the hextet, or by its guard to MERGE (R185
to R188, R202, R235). -/
theorem engineInv_wordStep {pa pb pc : Plane} {k : State → State}
    (hrow : WordRow s.fsm pa pb pc k) (hs : EngineInv s) (h : wordStep pa pb pc k s = .next t) :
    EngineInv t := by
  have hj := inHextet_of_inv hrow hs
  obtain ⟨hready, -⟩ := hextetReady_of_word hrow hs
  by_cases hg : s.lineEnd - s.src < 4
  · rw [wordStep_guard pa pb pc k hg] at h
    cases h
    have hd := dest_scratch_of_guard hj (wordIndex_lt hrow) hg
    refine engineInv_merge rfl hready fun _ => hj.dest.elim ?_ fun ⟨hpart, _⟩ => ⟨hd, hpart⟩
    rintro ⟨-, hreal⟩
    cases hd.symm.trans hreal
  · have hg : 4 ≤ s.lineEnd - s.src := by omega
    obtain ⟨d, u, rfl, hwritten, hp⟩ := wordStep_writes hrow hj.pointer hg h
    have hju := inHextet_succ hj hwritten hp
    have same := sameDecode_of_word hwritten
    have hreadyu : HextetReady u := hextetReady_congr same hwritten.row hwritten.lineEnd
      hwritten.col hready
    have hle : u.src ≤ u.lineEnd := by
      rw [hwritten.src, hwritten.lineEnd]
      dsimp only
      omega
    have hword := wordReady_of_inHextet hreadyu hju hle
    generalize hf : s.fsm = f at hrow
    rw [hf] at hju hword
    cases hrow with
    | word1 | word2 | word3 => exact hword
    | word4 =>
      obtain ⟨hfull, -⟩ := dest_real_of_fourth hj (by rw [hf]; rfl) hg
      refine engineInv_endHextet hreadyu hju ?_
      rwa [widthOf_congr same.toSameHostSide, hwritten.col]

theorem engineInv_engine (hs : EngineInv s) (h : EngineRan s t) : EngineInv t := by
  cases h with
  | word pa pb pc k hrow h => exact engineInv_wordStep hrow hs h
  | validate hf h =>
    rw [EngineInv, hf] at hs
    rcases validate_next h with ⟨-, rfl⟩ | ⟨hw, hh, ⟨-, rfl⟩ | ⟨hlen, rfl⟩⟩
    · trivial
    · trivial
    · exact ⟨hs, hw, hh, rfl, hlen⟩
  | acquire hf h =>
    rw [EngineInv, hf] at hs
    cases h
    obtain ⟨d, e | ⟨hnd, -, -, e⟩⟩ := acquireFrame_spec s <;> rw [e]
    · trivial
    · have hh := hs.2.2.1
      exact ⟨⟨hs, _, rfl, rfl, rfl⟩, le_rfl, by dsimp only [heightOf] at *; omega⟩
  | rowBegin hf h =>
    have same := sameDecode_engine (by rw [hf]; rfl) (.rowBegin hf h)
    rw [EngineInv, hf] at hs
    obtain ⟨⟨-, hw, -⟩, -⟩ := hs.1
    cases h
    have hpos : 0 < widthOf s := by omega
    have hready := rowReady_congr same rfl hs
    simp only [EngineInv, if_pos hpos]
    exact ⟨⟨hready, rfl, rfl, le_rfl, hpos.le⟩, hpos, (add_zero _).symm⟩
  | hextetSelect hf h =>
    rw [EngineInv, hf] at hs
    obtain ⟨hready, hlt, hsrc⟩ := hs
    have hle : s.src ≤ s.lineEnd := by
      have ⟨_, hend, hmod, _⟩ := hready
      rw [hsrc, hend, stride_of_hextetReady hready, add_mul, one_mul, rowStride]
      omega
    have hsrc' : s.src = s.row * s.stride + 16 * (s.col / 6) + 4 * 0 := by omega
    rcases hextetSelect_next h with ⟨hpart, rfl⟩ | ⟨hfull, -, rfl⟩
    · exact ⟨hready, hlt, hsrc', hle, .inr ⟨hpart, rfl, rfl, rfl, rfl⟩⟩
    · exact ⟨hready, hlt, hsrc', hle, .inl ⟨hfull, rfl, (add_zero _).symm, (add_zero _).symm,
        (add_zero _).symm⟩⟩
  | mergeBack hf h =>
    have same := sameDecode_engine (by rw [hf]; rfl) (.mergeBack hf h)
    rw [EngineInv, hf] at hs
    rcases mergeBack_next h with ⟨-, rfl⟩ | ⟨-, -, -, _, _, _, -, -, -, rfl, -⟩ <;>
      exact hextetReady_congr same rfl rfl rfl hs.1
  | rowEnd hf h =>
    have same := sameDecode_engine (by rw [hf]; rfl) (.rowEnd hf h)
    rw [EngineInv, hf] at hs
    obtain ⟨⟨hframe, h0, h1⟩, -⟩ := hs
    cases h
    have hframe := frameReady_congr same hframe
    by_cases hmore : s.row + 1 < heightOf s
    · simp only [EngineInv, if_pos hmore] at hframe ⊢
      exact ⟨hframe, by dsimp only; omega, hmore⟩
    · simp only [EngineInv, if_neg hmore] at hframe ⊢
      exact ⟨hframe, by dsimp only [heightOf] at *; omega⟩
  | complete _ h => cases h; trivial

/-- With BUSY = 0 and no reserved code the engine rests, and its invariant asks nothing (R105). -/
theorem engineInv_of_rest (hb : busy s = false) (hr : s.fsm ≠ .reserved) : EngineInv s := by
  rw [EngineInv]
  cases hf : s.fsm <;> simp only [busy, busyState, hf, reduceCtorEq] at hb ⊢
  exact hr hf

theorem engineInv_ne_reserved (h : EngineInv s) : s.fsm ≠ .reserved := by
  intro hf
  rw [EngineInv, hf] at h
  exact h

/-- The host cannot write while the engine works, and a DECODE it starts has its configuration (R48,
R140, R290). -/
theorem engineInv_host (hs : EngineInv s) (h : HostDone s t) : EngineInv t := by
  cases h with
  | read | noop => exact hs
  | width _ hb | height _ hb | tag _ hb | pktLen _ hb | pkt _ _ hb _ =>
    exact engineInv_of_rest hb (show s.fsm ≠ .reserved from engineInv_ne_reserved hs)
  | start _ hw => exact hw
  | close =>
    rw [closeBlock_eq]
    trivial
  | reset _ h => cases h; trivial

/-- Settles O39: a host operation finds the engine at rest or only reads, and each engine step writes the
row, the column, src and the pointers as the next state has them. -/
theorem stepKeepsEngineInvariant : Obligations.StepKeepsEngineInvariant := by
  intro s t hs h
  exact step_keeps_of_parts (fun _ hu => hu) (fun _ hu => hu) (fun _ _ => engineInv_host)
    (fun _ _ => engineInv_engine) hs h

end

end Sys2Proof.Machine
end

section
/-! PROOF. Under the engine invariant every engine step completes, and no step stops with an engine fault
(R71, R75, R203, R235). -/

namespace Sys2Proof.Machine

open Sys2Proof.Safety

section

variable {s : State} {j : Nat} {f : Fault}

/-! Engine steps complete. -/

/-- All samples of the hextet at x have a place in their destination (R203, R235 item 6). -/
theorem canWrite_of_inHextet (hready : RowReady s) (hj : InHextet s j) {q : Plane} {i : Int}
    (h0 : 0 ≤ i) (h1 : i < perHextet q) : CanWrite s q (hextetStart s q + i) := by
  obtain ⟨⟨-, f, hslot, hfw, hfh⟩, hr0, hr1⟩ := hready
  have hc0 := hj.col_nonneg
  rcases hj.dest with ⟨hfull, hd⟩ | ⟨-, hd⟩
  · simp only [CanWrite, hextetStart, hd]
    refine ⟨f, hslot, inRange_iff.mpr ⟨hr0, hfh ▸ hr1, ?_⟩⟩
    rw [Frame.columns, hfw]
    cases q <;> simp only [planeColumns, perHextet, ceilHalf] at h1 ⊢ <;> omega
  · simp only [CanWrite, hextetStart, hd, zero_add]
    exact ⟨h0, by cases q <;> exact h1⟩

/-- A word past the guard lies in PKT (R71, R140, R160). -/
theorem word_in_pkt (hready : HextetReady s) (hj : InHextet s j) (hg : 4 ≤ s.lineEnd - s.src) :
    0 ≤ s.src ∧ s.src + 4 ≤ s.pktCap := by
  have hstride := stride_of_hextetReady hready
  obtain ⟨⟨⟨⟨⟨-, -, -, hcap⟩, hw, -, -, hlen⟩, -⟩, hr0, -⟩, -⟩ := hready
  have hend := hj.lineEnd_le
  have hc0 := hj.col_nonneg
  have hbase : 0 ≤ s.row * rowStride (widthOf s) := mul_nonneg hr0 (by rw [rowStride]; omega)
  rw [hstride, lengthOf] at hlen
  rw [hj.src] at hg ⊢
  omega

theorem wordStep_completes_of_inv {pa pb pc : Plane} {k : State → State}
    (hrow : WordRow s.fsm pa pb pc k) (hs : EngineInv s) :
    ∃ t, wordStep pa pb pc k s = .next t := by
  have hj := inHextet_of_inv hrow hs
  obtain ⟨hready, -⟩ := hextetReady_of_word hrow hs
  by_cases hg : s.lineEnd - s.src < 4
  · exact ⟨_, wordStep_guard pa pb pc k hg⟩
  · have hg : 4 ≤ s.lineEnd - s.src := by omega
    obtain ⟨h0, h1⟩ := word_in_pkt hready hj hg
    exact wordStep_of_canWrite hrow hj.pointer
      (fun q i hi0 hi1 => canWrite_of_inHextet hready.1 hj hi0 hi1) hg h0 h1

theorem validate_completes (s : State) : ∃ t, execValidate s = .next t := by
  by_cases hgeom : widthOf s ≤ 1 ∨ heightOf s ≤ 0
  · exact ⟨_, execValidate_badGeometry hgeom⟩
  · rw [execValidate_goodGeometry (by omega) (by omega)]
    split_ifs
    · exact ⟨_, rfl⟩
    · exact ⟨_, rfl⟩

/-- A full hextet always has its sixteen bytes in the row (R200, R203). -/
theorem hextetSelect_completes (hf : s.fsm = .hextetSelect) (hs : EngineInv s) :
    ∃ t, execHextetSelect s = .next t := by
  rw [EngineInv, hf] at hs
  obtain ⟨hready, hlt, hsrc⟩ := hs
  have hstride := stride_of_hextetReady hready
  obtain ⟨-, hend, hmod, hc0, -⟩ := hready
  have hleft : s.lineEnd - s.src = widthOf s * 8 / 3 - 16 * (s.col / 6) := by
    rw [hsrc, hend, hstride, add_mul, one_mul, rowStride]
    omega
  by_cases hpart : widthOf s - s.col < 6
  · exact ⟨_, (if_pos (.inl hpart)).trans (if_neg (by omega))⟩
  · exact ⟨_, if_neg (by omega)⟩

/-- MERGE_BACK finds nothing to copy, or a partial hextet in the scratch buffers (R205, R235). -/
theorem mergeBack_completes (hf : s.fsm = .merge) (hs : EngineInv s) :
    ∃ t, execMergeBack s = .next t := by
  rw [EngineInv, hf] at hs
  obtain ⟨⟨⟨⟨-, f, hslot, hfw, hfh⟩, hr0, hr1⟩, -, hmod, hc0, -⟩, hmerge⟩ := hs
  by_cases hlt : s.col < widthOf s
  · obtain ⟨hd, hpart⟩ := hmerge hlt
    have heven : s.col % 2 = 0 := by omega
    exact ⟨_, mergeBack_partial hslot heven hlt hd hpart
      (mergeRun_inRange hfw hr0 (hfh ▸ hr1) heven hc0 hlt hpart)⟩
  · exact ⟨_, if_neg hlt⟩

/-- The step a state code selects completes (R235). -/
theorem engine_completes {i : Instr} (hs : EngineInv s) (hd : decode (.fsm s.fsm.code) = .ok i) :
    ∃ t, exec i s = .next t := by
  rw [decode_fsm_eq] at hd
  cases hf : s.fsm <;> rw [hf] at hd <;> cases hd
  case validating => exact validate_completes s
  case hextetSelect => exact hextetSelect_completes hf hs
  case word1 => exact wordStep_completes_of_inv (hf ▸ .word1) hs
  case word2 => exact wordStep_completes_of_inv (hf ▸ .word2) hs
  case word3 => exact wordStep_completes_of_inv (hf ▸ .word3) hs
  case word4 => exact wordStep_completes_of_inv (hf ▸ .word4) hs
  case merge => exact mergeBack_completes hf hs
  case reserved => exact absurd hf (engineInv_ne_reserved hs)
  all_goals exact ⟨_, rfl⟩

end

/-! Host operations stop with host faults. -/

/-- If the answer is a fault, it is none of the engine's (R262). -/
def NoEngineFault (o : Result) : Prop := ∀ f, o = .fault f → isEngineFault f = false

section

variable {s : State} {o o' : Result}

theorem noEngineFault_next (t : State) : NoEngineFault (.next t) := nofun

theorem noEngineFault_fault {f : Fault} (h : isEngineFault f = false) :
    NoEngineFault (.fault f) := by
  rintro _ ⟨⟩
  exact h

theorem noEngineFault_ite {c : Prop} [Decidable c] (h : NoEngineFault o) (h' : NoEngineFault o') :
    NoEngineFault (if c then o else o') := by
  split_ifs
  · exact h
  · exact h'

theorem noEngineFault_startDecode (s : State) : NoEngineFault (startDecode s) :=
  noEngineFault_ite
    (noEngineFault_ite (noEngineFault_fault rfl) (noEngineFault_next _)) (noEngineFault_fault rfl)

theorem noEngineFault_issueDecode (hr : s.fsm ≠ .reserved) : NoEngineFault (issueDecode s) := by
  refine noEngineFault_ite (noEngineFault_fault rfl) ?_
  split
  · exact noEngineFault_fault rfl
  · next hf => exact absurd hf hr
  · exact noEngineFault_startDecode _

theorem noEngineFault_issueShutdown (hr : s.fsm ≠ .reserved) :
    NoEngineFault (issueShutdown s) := by
  refine noEngineFault_ite (noEngineFault_fault rfl) ?_
  split
  · exact noEngineFault_next _
  · next hf => exact absurd hf hr
  · exact noEngineFault_next _

theorem noEngineFault_issueCommand (hr : s.fsm ≠ .reserved) (v : Word) :
    NoEngineFault (issueCommand v s) := by
  refine noEngineFault_ite (noEngineFault_fault rfl) ?_
  split
  · exact noEngineFault_fault rfl
  · exact noEngineFault_issueDecode hr
  · exact noEngineFault_issueShutdown hr

theorem noEngineFault_writeReg (hr : s.fsm ≠ .reserved) (r : Option Reg) (v : Word) :
    NoEngineFault (writeReg r v s) := by
  rcases r with _ | _ | _
  case some.cmd => exact noEngineFault_issueCommand hr v
  case some.width | some.height | some.tag | some.pktLen => exact noEngineFault_next _
  all_goals exact noEngineFault_fault rfl

theorem noEngineFault_readReg (r : Option Reg) : NoEngineFault (readReg r s) := by
  rcases r with _ | _ | _
  case none => exact noEngineFault_fault rfl
  case some.width | some.height | some.tag | some.pktLen =>
    exact noEngineFault_ite (noEngineFault_next _) (noEngineFault_fault rfl)
  all_goals exact noEngineFault_next _

/-- A host operation finds an engine fault in the reserved state only (R106, R262). -/
theorem noEngineFault_host {i : Instr} (hi : isEngineStep i = false) (hr : s.fsm ≠ .reserved) :
    NoEngineFault (exec i s) := by
  have busy {o : Result} (h : NoEngineFault o) (c : Bool) :
      NoEngineFault (if c then .fault .busyAccess else o) :=
    noEngineFault_ite (noEngineFault_fault rfl) h
  cases i with
  | decode => exact noEngineFault_issueDecode hr
  | shutdown => exact noEngineFault_issueShutdown hr
  | regWrite off v => exact busy (noEngineFault_writeReg hr _ v) _
  | regRead off => exact busy (noEngineFault_readReg _) _
  | pktWrite off v =>
    exact busy (noEngineFault_ite (noEngineFault_next _) (noEngineFault_fault rfl)) _
  | frameRead hd p r c =>
    refine busy ?_ _
    split
    · exact noEngineFault_fault rfl
    · exact noEngineFault_ite (noEngineFault_next _) (noEngineFault_fault rfl)
  | reset => exact noEngineFault_next _
  | _ => cases hi

/-- What a fetch rejects is a host operation, and the fault is the host's (R76, R131). -/
theorem fetch_reject {f : Fault} (h : fetch s = .reject f) : isEngineFault f = false := by
  have host : ∀ u, fetchHost u = .reject f → isEngineFault f = false := by
    intro u h
    unfold fetchHost at h
    split at h
    · cases h
    · split at h
      · cases h
      · cases h
        unfold rejectBus
        split_ifs <;> rfl
    · cases h
  unfold fetch at h
  split at h
  · exact host _ h
  · unfold fetchEngine at h
    split at h <;> cases h
  · cases h

end

/-- Settles O40: the engine's own step completes, and a host operation stops with an engine fault in the
reserved state alone. -/
theorem noEngineFaultUnderInvariant : Obligations.NoEngineFaultUnderInvariant := by
  intro s f hs h
  have hr := engineInv_ne_reserved hs
  unfold step at h
  split at h
  · cases h
  · next i u hfetch =>
    rcases fetch_run hfetch with ⟨hd, rfl⟩ | ⟨hi, rfl | rfl⟩
    · obtain ⟨t, ht⟩ := engine_completes (s := useTurn s) hs hd
      rw [ht] at h
      cases h
    · exact noEngineFault_host (s := useTurn s) hi hr f h
    · exact noEngineFault_host (s := popProgram (useTurn s)) hi hr f h
  · next hfetch =>
    cases h
    exact fetch_reject hfetch

end Sys2Proof.Machine
end

section
/-! PROOF. What a decode has made final it has written, so no initial content of the pool is seen in a
finished frame (R168, R239). -/

namespace Sys2Proof.Machine

open Sys2Proof.Safety

/-- A run of sample writes writes its own places. -/
theorem sampleWritten_writeRun {f : Frame} {p q : Plane} {r c r' c' : Int} {l : List Sample}
    (hr : ∀ i : Nat, i < l.length → f.inRange p r (c + i)) (h' : f.inRange q r' c') :
    SampleWritten (f.writeRun p r c l) q r' c' ↔
      (q = p ∧ r' = r ∧ c ≤ c' ∧ c' < c + l.length) ∨ SampleWritten f q r' c' := by
  induction l generalizing f c with
  | nil =>
    rw [Frame.writeRun, List.length_nil]
    exact (or_iff_right (by omega)).symm
  | cons v rest ih =>
    have h0 : f.inRange p r c := by simpa using hr 0 (by simp)
    have hrest : ∀ i : Nat, i < rest.length → (f.write p r c v).inRange p r (c + 1 + i) := by
      intro i hi
      rw [write_inRange, add_assoc, add_comm 1]
      exact_mod_cast hr (i + 1) (Nat.succ_lt_succ hi)
    rw [Frame.writeRun, ih hrest (by simpa using h'), sampleWritten_write h0 h', ← or_assoc,
      List.length_cons]
    rw [← and_or_left, ← and_or_left]
    push_cast
    exact or_congr_left (and_congr_right fun _ => and_congr_right fun _ => by omega)

section

variable {s t u : State}

/-- All earlier rows and the first `n p` columns of the current row are written. -/
def FilledTo (s : State) (n : Plane → Int) : Prop :=
  ∀ p r c, Unwritten s p r c → ¬ (r < s.row ∨ r = s.row ∧ c < n p)

theorem filledInv_iff_filledTo (hf : holdsFrame s.fsm = true) :
    FilledInv s ↔ FilledTo s (columnsDone s) := by
  constructor
  · rintro h p r c ⟨f, hs, hr, hw⟩ hc
    exact hw (h f hs p r c hr fun _ => hc)
  · intro h f hs p r c hr hc
    by_contra hw
    exact h p r c ⟨f, hs, hr, hw⟩ (hc hf)

/-- The invariant in a state that holds a frame, at the columns that its state code makes final. -/
theorem filledTo_of_inv {f : Fsm} (hf : s.fsm = f) (hholds : holdsFrame f = true)
    (hs : FilledInv s) : FilledTo s (columnsDone { s with fsm := f }) := by
  subst hf
  exact (filledInv_iff_filledTo hholds).mp hs

theorem filledInv_iff_written (hf : holdsFrame s.fsm = false) :
    FilledInv s ↔ ∀ p r c, ¬ Unwritten s p r c := by
  constructor
  · rintro h p r c ⟨f, hs, hr, hw⟩
    refine hw (h f hs p r c hr fun hf' => ?_)
    cases hf.symm.trans hf'
  · intro h f hs p r c hr _
    by_contra hw
    exact h p r c ⟨f, hs, hr, hw⟩

theorem filledInv_of_empty (h : s.slot = none) : FilledInv s := by
  intro f hf
  cases h.symm.trans hf

/-- An unwritten place lies in the geometry in progress. -/
theorem unwritten_inRange (hframe : FrameReady s) {p : Plane} {r c : Int}
    (h : Unwritten s p r c) :
    0 ≤ r ∧ r < heightOf s ∧ 0 ≤ c ∧ c < planeColumns p (widthOf s) := by
  obtain ⟨-, f, hslot, hw, hh⟩ := hframe
  obtain ⟨g, hg, hr, -⟩ := h
  cases hslot.symm.trans hg
  rw [← hw, ← hh]
  exact inRange_iff.mp hr

/-! The word steps. -/

/-- The columns that are final inside a hextet (R180). -/
theorem columnsDone_word {pa pb pc : Plane} {k : State → State}
    (hrow : WordRow s.fsm pa pb pc k) : columnsDone s = finalColumns s := by
  funext p
  unfold columnsDone
  cases hs : s.fsm <;> rw [hs] at hrow
  case word1 | word2 | word3 | word4 => rfl
  all_goals cases hrow

/-- A word's samples are written where they count as final (R180, R182). -/
theorem filledTo_word {d : Nat} {o : Int} (hs : FilledTo s (finalColumns s))
    (h : SamplesWritten { s with draws := d, src := o } u) : FilledTo u (finalColumns u) := by
  intro p r c hu hc
  obtain ⟨hu, hout⟩ := h.unwritten p r c hu
  have hp : pointer p { s with draws := d, src := o } = pointer p s := by cases p <;> rfl
  refine hs p r c hu ?_
  rw [h.row, finalColumns, h.dest, h.col] at hc
  rw [hp] at hout
  refine hc.imp_right fun ⟨hr, hc⟩ => ⟨hr, ?_⟩
  rw [finalColumns]
  split_ifs at hc ⊢ with hd
  · by_contra hlt
    exact hout ⟨hd, hr, by omega, hc⟩
  · exact hc

/-- The end of a full hextet: its columns are final (R188). -/
theorem filledInv_endHextet (hs : FilledTo s (finalColumns s)) (hd : s.dest = .real)
    (hfull : 6 ≤ widthOf s - s.col)
    (hp : ∀ p, pointer p s = planeColumns p s.col + samplesBefore 4 p) :
    FilledInv (endHextet s) := by
  have hfinal : finalColumns s = fun p => planeColumns p (s.col + 6) := by
    funext p
    rw [finalColumns, if_pos hd, hp, samplesBefore_four, planeColumns_add_six]
  rw [hfinal] at hs
  rw [endHextet, if_neg (by omega)]
  split_ifs <;> exact (filledInv_iff_filledTo rfl).mpr hs

theorem filledInv_wordStep {pa pb pc : Plane} {k : State → State}
    (hrow : WordRow s.fsm pa pb pc k) (hi : EngineInv s) (hs : FilledInv s)
    (h : wordStep pa pb pc k s = .next t) : FilledInv t := by
  have hj := inHextet_of_inv hrow hi
  rw [filledInv_iff_filledTo (wordRow_holdsFrame hrow), columnsDone_word hrow] at hs
  by_cases hg : s.lineEnd - s.src < 4
  · rw [wordStep_guard pa pb pc k hg] at h
    cases h
    have hd := dest_scratch_of_guard hj (wordIndex_lt hrow) hg
    have hfinal : finalColumns s = fun p => planeColumns p s.col := by
      funext p
      rw [finalColumns, if_neg (by rw [hd]; exact nofun)]
    rw [hfinal] at hs
    exact (filledInv_iff_filledTo rfl).mpr hs
  · have hg : 4 ≤ s.lineEnd - s.src := by omega
    obtain ⟨d, u, rfl, hwritten, hp⟩ := wordStep_writes hrow hj.pointer hg h
    have hu := filledTo_word hs hwritten
    generalize hf : s.fsm = f at hrow
    cases hrow with
    | word1 | word2 | word3 => exact (filledInv_iff_filledTo rfl).mpr hu
    | word4 =>
      obtain ⟨hfull, hd⟩ := dest_real_of_fourth hj (by rw [hf]; rfl) hg
      refine filledInv_endHextet hu (hwritten.dest.trans hd) ?_ fun p => ?_
      · rwa [widthOf_congr (sameDecode_of_word hwritten).toSameHostSide, hwritten.col]
      · rw [hp p, hextetStart, hd, hwritten.col, hf]
        rfl

/-! The other steps. -/

/-- MERGE_BACK writes the columns of the partial hextet (R205). -/
theorem filledInv_mergeBack (hf : s.fsm = .merge) (hi : EngineInv s) (hs : FilledInv s)
    (h : execMergeBack s = .next t) : FilledInv t := by
  rw [EngineInv, hf] at hi
  obtain ⟨⟨-, -, hmod, -, hle⟩, hmerge⟩ := hi
  have hs : FilledTo s fun p => planeColumns p s.col := filledTo_of_inv hf rfl hs
  by_cases hlt : s.col < widthOf s
  · obtain ⟨rfl, hin⟩ := mergeBack_runs hmod hlt h
    refine (filledInv_iff_filledTo rfl).mpr ?_
    rintro p r c ⟨g, hg, hr, hw⟩ hc
    obtain ⟨f, hslot, rfl⟩ := Option.map_eq_some_iff.mp hg
    have hin := hin f hslot
    rw [writeRuns_inRange] at hr
    rw [Frame.writeRuns, sampleWritten_writeRun (by simpa using hin .v) (by simpa using hr),
      sampleWritten_writeRun (by simpa using hin .u) (by simpa using hr),
      sampleWritten_writeRun (hin .y) hr, not_or, not_or, not_or] at hw
    obtain ⟨hv, hu, hy, hw⟩ := hw
    have hnot := hs p r c ⟨f, hslot, hr, hw⟩
    have hlen := length_mergeRun hlt (hmerge hlt).2 p
    have hsplit := planeColumns_split (w := widthOf s) hmod p
    change r < s.row ∨ r = s.row ∧ c < planeColumns p (widthOf s) at hc
    dsimp only at hnot
    cases p <;> simp only [true_and] at hv hu hy <;> omega
  · rcases mergeBack_next h with ⟨-, rfl⟩ | ⟨hlt', -⟩
    · have hw : s.col = widthOf s := by omega
      rw [hw] at hs
      exact (filledInv_iff_filledTo rfl).mpr hs
    · exact absurd hlt' hlt

theorem filledInv_engine (hi : EngineInv s) (hs : FilledInv s) (h : EngineRan s t) :
    FilledInv t := by
  cases h with
  | validate hf h =>
    rw [filledInv_iff_written (by rw [hf]; rfl)] at hs
    rcases validate_next h with ⟨-, rfl⟩ | ⟨-, -, ⟨-, rfl⟩ | ⟨-, rfl⟩⟩ <;>
      exact (filledInv_iff_written rfl).mpr hs
  | acquire hf h =>
    cases h
    obtain ⟨d, e | ⟨hnd, -, -, e⟩⟩ := acquireFrame_spec s <;> rw [e]
    · exact filledInv_of_empty rfl
    · refine (filledInv_iff_filledTo rfl).mpr ?_
      rintro p r c ⟨f, -, hr, -⟩ hc
      have := inRange_iff.mp hr
      change r < 0 ∨ r = 0 ∧ c < 0 at hc
      omega
  | rowBegin hf h =>
    have hw : 0 < widthOf s := by
      obtain ⟨⟨-, hw, -⟩, -⟩ := frameReady_of_inv hi (by rw [hf]; rfl)
      omega
    have hs : FilledTo s fun _ => 0 := filledTo_of_inv hf rfl hs
    have hzero : (fun p => planeColumns p 0) = fun _ => 0 := by
      funext p
      cases p <;> rfl
    rw [← hzero] at hs
    cases h
    rw [if_pos hw]
    exact (filledInv_iff_filledTo rfl).mpr hs
  | hextetSelect hf h =>
    rw [EngineInv, hf] at hi
    obtain ⟨⟨-, -, hmod, -⟩, -⟩ := hi
    have half : ceilHalf s.col = s.col / 2 := by rw [ceilHalf]; omega
    have hs : FilledTo s fun p => planeColumns p s.col := filledTo_of_inv hf rfl hs
    rcases hextetSelect_next h with ⟨-, rfl⟩ | ⟨-, -, rfl⟩
    · exact (filledInv_iff_filledTo rfl).mpr hs
    · refine (filledInv_iff_filledTo rfl).mpr fun p r c hu hc => hs p r c hu ?_
      cases p <;> simpa only [columnsDone, if_true, pointer, planeColumns, half] using hc
  | word pa pb pc k hrow h => exact filledInv_wordStep hrow hi hs h
  | mergeBack hf h => exact filledInv_mergeBack hf hi hs h
  | rowEnd hf h =>
    have hframe := frameReady_of_inv hi (by rw [hf]; rfl)
    have hs : FilledTo s fun p => planeColumns p (widthOf s) := filledTo_of_inv hf rfl hs
    cases h
    have hrow : FilledTo { s with row := s.row + 1 } fun _ => 0 := by
      intro p r c hu hc
      have := unwritten_inRange hframe hu
      have := hs p r c hu
      dsimp only at this hc
      omega
    split_ifs <;> exact (filledInv_iff_filledTo rfl).mpr hrow
  | complete hf h =>
    have hframe := frameReady_of_inv hi (by rw [hf]; rfl)
    rw [EngineInv, hf] at hi
    have hs : FilledTo s fun _ => 0 := filledTo_of_inv hf rfl hs
    cases h
    refine (filledInv_iff_written rfl).mpr fun p r c hu => hs p r c hu ?_
    have := unwritten_inRange hframe hu
    have := hi.2
    omega

theorem holdsFrame_of_not_busy (hb : busy s = false) : holdsFrame s.fsm = false := by
  cases hf : s.fsm <;> simp only [busy, busyState, hf, reduceCtorEq] at hb <;> rfl

/-- The host cannot touch the frame but by giving it up, and starts a decode only from a finished frame
(R131, R290). -/
theorem filledInv_host (hs : FilledInv s) (h : HostDone s t) : FilledInv t := by
  cases h with
  | read | noop => exact hs
  | width _ hb | height _ hb | tag _ hb | pktLen _ hb | pkt _ _ hb _ =>
    have hf := holdsFrame_of_not_busy hb
    exact (filledInv_iff_written (by exact hf)).mpr ((filledInv_iff_written hf).mp hs)
  | start hf _ =>
    have hf : holdsFrame s.fsm = false := by rcases hf with hf | hf | hf <;> rw [hf] <;> rfl
    exact (filledInv_iff_written rfl).mpr ((filledInv_iff_written hf).mp hs)
  | close => exact filledInv_of_empty (by rw [closeBlock_eq])
  | reset _ h => cases h; exact filledInv_of_empty rfl

/-- Settles O41: each engine step writes the places it adds to the final ones, and a frame is given to
the host once all its rows are final. -/
theorem stepKeepsFramesFilled : Obligations.StepKeepsFramesFilled := by
  intro s t hi hs h
  exact step_leads_of_parts (P := fun u => EngineInv u ∧ FilledInv u) (Q := FilledInv)
    (fun _ hu => hu.2) (fun _ hu => hu) (fun _ hu => hu) (fun _ _ hu => filledInv_host hu.2)
    (fun _ _ hu => filledInv_engine hu.1 hu.2) ⟨hi, hs⟩ h

end

end Sys2Proof.Machine
end

section
/-! PROOF. Every engine step of a decode with its frame is one of the steps R237 counts. -/

namespace Sys2Proof.Machine

open Sys2Proof.Safety

section

variable {s t u : State} {j : Nat}

/-- The steps after the current row, COMPLETE among them (R237). -/
def laterSteps (s : State) : Int := (heightOf s - s.row - 1) * rowSteps (widthOf s) + 1

/-- The words that lie whole in the bytes of a row's partial hextet (R203, R237). -/
def partialWords (w : Int) : Int := 8 * (w % 6) / 3 / 4

theorem partialSteps_nonneg (w : Int) : 0 ≤ partialSteps w := by
  rw [partialSteps]
  split_ifs <;> omega

theorem laterSteps_congr (h : SameHostSide s t) (hrow : t.row = s.row) :
    laterSteps t = laterSteps s := by
  rw [laterSteps, laterSteps, hrow, widthOf_congr h, heightOf_congr h]

theorem laterSteps_pos (hready : RowReady s) : 0 < laterSteps s := by
  obtain ⟨⟨⟨-, hw, -⟩, -⟩, -, hr1⟩ := hready
  have hpartial := partialSteps_nonneg (widthOf s)
  have hrows : 0 ≤ (heightOf s - s.row - 1) * rowSteps (widthOf s) :=
    mul_nonneg (by omega) (by rw [rowSteps]; omega)
  rw [laterSteps]
  omega

/-! The count, state by state. -/

theorem remainingSteps_rowBegin (hf : s.fsm = .rowBegin) :
    remainingSteps s =
      1 + 5 * (widthOf s / 6) + partialSteps (widthOf s) + 2 + laterSteps s := by
  simp only [remainingSteps, hf, laterSteps, rowSteps]

theorem remainingSteps_hextetSelect (hf : s.fsm = .hextetSelect) :
    remainingSteps s =
      5 * ((widthOf s - s.col) / 6) + partialSteps (widthOf s) + 2 + laterSteps s := by
  simp only [remainingSteps, hf, laterSteps]

theorem remainingSteps_merge (hf : s.fsm = .merge) : remainingSteps s = 2 + laterSteps s := by
  simp only [remainingSteps, hf, laterSteps]

theorem remainingSteps_rowEnd (hf : s.fsm = .rowEnd) : remainingSteps s = 1 + laterSteps s := by
  simp only [remainingSteps, hf, laterSteps]

theorem remainingSteps_completing (hf : s.fsm = .completing) : remainingSteps s = 1 := by
  simp only [remainingSteps, hf]

theorem remainingSteps_done (hf : s.fsm = .done) : remainingSteps s = 0 := by
  simp only [remainingSteps, hf]

section

variable {pa pb pc : Plane} {k : State → State}

theorem remainingSteps_word (hrow : WordRow s.fsm pa pb pc k) :
    remainingSteps s = hextetSteps s - wordIndex s.fsm + afterHextet s := by
  rw [remainingSteps]
  cases hf : s.fsm <;> rw [hf] at hrow
  case word1 => exact congrArg (· + afterHextet s) (sub_zero _).symm
  case word2 | word3 | word4 => rfl
  all_goals cases hrow

/-- In a full hextet the words left, and then the hextets after it. -/
theorem remainingSteps_real (hrow : WordRow s.fsm pa pb pc k) (hd : s.dest = .real) :
    remainingSteps s = 4 - wordIndex s.fsm + 5 * ((widthOf s - s.col) / 6 - 1) +
      partialSteps (widthOf s) + 2 + laterSteps s := by
  rw [remainingSteps_word hrow, hextetSteps, afterHextet, if_pos hd, if_pos hd, laterSteps]
  omega

/-- In a partial hextet the words left, and the step whose guard fires. -/
theorem remainingSteps_scratch (hrow : WordRow s.fsm pa pb pc k) (hd : s.dest = .scratch) :
    remainingSteps s = 1 + partialWords (widthOf s) - wordIndex s.fsm + 2 + laterSteps s := by
  have hreal : ¬ s.dest = .real := by rw [hd]; exact nofun
  rw [remainingSteps_word hrow, hextetSteps, afterHextet, if_neg hreal, if_neg hreal, laterSteps,
    partialWords]
  omega

end

/-- The states that hold a frame, the word states taken together (R105, R230). -/
inductive FrameStage (s : State) : Prop
  | rowBegin (hf : s.fsm = .rowBegin)
  | hextetSelect (hf : s.fsm = .hextetSelect)
  | word (pa pb pc : Plane) (k : State → State) (hrow : WordRow s.fsm pa pb pc k)
  | merge (hf : s.fsm = .merge)
  | rowEnd (hf : s.fsm = .rowEnd)
  | completing (hf : s.fsm = .completing)

theorem frameStage_of_holdsFrame (h : holdsFrame s.fsm) : FrameStage s := by
  cases hf : s.fsm <;> rw [hf] at h
  case rowBegin => exact .rowBegin hf
  case hextetSelect => exact .hextetSelect hf
  case word1 => exact .word _ _ _ _ (hf.symm ▸ WordRow.word1)
  case word2 => exact .word _ _ _ _ (hf.symm ▸ WordRow.word2)
  case word3 => exact .word _ _ _ _ (hf.symm ▸ WordRow.word3)
  case word4 => exact .word _ _ _ _ (hf.symm ▸ WordRow.word4)
  case merge => exact .merge hf
  case rowEnd => exact .rowEnd hf
  case completing => exact .completing hf
  all_goals cases h

/-- A decode that holds its frame has a step to take (R237). -/
theorem remainingSteps_pos (hs : EngineInv s) (hf : holdsFrame s.fsm) : 0 < remainingSteps s := by
  have hw : 2 ≤ widthOf s := (frameReady_of_inv hs hf).1.2.1
  have hpartial := partialSteps_nonneg (widthOf s)
  cases frameStage_of_holdsFrame hf with
  | rowBegin hf =>
    rw [EngineInv, hf] at hs
    have := laterSteps_pos hs
    rw [remainingSteps_rowBegin hf]
    omega
  | hextetSelect hf =>
    rw [EngineInv, hf] at hs
    obtain ⟨⟨hready, -⟩, hlt, -⟩ := hs
    have := laterSteps_pos hready
    rw [remainingSteps_hextetSelect hf]
    omega
  | word pa pb pc k hrow =>
    have hj := inHextet_of_inv hrow hs
    have hc := hj.col_lt
    have hlt := wordIndex_lt hrow
    have := laterSteps_pos (hextetReady_of_word hrow hs).1.1
    rcases hj.dest with ⟨hfull, hd⟩ | ⟨-, hd⟩
    · rw [remainingSteps_real hrow hd]
      omega
    · rw [remainingSteps_scratch hrow hd, partialWords]
      omega
  | merge hf =>
    rw [EngineInv, hf] at hs
    have := laterSteps_pos hs.1.1
    rw [remainingSteps_merge hf]
    omega
  | rowEnd hf =>
    rw [EngineInv, hf] at hs
    have := laterSteps_pos hs.1
    rw [remainingSteps_rowEnd hf]
    omega
  | completing hf =>
    rw [remainingSteps_completing hf]
    decide

/-! Each step takes one off the count. -/

/-- After the last row nothing but COMPLETE is left; before it, one row more (R237). -/
theorem laterSteps_rowEnd (hrow : t.row = s.row + 1) (same : SameHostSide s t) :
    laterSteps s = rowSteps (widthOf t) + laterSteps t := by
  rw [laterSteps, laterSteps, hrow, widthOf_congr same, heightOf_congr same]
  ring

/-- The word guard stops a partial hextet once its whole words are read (R202, R237). -/
theorem partialWords_of_guard (hj : InHextet s j) (hpart : widthOf s - s.col < 6)
    (hle : s.src ≤ s.lineEnd) (hg : s.lineEnd - s.src < 4) : partialWords (widthOf s) = j := by
  have hleft := bytesLeft_eq hj
  have hmod := hj.col_mod
  have hlt := hj.col_lt
  have hdiv : s.col / 6 = widthOf s / 6 := by omega
  rw [hdiv] at hleft
  rw [partialWords]
  omega

/-- Inside a hextet a step leaves the later ones as they were. -/
theorem wordSteps_congr (same : SameHostSide s t) (hdest : t.dest = s.dest) (hcol : t.col = s.col)
    (hrow : t.row = s.row) :
    hextetSteps t = hextetSteps s ∧ afterHextet t = afterHextet s := by
  rw [hextetSteps, hextetSteps, afterHextet, afterHextet, hdest, hcol, hrow, widthOf_congr same,
    heightOf_congr same]
  exact ⟨rfl, rfl⟩

/-- After a full hextet the next one follows, or what is left of the row is MERGE_BACK and ROW_END
(R188, R237). -/
theorem remainingSteps_endHextet (hmod : s.col % 6 = 0) (hfull : 6 ≤ widthOf s - s.col) :
    remainingSteps (endHextet s) =
      5 * ((widthOf s - s.col) / 6 - 1) + partialSteps (widthOf s) + 2 + laterSteps s := by
  rw [endHextet, if_neg (by omega)]
  split_ifs with hmore
  · rw [remainingSteps_hextetSelect rfl]
    have : (widthOf s - (s.col + 6)) / 6 = (widthOf s - s.col) / 6 - 1 := by omega
    exact congrArg (5 * · + partialSteps (widthOf s) + 2 + laterSteps s) this
  · have hlast : (widthOf s - s.col) / 6 = 1 := by omega
    have hnone : partialSteps (widthOf s) = 0 := if_pos (by omega)
    rw [remainingSteps_merge rfl, hlast, hnone]
    change 2 + laterSteps s = _
    omega

theorem remainingSteps_wordStep {pa pb pc : Plane} {k : State → State}
    (hrow : WordRow s.fsm pa pb pc k) (hs : EngineInv s) (h : wordStep pa pb pc k s = .next t) :
    remainingSteps t = remainingSteps s - 1 := by
  have hj := inHextet_of_inv hrow hs
  by_cases hg : s.lineEnd - s.src < 4
  · have hd := dest_scratch_of_guard hj (wordIndex_lt hrow) hg
    have hpart : widthOf s - s.col < 6 := by
      rcases hj.dest with ⟨-, hreal⟩ | ⟨hpart, -⟩
      · cases hd.symm.trans hreal
      · exact hpart
    have hwords := partialWords_of_guard hj hpart (hextetReady_of_word hrow hs).2 hg
    rw [wordStep_guard pa pb pc k hg] at h
    cases h
    rw [remainingSteps_merge rfl, remainingSteps_scratch hrow hd, hwords]
    change 2 + laterSteps s = _
    omega
  · have hg : 4 ≤ s.lineEnd - s.src := by omega
    obtain ⟨d, u, rfl, hwritten, -⟩ := wordStep_writes hrow hj.pointer hg h
    have same := (sameDecode_of_word hwritten).toSameHostSide
    have hcol : u.col = s.col := hwritten.col
    obtain ⟨hsteps, hafter⟩ := wordSteps_congr same hwritten.dest hcol hwritten.row
    have hreal := remainingSteps_real hrow
    have next {g : Fsm} {pa pb pc : Plane} {k : State → State} (hrow' : WordRow g pa pb pc k)
        (hindex : wordIndex g = wordIndex s.fsm + 1) :
        remainingSteps { u with fsm := g } = remainingSteps s - 1 := by
      rw [remainingSteps_word (s := { u with fsm := g }) hrow', remainingSteps_word hrow]
      change hextetSteps u - wordIndex g + afterHextet u = _
      rw [hsteps, hafter, hindex]
      push_cast
      omega
    generalize hf : s.fsm = f at hrow
    rw [hf] at next hreal
    cases hrow with
    | word1 => exact next .word2 rfl
    | word2 => exact next .word3 rfl
    | word3 => exact next .word4 rfl
    | word4 =>
      obtain ⟨hfull, hd⟩ := dest_real_of_fourth hj (by rw [hf]; rfl) hg
      have hw := widthOf_congr same
      rw [remainingSteps_endHextet (hcol ▸ hj.col_mod) (by rw [hw, hcol]; exact hfull), hw, hcol,
        laterSteps_congr same hwritten.row, hreal hd]
      change _ = 4 - 3 + _ + _ + _ + _ - 1
      omega

theorem remainingSteps_engine (hf : holdsFrame s.fsm) (hs : EngineInv s) (h : EngineRan s t) :
    remainingSteps t = remainingSteps s - 1 := by
  have same := sameDecode_engine hf h
  cases h with
  | validate hf' _ | acquire hf' _ => rw [hf'] at hf; cases hf
  | word pa pb pc k hrow h => exact remainingSteps_wordStep hrow hs h
  | rowBegin hf' h =>
    have hw : 0 < widthOf s := lt_of_lt_of_le two_pos (frameReady_of_inv hs hf).1.2.1
    rw [remainingSteps_rowBegin hf']
    cases h
    rw [remainingSteps_hextetSelect (if_pos hw)]
    change 5 * ((widthOf s - 0) / 6) + partialSteps (widthOf s) + 2 + laterSteps s = _
    rw [sub_zero]
    omega
  | hextetSelect hf' h =>
    rw [EngineInv, hf'] at hs
    obtain ⟨⟨-, -, hmod, -⟩, hlt, -⟩ := hs
    rw [remainingSteps_hextetSelect hf']
    rcases hextetSelect_next h with ⟨hpart, rfl⟩ | ⟨hfull, -, rfl⟩
    · rw [remainingSteps_scratch .word1 rfl]
      change 1 + partialWords (widthOf s) - 0 + 2 + laterSteps s = _
      have hsome : partialSteps (widthOf s) = 2 + partialWords (widthOf s) := if_neg (by omega)
      rw [hsome]
      omega
    · rw [remainingSteps_real .word1 rfl]
      change 4 - 0 + 5 * ((widthOf s - s.col) / 6 - 1) + partialSteps (widthOf s) + 2 +
        laterSteps s = _
      omega
  | mergeBack hf' h =>
    have ht : t.fsm = .rowEnd ∧ t.row = s.row := by
      rcases mergeBack_next h with ⟨-, rfl⟩ | ⟨-, -, -, _, _, _, -, -, -, rfl, -⟩ <;>
        exact ⟨rfl, rfl⟩
    rw [remainingSteps_rowEnd ht.1, remainingSteps_merge hf',
      laterSteps_congr same.toSameHostSide ht.2]
    omega
  | rowEnd hf' h =>
    rw [EngineInv, hf'] at hs
    obtain ⟨⟨-, -, hr1⟩, -⟩ := hs
    rw [remainingSteps_rowEnd hf']
    cases h
    by_cases hmore : s.row + 1 < heightOf s
    · rw [remainingSteps_rowBegin (if_pos hmore), laterSteps_rowEnd rfl same.toSameHostSide, rowSteps]
      omega
    · have hlast : heightOf s - s.row - 1 = 0 := by omega
      rw [remainingSteps_completing (if_neg hmore), laterSteps, hlast, zero_mul]
      rfl
  | complete hf' h =>
    rw [remainingSteps_completing hf']
    cases h
    rfl

/-- A step of a decode with its frame keeps the frame being filled, or ends in DONE (R230). -/
theorem holdsFrame_or_done_of_isTransition {a b : Fsm} (h : isTransition a b = true)
    (ha : holdsFrame a = true) : holdsFrame b = true ∨ b = .done := by
  cases a <;> cases b <;> revert h ha <;> decide

theorem holdsFrame_or_done (hf : holdsFrame s.fsm) (h : EngineRan s t) :
    holdsFrame t.fsm ∨ t.fsm = .done :=
  holdsFrame_or_done_of_isTransition (isTransition_of_engineRan h) hf

/-- With a frame to fill or filled, the count is 0 in DONE alone (R237). -/
theorem remainingSteps_eq_zero_iff (hs : EngineInv s) (hf : holdsFrame s.fsm ∨ s.fsm = .done) :
    remainingSteps s = 0 ↔ s.fsm = .done := by
  refine ⟨fun h0 => hf.resolve_left fun hf => ?_, remainingSteps_done⟩
  have := remainingSteps_pos hs hf
  omega

end

/-- Settles O43: the step completes under the engine invariant, which its result meets again, and each
kind of step is one of those the rule counts. -/
theorem engineStepsCountDown : Obligations.EngineStepsCountDown := by
  intro s i hs hf hd
  obtain ⟨t, ht⟩ := engine_completes hs hd
  have hran := exec_engine hd ht
  exact ⟨remainingSteps_pos hs hf, t, ht, remainingSteps_engine hf hs hran,
    remainingSteps_eq_zero_iff (engineInv_engine hs hran) (holdsFrame_or_done hf hran)⟩

end Sys2Proof.Machine
end

section
/-! PROOF. A whole decode: VALIDATE, ACQUIRE, and the counted steps to DONE (R231, R237, R239). -/

namespace Sys2Proof.Machine

open Sys2Proof.Safety

section

variable {s t u v : State}

/-- With an empty schedule the engine moves first (R131, log 2). -/
theorem step_engine {i : Instr} (hsched : s.sched = []) (hd : decode (.fsm s.fsm.code) = .ok i) :
    step s = exec i s := by
  have hturn : useTurn s = s := by
    rw [useTurn, hsched, List.tail_nil, ← hsched]
  simp only [step, fetch_engine hd (.inl (by rw [hsched]; exact nofun)), hturn]

theorem packetWritten_of_same (h : SameHostSide s t) (hs : PacketWritten s) : PacketWritten t := by
  intro o ho
  rw [widthOf_congr h, heightOf_congr h] at ho
  rw [pktAt, h.pkt]
  exact hs o ho

/-- A state that holds a frame selects an engine step (R105). -/
theorem exists_decode_of_holdsFrame {f : Fsm} (h : holdsFrame f = true) :
    ∃ i, decode (.fsm f.code) = .ok i := by
  rw [decode_fsm_eq]
  cases f
  case rowBegin | hextetSelect | word1 | word2 | word3 | word4 | merge | rowEnd | completing =>
    exact ⟨_, rfl⟩
  all_goals cases h

/-- The invariants that a decode in progress is followed with. -/
structure DecodeInv (s : State) : Prop where
  engine : EngineInv s
  status : StatusInv s
  content : ContentInv s

theorem decodeInv_engine (hs : DecodeInv s) (h : EngineRan s t) : DecodeInv t where
  engine := engineInv_engine hs.engine h
  status := statusInv_engine hs.status h
  content := contentInv_engine hs.engine hs.content h

/-! The last step. -/

theorem completing_of_isTransition_done {f : Fsm} (h : isTransition f .done = true) :
    f = .completing := by
  cases f
  case completing => rfl
  all_goals cases h

/-- DONE is entered by COMPLETE alone (R230). -/
theorem complete_of_done (h : EngineRan s t) (hd : t.fsm = .done) :
    s.fsm = .completing ∧ execComplete s = .next t := by
  have hf : s.fsm = .completing :=
    completing_of_isTransition_done (hd ▸ isTransition_of_engineRan h)
  cases h with
  | complete _ h => exact ⟨hf, h⟩
  | word pa pb pc k hrow _ => rw [hf] at hrow; cases hrow
  | _ hf' => cases hf.symm.trans hf'

/-- What DONE reports and shows: all of the packet, and the format's frame (R227, R239). -/
def DecodeDone (s : State) : Prop := s.consumed = s.pktLen ∧ FrameDecoded s

/-- Before COMPLETE all rows are earlier rows, whose content is the format's (R235, R239). -/
theorem decodeDone_of_complete (hs : DecodeInv s) (hpkt : PacketWritten s)
    (hf : s.fsm = .completing) (h : execComplete s = .next t) : DecodeDone t := by
  have hinv := hs.engine
  rw [EngineInv, hf] at hinv
  obtain ⟨⟨-, g, hslot, -, hh⟩, hrow⟩ := hinv
  obtain ⟨hrows, -⟩ := hs.content (by rw [hf]; rfl) hpkt
  cases h
  refine ⟨rfl, fun f hf p r c hr => hrows f hf p r c hr (.inl ?_)⟩
  cases hslot.symm.trans hf
  have := inRange_iff.mp hr
  omega

/-! The run. -/

/-- What a decode whose frame was acquired in `s` has kept and done in `u`. -/
structure DecodeRuns (s u : State) : Prop where
  inv : DecodeInv u
  same : SameDecode s u
  written : PacketWritten u
  stage : holdsFrame u.fsm ∨ u.fsm = .done
  result : u.fsm = .done → DecodeDone u

theorem decodeRuns_engine (h : DecodeRuns s u) (hf : holdsFrame u.fsm) (hran : EngineRan u v) :
    DecodeRuns s v where
  inv := decodeInv_engine h.inv hran
  same := sameDecode_trans h.same (sameDecode_engine hf hran)
  written := packetWritten_of_same (sameDecode_engine hf hran).toSameHostSide h.written
  stage := holdsFrame_or_done hf hran
  result hd := by
    obtain ⟨hf', hc⟩ := complete_of_done hran hd
    exact decodeDone_of_complete h.inv h.written hf' hc

/-- A decode with its frame runs the counted steps to DONE (R237). -/
theorem run_to_done {n : Nat} (h : DecodeRuns s u) (hsched : s.sched = [])
    (hn : remainingSteps u = n) :
    ∃ t, Host.Core.run core n u = .next t ∧ DecodeRuns s t ∧ t.fsm = .done := by
  induction n generalizing u with
  | zero => exact ⟨u, rfl, h, (remainingSteps_eq_zero_iff h.inv.engine h.stage).mp hn⟩
  | succ n ih =>
    have hf : holdsFrame u.fsm := h.stage.resolve_right fun hd => by
      rw [remainingSteps_done hd] at hn
      omega
    obtain ⟨i, hd⟩ := exists_decode_of_holdsFrame hf
    obtain ⟨-, v, hv, hcount, -⟩ := engineStepsCountDown u i h.inv.engine hf hd
    rw [run_step ((step_engine (h.same.sched.trans hsched) hd).trans hv)]
    exact ih (decodeRuns_engine h hf (exec_engine hd hv)) (by omega)

/-! The steps before the frame. -/

/-- A run from VALIDATING takes VALIDATE and ACQUIRE and goes on with the acquired frame in ROW_BEGIN
(R160, R162). -/
theorem decode_acquires {h : Word} {rest : List PoolAnswer} (hs : DecodeInv s)
    (hf : s.fsm = .validating) (hsched : s.sched = []) (hw : 2 ≤ widthOf s) (hh : 1 ≤ heightOf s)
    (hlen : heightOf s * rowStride (widthOf s) ≤ lengthOf s)
    (hanswers : s.answers = .ok h :: rest) (h0 : h ≠ 0#32) (hdropped : h ∉ s.dropped) :
    ∃ u, (∀ n, Host.Core.run core (n + 2) s = Host.Core.run core n u) ∧ DecodeInv u ∧
      SameHostSide s u ∧ u.fsm = .rowBegin ∧ u.row = 0 ∧
      u.slot = some (newFrame h (widthOf s) (heightOf s) s.draws) ∧
      u.history = s.history ++ (heldHandles s).map .release ++
        [.acquire (widthOf s) (heightOf s) (.ok h)] := by
  obtain ⟨a, ha⟩ : ∃ a : State, a = { s with stride := rowStride (widthOf s), fsm := .allocating } :=
    ⟨_, rfl⟩
  have hvalidate : execValidate s = .next a := by
    rw [ha, execValidate_goodGeometry (by omega) (by omega), if_neg (by omega)]
  have hacquire : acquireFrame a = _ := acquireFrame_ok (s := a) (h := h) (rest := rest)
    (drawAnswer_listed (by rw [releaseSlot_answers, ha]; exact hanswers) h0
      (by rw [liveHandles_releaseSlot, ha]; exact hdropped))
  have hfa : a.fsm = .allocating := by rw [ha]
  have hstep : step s = .next a :=
    (step_engine (i := .validate) hsched (by rw [hf]; rfl)).trans hvalidate
  have hstepa : step a = .next (acquireFrame a) :=
    step_engine (i := .acquire) (by rw [ha]; exact hsched) (by rw [hfa]; rfl)
  refine ⟨acquireFrame a, fun n => (run_step hstep).trans (run_step hstepa),
    decodeInv_engine (decodeInv_engine hs (.validate hf hvalidate)) (.acquire hfa rfl), ?_⟩
  rw [hacquire, ha]
  exact ⟨by constructor <;> rfl, rfl, rfl, rfl, rfl⟩

end

/-- Settles O47: two steps to the frame, then one step for each one left of R237's count; the invariants
kept on the way say at DONE what the frame holds. -/
theorem decodeRunsToDone : Obligations.DecodeRunsToDone := by
  intro s h rest hengine hstatus hf hsched hw hh hlen hpkt hanswers h0 hdropped
  have hcontent : ContentInv s := contentInv_of_noFrame (by rw [hf]; rfl)
  obtain ⟨u, hrun, hinv, hside, hfu, hrow, hslot, hhistory⟩ :=
    decode_acquires ⟨hengine, hstatus, hcontent⟩ hf hsched hw hh hlen hanswers h0 hdropped
  have hcount : decodeSteps (widthOf s) (heightOf s) = remainingSteps u + 2 := by
    simp only [remainingSteps_rowBegin hfu, laterSteps, hrow, widthOf_congr hside,
      heightOf_congr hside, decodeSteps, rowSteps]
    ring
  have hholds : holdsFrame u.fsm := by rw [hfu]; rfl
  have hpos := remainingSteps_pos hinv.engine hholds
  have hstart : DecodeRuns u u := ⟨hinv, ⟨sameHostSide_refl u, rfl, rfl, rfl⟩,
    packetWritten_of_same hside hpkt, .inl hholds, by rw [hfu]; exact nofun⟩
  obtain ⟨t, ht, hruns, hdone⟩ := run_to_done (n := (remainingSteps u).toNat) hstart
    (hside.sched.trans hsched) (by omega)
  obtain ⟨f, hft, hhandle, hfw, hfh⟩ := slot_of_sameDecode hruns.same hslot
  obtain ⟨-, hgot, hkey, hcause, -⟩ := hruns.inv.status
  obtain ⟨hconsumed, hdecoded⟩ := hruns.result hdone
  have hsame := sameHostSide_trans hside hruns.same.toSameHostSide
  have hgot : t.gotFrame = true := hgot.trans (decide_eq_true hdone)
  refine ⟨t, f, ?_, hdone, hgot, hkey.trans hgot, hcause.mpr (by rw [hdone]; exact nofun),
    hconsumed.trans hsame.pktLen, hft, hhandle, hfw, hfh, hdecoded,
    hruns.same.history.trans hhistory, hsame⟩
  rw [hcount, show (remainingSteps u + 2).toNat = (remainingSteps u).toNat + 2 by omega, hrun, ht]

end Sys2Proof.Machine
end

section
/-! PROOF. The RESET operation, and what the host may do while BUSY = 1 (R280, R290). -/

namespace Sys2Proof.Machine

open Sys2Proof.Safety

/-- Settles O2: RESET takes the block's values from the reset state and the environment's from the
state it runs in, and the hidden working values drawn afterwards touch neither. -/
theorem resetOperationCompletes : Obligations.ResetOperationCompletes := by
  intro s
  have hpkt : ∀ o, Memory.read (n := 8) State.reset.pkt o = none := memory_read_nil
  exact ⟨_, rfl, rfl, rfl, rfl, rfl, rfl, rfl, rfl, rfl, rfl, rfl, hpkt,
    rfl, rfl, rfl, rfl, rfl, rfl, rfl⟩

/-- The reads allowed while BUSY = 1 are those at the offsets of STATUS, CONSUMED and FRAME_HANDLE. -/
theorem allowedBusy_regRead {off : Word} :
    allowedBusy (.regRead off) = true ↔ off = 0x04#32 ∨ off = 0x18#32 ∨ off = 0x1C#32 := by
  simp only [allowedBusy, Bool.or_eq_true, beq_iff_eq, or_assoc]

/-- A host operation outside R290's list is stopped by its own busy check. -/
theorem exec_busy_fault {s : State} {i : Instr} (hb : busy s = true) (hi : isEngineStep i = false)
    (ha : allowedBusy i = false) : exec i s = .fault .busyAccess := by
  cases i with
  | decode => exact execDecode_busy hb
  | shutdown => exact execShutdown_busy hb
  | regWrite off v => exact regWrite_busy off v hb
  | regRead off =>
    have hoff := mt allowedBusy_regRead.mpr (Bool.eq_false_iff.mp ha)
    obtain ⟨hstatus, hconsumed, hhandle⟩ : off ≠ 0x04#32 ∧ off ≠ 0x18#32 ∧ off ≠ 0x1C#32 := by
      simpa only [not_or] using hoff
    exact regRead_busy hb (readableBusy_ofOffset hstatus hconsumed hhandle)
  | pktWrite o b => exact (packetWriteStoresOneByte s o b).1 hb
  | frameRead h p r c => exact (frameReadReturnsTheSample s h p r c).1 hb
  | reset => cases ha
  | _ => cases hi

/-- The operations on R290's list complete in every state, busy or not. -/
theorem exec_allowedBusy_completes (s : State) {i : Instr} (ha : allowedBusy i = true) :
    ∃ t, exec i s = .next t := by
  cases i with
  | regRead off =>
    obtain ⟨v, hread⟩ := regRead_allowed s (allowedBusy_regRead.mp ha)
    exact ⟨_, hread⟩
  | reset => exact ⟨_, rfl⟩
  | _ => cases ha

/-- Settles O10, by whether the operation is on R290's list. -/
theorem busyHazard : Obligations.BusyHazard := fun s _ hb hi =>
  ⟨exec_busy_fault hb hi, exec_allowedBusy_completes s⟩

end Sys2Proof.Machine
end
